-- ==== Sys2Proof/Word.lean ====
section
/-! DEFINITION. The fixed-width fields of the block (spec/00_scope.md R5, R6; 10_state.md R11, R21) and the 32
canonical register names as a closed set. -/

namespace Sys2Proof

/-- One byte of the byte source (R16, R31). -/
abbrev Byte := BitVec 8

/-- An instruction word, `WORD_W` = 32 bits (R5, R45). -/
abbrev Word := BitVec 32

/-- The 7-bit opcode, `OPC_W` = 7 (R5, R45). -/
abbrev OpcodeBits := BitVec 7

/-- The key `opcode[6:2]`, index of the format table (R6, R57). -/
abbrev Key := BitVec 5

/-- A register index, `REG_W` = 5 (R5, R11): the block carries indices and never a register's value. -/
abbrev Register := BitVec 5

/-- The 3-bit funct field (R21). -/
abbrev Funct3 := BitVec 3

/-- The 7-bit funct field (R21). -/
abbrev Funct7 := BitVec 7

/-- The canonical register names, in index order (R11); each constructor is one of the "32 named constructors". -/
inductive RegName where
  | zero | ra | sp | gp | tp | t0 | t1 | t2
  | s0 | s1 | a0 | a1 | a2 | a3 | a4 | a5
  | a6 | a7 | s2 | s3 | s4 | s5 | s6 | s7
  | s8 | s9 | s10 | s11 | t3 | t4 | t5 | t6
  deriving DecidableEq, Repr

end Sys2Proof
end

