-- ==== Sys2Proof/Config.lean ====
section
/-! DEFINITION. The open parameters of the block (spec/00_scope.md R5) as plain data, whose default values stand in
Sys2Proof/Machine/Classifier.lean, and the bytes of an endless source that nothing fixes (20_memory.md R31). -/

namespace Sys2Proof

/-- The instruction length classes (10_state.md R19). Only `size32` is accepted by an operation that makes an
Instruction. The other names are the spec's choice (92 D3). -/
inductive Size where
  | size16 | size32 | size48 | size64
  deriving DecidableEq, Repr

/-- The parameters a model takes as arguments (R5): `SIZE_OF` and `ADDR_W`.
`SIZE_OF` is OPEN in the spec (92 D3, 93 U8), so it is data that a statement can quantify over (log 2, PRESUMED);
so is the width of the address counter (92 D8, 93 U10; log 3, DESIGN CHOICE). -/
structure Params where
  /-- `SIZE_OF` of opcode `o` is entry number `o`; `none` is "unrecognised" (30_encoding.md R61). -/
  sizeTable : List (Option Size)
  /-- `ADDR_W`, the width of the address counter in bits. -/
  addrWidth : Nat
  deriving DecidableEq, Repr

/-- Byte `pos` of the endless byte source number `id`: a free value, on which no proof can lean. The spec allows an
infinite source (92 D10) and says nothing of its bytes, which the environment supplies (20 R31; log 23, DESIGN CHOICE). -/
opaque Config.sourceByte (id pos : Nat) : Byte

end Sys2Proof
end

