-- ==== Sys2Proof/Syntax.lean ====
section
/-! DEFINITION. The data formats that travel between the units (spec/10_state.md R18 to R25, 60_exceptions.md R231,
45_lookup_interface.md R211, R220) and `Instr`, one constructor per row of spec/opcode_table.json. Those that carry a
proof of R23's invariant (Opcode, Instruction and what holds one) stand in Sys2Proof/Machine/Instruction.lean. -/

namespace Sys2Proof

/-- `Format`, the "closed variant set {R, I, S, B, U, J}" (R18). -/
inductive Format where
  | R | I | S | B | U | J
  deriving DecidableEq, Repr

/-- `Immediate[START,END]` (R22), carried as its raw bits. The type is written with START and the width
`W = END - START + 1`, so `END = START + W - 1` (log 22, DEDUCED). -/
structure Immediate (start width : Nat) where
  raw : BitVec width
  deriving DecidableEq, Repr

/-- `Immediate[0,11]`, of formats I and S (R22, R54). -/
abbrev Imm0to11 := Immediate 0 12

/-- `Immediate[1,12]`, of format B (R22, R54). -/
abbrev Imm1to12 := Immediate 1 12

/-- `Immediate[12,31]`, of format U (R22, R54). -/
abbrev Imm12to31 := Immediate 12 20

/-- `Immediate[1,20]`, of format J (R22, R54). -/
abbrev Imm1to20 := Immediate 1 20

/-- The seven inputs of the builder, as `BuilderMissingField` names them (60 R231, 43 R175). -/
inductive BuilderField where
  | opcode | funct3 | funct7 | rs1 | rs2 | rd | imm
  deriving DecidableEq, Repr

/-- The closed set of twelve errors (60_exceptions.md R230, R231). -/
inductive DecodeError where
  /-- R232: bit 7 of a raw opcode is set; raised by `opcodeFromRaw` only. -/
  | invalidOpcode
  /-- R233: the key is not in the format table. -/
  | unrecognizedInstructionFormat
  /-- R234: `SIZE_OF` of the opcode is unrecognised. -/
  | unrecognizedInstructionSize
  /-- R235: in the set, raised by no operation (log 16, DESIGN CHOICE). -/
  | unrecognizedExtension
  /-- R236: the opcode's format (the payload) is not the variant's. -/
  | unexpectedFormat (actual : Format)
  /-- R237: a raw register value of 32 or more. -/
  | invalidRegister
  /-- R238: a raw funct value that does not fit `width` bits. -/
  | invalidFunctValue (width : Nat)
  /-- R239: a value outside the bounds of its immediate type. -/
  | immediateOutOfRange (min max : Int)
  /-- R241: a value in range whose low `start` bits are not all zero. -/
  | immediateBitsBeforeStart (start : Nat)
  /-- R242: the builder lacks a required field. -/
  | builderMissingField (field : BuilderField)
  /-- R243: the byte source ended inside a word. -/
  | unexpectedEof
  /-- R244: the opcode's size is recognised and is not `size32`. -/
  | unsupportedInstructionSize (size : Size)
  deriving DecidableEq, Repr

/-- The triple an Instruction presents to the mnemonic lookup (R211). -/
structure LookupKey where
  opcode : OpcodeBits
  funct3 : Option Funct3
  funct7 : Option Funct7
  deriving DecidableEq, Repr

/-- One entry of the operand list (R220). -/
inductive Operand where
  | reg (r : Register)
  | imm (v : Int)
  deriving DecidableEq, Repr

/-- The value of the `immediate` accessor (43_union_builder.md R174): an Immediate whose type depends on the variant. -/
inductive VariantImmediate where
  | imm0to11 (imm : Imm0to11)
  | imm1to12 (imm : Imm1to12)
  | imm12to31 (imm : Imm12to31)
  | imm1to20 (imm : Imm1to20)
  deriving DecidableEq, Repr

/-- The Instruction as a hardware bundle (10_state.md R23, 43 R174; the layout is the spec's choice, 92 D2; log 19):
a tag, the opcode, and per field a valid bit with a value that is 0 when the bit is 0. -/
structure InstructionBundle where
  tag : BitVec 3
  opcode : BitVec 7
  rd : BitVec 5
  rdValid : Bool
  funct3 : BitVec 3
  funct3Valid : Bool
  rs1 : BitVec 5
  rs1Valid : Bool
  rs2 : BitVec 5
  rs2Valid : Bool
  funct7 : BitVec 7
  funct7Valid : Bool
  immRaw : BitVec 20
  immValid : Bool
  immSigned : BitVec 32
  deriving DecidableEq, Repr

/-- What the block guarantees to the renderer for one record (45 R221). The name is a plain string, without the source's
wrapper type, of which nothing more is said (45 R212; DESIGN CHOICE, log 25). -/
structure Presentation where
  mnemonic : Option String
  operands : List Operand
  address : Nat
  deriving DecidableEq, Repr

/-- One constructor per row of spec/opcode_table.json. An opcode class is one key of the format table (R124 to R134);
`lo` is `opcode[1:0]`, which is `11` in the row's own opcode and which only `SIZE_OF` looks at (R60; log 13, DEDUCED).
The six system words (R214 to R219) have no operand. -/
inductive Instr where
  | b63 (lo : BitVec 2) (funct3 : Funct3) (rs1 rs2 : Register) (imm : Imm1to12)
  | i13 (lo : BitVec 2) (rd : Register) (funct3 : Funct3) (rs1 : Register) (imm : Imm0to11)
  | i03 (lo : BitVec 2) (rd : Register) (funct3 : Funct3) (rs1 : Register) (imm : Imm0to11)
  | i67 (lo : BitVec 2) (rd : Register) (funct3 : Funct3) (rs1 : Register) (imm : Imm0to11)
  | i73 (lo : BitVec 2) (rd : Register) (funct3 : Funct3) (rs1 : Register) (imm : Imm0to11)
  | j6F (lo : BitVec 2) (rd : Register) (imm : Imm1to20)
  | r33 (lo : BitVec 2) (rd : Register) (funct3 : Funct3) (rs1 rs2 : Register) (funct7 : Funct7)
  | r2F (lo : BitVec 2) (rd : Register) (funct3 : Funct3) (rs1 rs2 : Register) (funct7 : Funct7)
  | r3B (lo : BitVec 2) (rd : Register) (funct3 : Funct3) (rs1 rs2 : Register) (funct7 : Funct7)
  | s23 (lo : BitVec 2) (funct3 : Funct3) (rs1 rs2 : Register) (imm : Imm0to11)
  | u37 (lo : BitVec 2) (rd : Register) (imm : Imm12to31)
  | ecall
  | ebreak
  | wfi
  | mret
  | sret
  | dret
  deriving DecidableEq, Repr

end Sys2Proof
end

