-- ==== Sys2Proof/Machine/Tables.lean ====
section
/-! DEFINITION. The two tables of the classifier: the format of a key, and the size of an opcode, which is a parameter
(spec/30_encoding.md R57, R58, R61; 41_opcode_classifier.md R122, R123). -/

namespace Sys2Proof.Machine

/-- `FormatOfKey(key)` (41 R122, table of R58): 11 keys are mapped, the 21 others fail. -/
def formatOfKey (key : Key) : Except DecodeError Format :=
  if key = 0b11000#5 then .ok .B
  else if key = 0b00100#5 ∨ key = 0b00000#5 ∨ key = 0b11001#5 ∨ key = 0b11100#5 then .ok .I
  else if key = 0b11011#5 then .ok .J
  else if key = 0b01100#5 ∨ key = 0b01011#5 ∨ key = 0b01110#5 then .ok .R
  else if key = 0b01000#5 then .ok .S
  else if key = 0b01101#5 then .ok .U
  else .error .unrecognizedInstructionFormat

/-- `opcode[6:2]` (R57). -/
def keyOf (o : OpcodeBits) : Key := o.extractLsb' 2 5

/-- The table lookup `SIZE_OF(o)` (30 R61); `none` is "unrecognised". -/
def sizeTableOf (p : Params) (o : OpcodeBits) : Option Size :=
  p.sizeTable.getD o.toNat none

/-- `SizeOf(o)` (41 R123). -/
def sizeOf (p : Params) (o : OpcodeBits) : Except DecodeError Size :=
  match sizeTableOf p o with
  | some sz => .ok sz
  | none => .error .unrecognizedInstructionSize

end Sys2Proof.Machine
end

