-- ==== Sys2Proof/Machine/Instruction.lean ====
section
/-! DEFINITION. Opcodes and Instructions of a block with parameters `p`, as types "whose values all satisfy the invariant
(raw fields plus a proof)" (spec/43_union_builder.md R179; the invariant is 10_state.md R23), and what carries an
Instruction. -/

namespace Sys2Proof

/-- `Opcode` (10 R20): the 7 bits with the format and the size. Both are functions of the bits, by the two tables of the
classifier, and the proofs of that stand beside them; `SIZE_OF` is a parameter of the block, so the type names it. -/
structure Opcode (p : Params) where
  bits : OpcodeBits
  format : Format
  size : Size
  mapped : Machine.formatOfKey (Machine.keyOf bits) = .ok format
  sized : Machine.sizeOf p bits = .ok size
  deriving DecidableEq, Repr

/-- The opcode of a variant with tag `t`: the 7 bits, with the proofs that their format is `t` and that `SIZE_OF` gives
them `Size32`. That is the whole invariant of 10 R23 (R179; log 22). -/
@[ext] structure VariantOpcode (p : Params) (t : Format) where
  bits : OpcodeBits
  mapped : Machine.formatOfKey (Machine.keyOf bits) = .ok t
  sized : Machine.sizeOf p bits = .ok .size32
  deriving DecidableEq, Repr

/-- `Instruction`, the tagged union over the six variants (10 R23): each holds the fields of its format and no other,
and an opcode of its own format and of size `Size32`, so every value satisfies the invariant (R179). -/
inductive Instruction (p : Params) where
  | r (opcode : VariantOpcode p .R) (rd : Register) (funct3 : Funct3) (rs1 rs2 : Register) (funct7 : Funct7)
  | i (opcode : VariantOpcode p .I) (rd : Register) (funct3 : Funct3) (rs1 : Register) (imm : Imm0to11)
  | s (opcode : VariantOpcode p .S) (funct3 : Funct3) (rs1 rs2 : Register) (imm : Imm0to11)
  | b (opcode : VariantOpcode p .B) (funct3 : Funct3) (rs1 rs2 : Register) (imm : Imm1to12)
  | u (opcode : VariantOpcode p .U) (rd : Register) (imm : Imm12to31)
  | j (opcode : VariantOpcode p .J) (rd : Register) (imm : Imm1to20)
  deriving DecidableEq, Repr

/-- `InstructionRecord` (10 R24): an Instruction with the address tag the stream unit gave it. `params` only says of which
block the Instruction is one, so that its type can be written; it is no field of the hardware's record (log 22). -/
structure InstructionRecord where
  {params : Params}
  instruction : Instruction params
  address : Nat
  deriving DecidableEq, Repr

/-- The output of one step of the stream unit (44_stream_unit.md R191). -/
inductive StreamOutput where
  /-- `Item(Ok(rec))` -/
  | item (rec : InstructionRecord)
  /-- `Item(Err(e))` -/
  | error (e : DecodeError)
  /-- `End`, "no more items" -/
  | done
  deriving DecidableEq, Repr

/-- The seven optional inputs of `Build` (R175): validated fields and a plain signed immediate. -/
structure BuildInput (p : Params) where
  opcode : Option (Opcode p)
  funct3 : Option Funct3
  funct7 : Option Funct7
  rs1 : Option Register
  rs2 : Option Register
  rd : Option Register
  imm : Option Int
  deriving DecidableEq, Repr

end Sys2Proof
end

