-- ==== Sys2Proof/Machine/Classifier.lean ====
section
/-! DEFINITION. The opcode and format classifier (spec/41_opcode_classifier.md R120, R121; the tables of R122 and R123
stand in Sys2Proof/Machine/Tables.lean) and the default values of the open parameters (30_encoding.md R61,
00_scope.md R5). -/

namespace Sys2Proof.Machine

/-- The default `SIZE_OF` (R61), first match wins. PRESUMED: the spec takes it from general knowledge (log 2). -/
def defaultSizeOf (o : OpcodeBits) : Option Size :=
  if o.extractLsb' 0 2 ≠ 0b11#2 then some .size16
  else if o.extractLsb' 2 3 ≠ 0b111#3 then some .size32
  else if o.extractLsb' 0 6 = 0b011111#6 then some .size48
  else if o = 0b0111111#7 then some .size64
  else none

/-- The default parameters (R5, R61): `SIZE_OF` as above and `ADDR_W` = 64 (log 2, PRESUMED; log 3, DESIGN CHOICE). -/
def defaultParams : Params where
  sizeTable := (List.range 128).map fun o => defaultSizeOf (BitVec.ofNat 7 o)
  addrWidth := 64

/-- `OpcodeFromRaw(raw)` (R121): bit 7, then the format, then the size (the order of the two lookups is 92 D11; log 12). -/
def opcodeFromRaw (p : Params) (raw : BitVec 8) : Except DecodeError (Opcode p) :=
  if raw.getLsbD 7 then .error .invalidOpcode
  else
    match hf : formatOfKey (keyOf (raw.extractLsb' 0 7)) with
    | .error e => .error e
    | .ok fmt =>
      match hs : sizeOf p (raw.extractLsb' 0 7) with
      | .error e => .error e
      | .ok sz => .ok ⟨raw.extractLsb' 0 7, fmt, sz, hf, hs⟩

/-- What R61 asks of a parameter `SIZE_OF` (`SIZE_OF(0x33) = Size32`), with the table's form: one entry per opcode. -/
abbrev paramsWf (p : Params) : Prop :=
  p.sizeTable.length = 128 ∧ sizeTableOf p 0x33#7 = some .size32

end Sys2Proof.Machine
end

