-- ==== Sys2Proof/Machine/Primitives.lean ====
section
/-! DEFINITION. The bit-field primitives (spec/40_primitives.md R90 to R103). -/

namespace Sys2Proof.Machine

/-- `RegFromRaw(raw)` (R90). -/
def regFromRaw (raw : BitVec 8) : Except DecodeError Register :=
  if 32 ≤ raw.toNat then .error .invalidRegister else .ok (raw.extractLsb' 0 5)

/-- The offset of `rd` in a word (R46, R91). -/
def rdOffset : Nat := 7

/-- The offset of `rs1` in a word (R46, R91). -/
def rs1Offset : Nat := 15

/-- The offset of `rs2` in a word (R46, R91). -/
def rs2Offset : Nat := 20

/-- `RegFromWord(word, off)` (R91): `(word >> off) & 0x1F`. -/
def regFromWord (word : Word) (off : Nat) : Register := ((word >>> off) &&& 0x1F#32).setWidth 5

/-- `RegToWord(r, off)` (R92). -/
def regToWord (r : Register) (off : Nat) : Word := r.setWidth 32 <<< off

/-- `Funct3FromRaw(raw)` (R94; the 8-bit input is 92 D5, log 9). -/
def funct3FromRaw (raw : BitVec 8) : Except DecodeError Funct3 :=
  if 8 ≤ raw.toNat then .error (.invalidFunctValue 3) else .ok (raw.extractLsb' 0 3)

/-- `Funct7FromRaw(raw)` (R95; the 8-bit input is 92 D5, log 9). -/
def funct7FromRaw (raw : BitVec 8) : Except DecodeError Funct7 :=
  if 128 ≤ raw.toNat then .error (.invalidFunctValue 7) else .ok (raw.extractLsb' 0 7)

/-- `Funct3FromWord(word)` (R96). -/
def funct3FromWord (word : Word) : Funct3 := ((word >>> 12) &&& 0x7#32).setWidth 3

/-- `Funct7FromWord(word)` (R96). -/
def funct7FromWord (word : Word) : Funct7 := ((word >>> 25) &&& 0x7F#32).setWidth 7

/-- `Funct3ToWord(f)` (R97). -/
def funct3ToWord (f : Funct3) : Word := f.setWidth 32 <<< 12

/-- `Funct7ToWord(f)` (R97). -/
def funct7ToWord (f : Funct7) : Word := f.setWidth 32 <<< 25

/-- The 32 names in index order (R11). -/
def regNameTable : List RegName :=
  [.zero, .ra, .sp, .gp, .tp, .t0, .t1, .t2] ++ [.s0, .s1, .a0, .a1, .a2, .a3, .a4, .a5] ++
  [.a6, .a7, .s2, .s3, .s4, .s5, .s6, .s7] ++ [.s8, .s9, .s10, .s11, .t3, .t4, .t5, .t6]

/-- `RegName(r)` (R93). -/
def regName (r : Register) : RegName := regNameTable.getD r.toNat .zero

/-- The named constructors (R93): each yields the Register of its index. -/
def regOfName (n : RegName) : Register := BitVec.ofNat 5 (regNameTable.idxOf n)

/-- The spelling of a name (R11). -/
def regNameText : RegName → String
  | .zero => "zero" | .ra => "ra" | .sp => "sp" | .gp => "gp" | .tp => "tp"
  | .t0 => "t0" | .t1 => "t1" | .t2 => "t2" | .s0 => "s0" | .s1 => "s1"
  | .a0 => "a0" | .a1 => "a1" | .a2 => "a2" | .a3 => "a3" | .a4 => "a4" | .a5 => "a5"
  | .a6 => "a6" | .a7 => "a7"
  | .s2 => "s2" | .s3 => "s3" | .s4 => "s4" | .s5 => "s5" | .s6 => "s6" | .s7 => "s7"
  | .s8 => "s8" | .s9 => "s9" | .s10 => "s10" | .s11 => "s11"
  | .t3 => "t3" | .t4 => "t4" | .t5 => "t5" | .t6 => "t6"

/-- `END` of an immediate type written with START and W (R22). -/
def immEnd (start width : Nat) : Nat := start + width - 1

/-- `IMM_MIN(START, END)` (R98). -/
def immMin (start width : Nat) : Int := -(2 ^ immEnd start width)

/-- `IMM_MAX(START, END)` (R98). -/
def immMax (start width : Nat) : Int := 2 ^ immEnd start width - 2 ^ start

/-- `ImmFromSigned[START,END](v)` (R99): the range first, then the low bits (92 D4; log 9). `v` is unbounded, which R99
allows. -/
def immFromSigned (start width : Nat) (v : Int) : Except DecodeError (Immediate start width) :=
  if v < immMin start width ∨ immMax start width < v then
    .error (.immediateOutOfRange (immMin start width) (immMax start width))
  else if 0 < start ∧ v % 2 ^ start ≠ 0 then .error (.immediateBitsBeforeStart start)
  else .ok ⟨BitVec.ofInt width (v >>> start)⟩

/-- `ImmToSigned[START,END](raw)` (R100): shift left by START, then sign-extend from bit END when END < 31. -/
def immToSigned {start width : Nat} (imm : Immediate start width) : Int :=
  if immEnd start width < 31 then
    ((imm.raw.setWidth 32 <<< start).setWidth (immEnd start width + 1)).toInt
  else (imm.raw.setWidth 32 <<< start).toInt

/-- `ImmToRawBits[START,END](imm)` (R101): the W-bit pattern, zero-extended to the 32-bit port. -/
def immToRawBits {start width : Nat} (imm : Immediate start width) : BitVec 32 := imm.raw.setWidth 32

/-- `ImmFromRawBits[START,END](bits)` (R102; the error's name is 92 D6, log 10). -/
def immFromRawBits (start width : Nat) (bits : BitVec 32) : Except DecodeError (Immediate start width) :=
  if 2 ^ width ≤ bits.toNat then
    .error (.immediateOutOfRange (immMin start width) (immMax start width))
  else .ok ⟨bits.setWidth width⟩

/-- The normalized signed form `n = sext_W(raw)` (R103). -/
def immNormalized {start width : Nat} (imm : Immediate start width) : Int := imm.raw.toInt

end Sys2Proof.Machine
end

