-- ==== Sys2Proof/Machine/Codec.lean ====
section
/-! DEFINITION. The six per-format codecs: decode, encode, construct (spec/42_format_codecs.md R135 to R157; gather and
scatter of 30_encoding.md R55, R56). -/

namespace Sys2Proof.Machine

/-- The opcode of a word, `word[6:0]` (R45, R46). -/
def wordOpcode (word : Word) : OpcodeBits := word.extractLsb' 0 7

/-- `ConstructFront(op, T)` (R137): the size, then the format (the place of the size test is 92 D12; log 11). What it
answers is an opcode that satisfies the invariant of a `T` variant (43 R179). -/
def constructFront {p : Params} (op : Opcode p) (t : Format) : Except DecodeError (VariantOpcode p t) :=
  if hs : op.size = .size32 then
    if hf : op.format = t then
      .ok ⟨op.bits, op.mapped.trans (congrArg Except.ok hf), op.sized.trans (congrArg Except.ok hs)⟩
    else .error (.unexpectedFormat op.format)
  else .error (.unsupportedInstructionSize op.size)

/-- Classify 7 bits, then the same two tests. -/
def opcodeFront (p : Params) (o : OpcodeBits) (t : Format) : Except DecodeError (VariantOpcode p t) :=
  match opcodeFromRaw p (o.setWidth 8) with
  | .error e => .error e
  | .ok op => constructFront op t

/-- `VariantFront(word, T)` (R136): classify the word's opcode, then the size and the format. -/
def variantFront (p : Params) (word : Word) (t : Format) : Except DecodeError (VariantOpcode p t) :=
  opcodeFront p (wordOpcode word) t

/-- The opcode piece of an encoded word, all 7 bits (R138). -/
def opcodeToWord (bits : OpcodeBits) : Word := bits.setWidth 32

/-! Gather (R55): most significant piece first. -/

/-- Format I: `word[31:20]`. -/
def gatherI (word : Word) : BitVec 12 := word.extractLsb' 20 12

/-- Format S: `word[31:25] ++ word[11:7]`. -/
def gatherS (word : Word) : BitVec 12 := word.extractLsb' 25 7 ++ word.extractLsb' 7 5

/-- Format B: `word[31] ++ word[7] ++ word[30:25] ++ word[11:8]`. -/
def gatherB (word : Word) : BitVec 12 :=
  word.extractLsb' 31 1 ++ word.extractLsb' 7 1 ++ word.extractLsb' 25 6 ++ word.extractLsb' 8 4

/-- Format U: `word[31:12]`. -/
def gatherU (word : Word) : BitVec 20 := word.extractLsb' 12 20

/-- Format J: `word[31] ++ word[19:12] ++ word[20] ++ word[30:21]`. -/
def gatherJ (word : Word) : BitVec 20 :=
  word.extractLsb' 31 1 ++ word.extractLsb' 12 8 ++ word.extractLsb' 20 1 ++ word.extractLsb' 21 10

/-! Scatter (R56): each piece of the raw bits shifted to its place. -/

/-- Format I: `word[31:20] = raw12`. -/
def scatterI (r : BitVec 12) : Word := r.setWidth 32 <<< 20

/-- Format S: `word[31:25] = raw12[11:5]; word[11:7] = raw12[4:0]`. -/
def scatterS (r : BitVec 12) : Word :=
  ((r.extractLsb' 0 5).setWidth 32 <<< 7) ||| ((r.extractLsb' 5 7).setWidth 32 <<< 25)

/-- Format B: `word[31] = raw12[11]; word[7] = raw12[10]; word[30:25] = raw12[9:4]; word[11:8] = raw12[3:0]`. -/
def scatterB (r : BitVec 12) : Word :=
  ((r.extractLsb' 10 1).setWidth 32 <<< 7) ||| ((r.extractLsb' 0 4).setWidth 32 <<< 8) |||
    ((r.extractLsb' 4 6).setWidth 32 <<< 25) ||| ((r.extractLsb' 11 1).setWidth 32 <<< 31)

/-- Format U: `word[31:12] = raw20`. -/
def scatterU (r : BitVec 20) : Word := r.setWidth 32 <<< 12

/-- Format J: `word[31] = raw20[19]; word[19:12] = raw20[18:11]; word[20] = raw20[10]; word[30:21] = raw20[9:0]`. -/
def scatterJ (r : BitVec 20) : Word :=
  ((r.extractLsb' 11 8).setWidth 32 <<< 12) ||| ((r.extractLsb' 10 1).setWidth 32 <<< 20) |||
    ((r.extractLsb' 0 10).setWidth 32 <<< 21) ||| ((r.extractLsb' 19 1).setWidth 32 <<< 31)

/-! Decode, one operation per format (R140, R142, R144, R146, R148, R150). -/

/-- `DecodeR(word)` (R140). -/
def decodeR (p : Params) (word : Word) : Except DecodeError (Instruction p) :=
  match variantFront p word .R with
  | .error e => .error e
  | .ok op =>
    .ok (.r op (regFromWord word rdOffset) (funct3FromWord word) (regFromWord word rs1Offset)
      (regFromWord word rs2Offset) (funct7FromWord word))

/-- `DecodeI(word)` (R142). -/
def decodeI (p : Params) (word : Word) : Except DecodeError (Instruction p) :=
  match variantFront p word .I with
  | .error e => .error e
  | .ok op =>
    match immFromRawBits 0 12 ((gatherI word).setWidth 32) with
    | .error e => .error e
    | .ok imm =>
      .ok (.i op (regFromWord word rdOffset) (funct3FromWord word) (regFromWord word rs1Offset) imm)

/-- `DecodeS(word)` (R144). -/
def decodeS (p : Params) (word : Word) : Except DecodeError (Instruction p) :=
  match variantFront p word .S with
  | .error e => .error e
  | .ok op =>
    match immFromRawBits 0 12 ((gatherS word).setWidth 32) with
    | .error e => .error e
    | .ok imm =>
      .ok (.s op (funct3FromWord word) (regFromWord word rs1Offset) (regFromWord word rs2Offset) imm)

/-- `DecodeB(word)` (R146). -/
def decodeB (p : Params) (word : Word) : Except DecodeError (Instruction p) :=
  match variantFront p word .B with
  | .error e => .error e
  | .ok op =>
    match immFromRawBits 1 12 ((gatherB word).setWidth 32) with
    | .error e => .error e
    | .ok imm =>
      .ok (.b op (funct3FromWord word) (regFromWord word rs1Offset) (regFromWord word rs2Offset) imm)

/-- `DecodeU(word)` (R148). -/
def decodeU (p : Params) (word : Word) : Except DecodeError (Instruction p) :=
  match variantFront p word .U with
  | .error e => .error e
  | .ok op =>
    match immFromRawBits 12 20 ((gatherU word).setWidth 32) with
    | .error e => .error e
    | .ok imm => .ok (.u op (regFromWord word rdOffset) imm)

/-- `DecodeJ(word)` (R150). -/
def decodeJ (p : Params) (word : Word) : Except DecodeError (Instruction p) :=
  match variantFront p word .J with
  | .error e => .error e
  | .ok op =>
    match immFromRawBits 1 20 ((gatherJ word).setWidth 32) with
    | .error e => .error e
    | .ok imm => .ok (.j op (regFromWord word rdOffset) imm)

/-- The decoder of a variant tag (R135). -/
def decodeAs (p : Params) : Format → Word → Except DecodeError (Instruction p)
  | .R, word => decodeR p word
  | .I, word => decodeI p word
  | .S, word => decodeS p word
  | .B, word => decodeB p word
  | .U, word => decodeU p word
  | .J, word => decodeJ p word

/-! Encode, one operation per format: the OR of the disjoint pieces, from the opcode's 7 bits and
the other fields (R138, R141, R143, R145, R147, R149, R151). -/

/-- `EncodeR(i)` (R141). -/
def encodeR (op : OpcodeBits) (rd : Register) (f3 : Funct3) (rs1 rs2 : Register) (f7 : Funct7) : Word :=
  opcodeToWord op ||| regToWord rd rdOffset ||| funct3ToWord f3 ||| regToWord rs1 rs1Offset |||
    regToWord rs2 rs2Offset ||| funct7ToWord f7

/-- `EncodeI(i)` (R143). -/
def encodeI (op : OpcodeBits) (rd : Register) (f3 : Funct3) (rs1 : Register) (imm : Imm0to11) : Word :=
  opcodeToWord op ||| regToWord rd rdOffset ||| funct3ToWord f3 ||| regToWord rs1 rs1Offset ||| scatterI imm.raw

/-- `EncodeS(i)` (R145). -/
def encodeS (op : OpcodeBits) (f3 : Funct3) (rs1 rs2 : Register) (imm : Imm0to11) : Word :=
  opcodeToWord op ||| funct3ToWord f3 ||| regToWord rs1 rs1Offset ||| regToWord rs2 rs2Offset ||| scatterS imm.raw

/-- `EncodeB(i)` (R147). -/
def encodeB (op : OpcodeBits) (f3 : Funct3) (rs1 rs2 : Register) (imm : Imm1to12) : Word :=
  opcodeToWord op ||| funct3ToWord f3 ||| regToWord rs1 rs1Offset ||| regToWord rs2 rs2Offset ||| scatterB imm.raw

/-- `EncodeU(i)` (R149). -/
def encodeU (op : OpcodeBits) (rd : Register) (imm : Imm12to31) : Word :=
  opcodeToWord op ||| regToWord rd rdOffset ||| scatterU imm.raw

/-- `EncodeJ(i)` (R151). -/
def encodeJ (op : OpcodeBits) (rd : Register) (imm : Imm1to20) : Word :=
  opcodeToWord op ||| regToWord rd rdOffset ||| scatterJ imm.raw

/-! Construction from fields (R152 to R157): the opcode tests come before the immediate test (92 D12; log 11). -/

/-- `MakeR` (R152). -/
def makeR {p : Params} (op : Opcode p) (rd : Register) (f3 : Funct3) (rs1 rs2 : Register) (f7 : Funct7) :
    Except DecodeError (Instruction p) :=
  match constructFront op .R with
  | .error e => .error e
  | .ok op => .ok (.r op rd f3 rs1 rs2 f7)

/-- `MakeI` (R153). -/
def makeI {p : Params} (op : Opcode p) (rd : Register) (f3 : Funct3) (rs1 : Register) (v : Int) :
    Except DecodeError (Instruction p) :=
  match constructFront op .I with
  | .error e => .error e
  | .ok op =>
    match immFromSigned 0 12 v with
    | .error e => .error e
    | .ok imm => .ok (.i op rd f3 rs1 imm)

/-- `MakeS` (R154). -/
def makeS {p : Params} (op : Opcode p) (f3 : Funct3) (rs1 rs2 : Register) (v : Int) :
    Except DecodeError (Instruction p) :=
  match constructFront op .S with
  | .error e => .error e
  | .ok op =>
    match immFromSigned 0 12 v with
    | .error e => .error e
    | .ok imm => .ok (.s op f3 rs1 rs2 imm)

/-- `MakeB` (R155). -/
def makeB {p : Params} (op : Opcode p) (f3 : Funct3) (rs1 rs2 : Register) (v : Int) :
    Except DecodeError (Instruction p) :=
  match constructFront op .B with
  | .error e => .error e
  | .ok op =>
    match immFromSigned 1 12 v with
    | .error e => .error e
    | .ok imm => .ok (.b op f3 rs1 rs2 imm)

/-- `MakeU` (R156): the operand is the unnormalized value. -/
def makeU {p : Params} (op : Opcode p) (rd : Register) (v : Int) : Except DecodeError (Instruction p) :=
  match constructFront op .U with
  | .error e => .error e
  | .ok op =>
    match immFromSigned 12 20 v with
    | .error e => .error e
    | .ok imm => .ok (.u op rd imm)

/-- `MakeJ` (R157). -/
def makeJ {p : Params} (op : Opcode p) (rd : Register) (v : Int) : Except DecodeError (Instruction p) :=
  match constructFront op .J with
  | .error e => .error e
  | .ok op =>
    match immFromSigned 1 20 v with
    | .error e => .error e
    | .ok imm => .ok (.j op rd imm)

end Sys2Proof.Machine
end

