-- ==== Sys2Proof/Machine/Union.lean ====
section
/-! DEFINITION. The instruction union: top-level decode and encode, accessors, and the builder
(spec/43_union_builder.md R170 to R179; the invariant of 10_state.md R23 is in the types). -/

namespace Sys2Proof.Machine

/-- The active variant's tag (R18, R23). -/
def tagOf {p : Params} : Instruction p → Format
  | .r .. => .R
  | .i .. => .I
  | .s .. => .S
  | .b .. => .B
  | .u .. => .U
  | .j .. => .J

/-- `Decode(word)` (R170): classify, test the size, dispatch to the decoder of the opcode's own format. -/
def decode (p : Params) (word : Word) : Except DecodeError (Instruction p) :=
  match opcodeFromRaw p ((wordOpcode word).setWidth 8) with
  | .error e => .error e
  | .ok op =>
    if op.size ≠ .size32 then .error (.unsupportedInstructionSize op.size)
    else
      match op.format with
      | .R => decodeR p word
      | .I => decodeI p word
      | .S => decodeS p word
      | .B => decodeB p word
      | .U => decodeU p word
      | .J => decodeJ p word

/-- `Encode(i)` (R171): dispatch to the active variant's encoder. -/
def encodeInstruction {p : Params} : Instruction p → Word
  | .r op rd f3 rs1 rs2 f7 => encodeR op.bits rd f3 rs1 rs2 f7
  | .i op rd f3 rs1 imm => encodeI op.bits rd f3 rs1 imm
  | .s op f3 rs1 rs2 imm => encodeS op.bits f3 rs1 rs2 imm
  | .b op f3 rs1 rs2 imm => encodeB op.bits f3 rs1 rs2 imm
  | .u op rd imm => encodeU op.bits rd imm
  | .j op rd imm => encodeJ op.bits rd imm

/-- The `Opcode` of a variant's opcode: its format is the variant's tag and its size is `Size32` (10 R20, R23). -/
def variantOpcode {p : Params} {t : Format} (op : VariantOpcode p t) : Opcode p :=
  ⟨op.bits, t, .size32, op.mapped, op.sized⟩

/-- `opcode`, present in every variant (R173). -/
def opcodeOf {p : Params} : Instruction p → Opcode p
  | .r op .. => variantOpcode op
  | .i op .. => variantOpcode op
  | .s op .. => variantOpcode op
  | .b op .. => variantOpcode op
  | .u op .. => variantOpcode op
  | .j op .. => variantOpcode op

/-- Accessor `rd` (R173). -/
def rdOf {p : Params} : Instruction p → Option Register
  | .r _ rd .. => some rd
  | .i _ rd .. => some rd
  | .s .. => none
  | .b .. => none
  | .u _ rd _ => some rd
  | .j _ rd _ => some rd

/-- Accessor `funct3` (R173). -/
def funct3Of {p : Params} : Instruction p → Option Funct3
  | .r _ _ f3 .. => some f3
  | .i _ _ f3 .. => some f3
  | .s _ f3 .. => some f3
  | .b _ f3 .. => some f3
  | .u .. => none
  | .j .. => none

/-- Accessor `rs1` (R173). -/
def rs1Of {p : Params} : Instruction p → Option Register
  | .r _ _ _ rs1 .. => some rs1
  | .i _ _ _ rs1 _ => some rs1
  | .s _ _ rs1 .. => some rs1
  | .b _ _ rs1 .. => some rs1
  | .u .. => none
  | .j .. => none

/-- Accessor `rs2` (R173). -/
def rs2Of {p : Params} : Instruction p → Option Register
  | .r _ _ _ _ rs2 _ => some rs2
  | .i .. => none
  | .s _ _ _ rs2 _ => some rs2
  | .b _ _ _ rs2 _ => some rs2
  | .u .. => none
  | .j .. => none

/-- Accessor `funct7` (R173). -/
def funct7Of {p : Params} : Instruction p → Option Funct7
  | .r _ _ _ _ _ f7 => some f7
  | .i .. => none
  | .s .. => none
  | .b .. => none
  | .u .. => none
  | .j .. => none

/-- Accessor `immediate` (R173, R174). -/
def immediateOf {p : Params} : Instruction p → Option VariantImmediate
  | .r .. => none
  | .i _ _ _ _ imm => some (.imm0to11 imm)
  | .s _ _ _ _ imm => some (.imm0to11 imm)
  | .b _ _ _ _ imm => some (.imm1to12 imm)
  | .u _ _ imm => some (.imm12to31 imm)
  | .j _ _ imm => some (.imm1to20 imm)

/-- The numeric value of an immediate, by `ImmToSigned` (R174). -/
def variantImmSigned : VariantImmediate → Int
  | .imm0to11 imm => immToSigned imm
  | .imm1to12 imm => immToSigned imm
  | .imm12to31 imm => immToSigned imm
  | .imm1to20 imm => immToSigned imm

/-- The raw bits of an immediate on the 20-bit port of the bundle (R23: "the low 12 used by I, S and B"). The spec gives
no value of the port's bits 19 to 12 for I, S and B; the model zero-extends (DESIGN CHOICE, log 24). -/
def variantImmRaw : VariantImmediate → BitVec 20
  | .imm0to11 imm => imm.raw.setWidth 20
  | .imm1to12 imm => imm.raw.setWidth 20
  | .imm12to31 imm => imm.raw
  | .imm1to20 imm => imm.raw

/-- The signed value the `immediate` accessor yields, where the variant has one (R174). -/
def immediateSigned {p : Params} (x : Instruction p) : Option Int := (immediateOf x).map variantImmSigned

/-- A required input of the builder (R177): fails naming the field when it is not supplied. -/
def need {α : Type} (field : BuilderField) (v : Option α) : Except DecodeError α :=
  match v with
  | some a => .ok a
  | none => .error (.builderMissingField field)

/-- `Build` (R177): the opcode, then the required fields of its format in the order funct3, funct7, rs1, rs2, rd, imm
(the order is 92 D13; log 21), then the variant's constructor. Inputs that the format does not use are ignored (R178). -/
def build {p : Params} (b : BuildInput p) : Except DecodeError (Instruction p) := do
  let op ← need .opcode b.opcode
  match op.format with
  | .R =>
    let f3 ← need .funct3 b.funct3
    let f7 ← need .funct7 b.funct7
    let rs1 ← need .rs1 b.rs1
    let rs2 ← need .rs2 b.rs2
    let rd ← need .rd b.rd
    makeR op rd f3 rs1 rs2 f7
  | .I =>
    let f3 ← need .funct3 b.funct3
    let rs1 ← need .rs1 b.rs1
    let rd ← need .rd b.rd
    let v ← need .imm b.imm
    makeI op rd f3 rs1 v
  | .S =>
    let f3 ← need .funct3 b.funct3
    let rs1 ← need .rs1 b.rs1
    let rs2 ← need .rs2 b.rs2
    let v ← need .imm b.imm
    makeS op f3 rs1 rs2 v
  | .B =>
    let f3 ← need .funct3 b.funct3
    let rs1 ← need .rs1 b.rs1
    let rs2 ← need .rs2 b.rs2
    let v ← need .imm b.imm
    makeB op f3 rs1 rs2 v
  | .U =>
    let rd ← need .rd b.rd
    let v ← need .imm b.imm
    makeU op rd v
  | .J =>
    let rd ← need .rd b.rd
    let v ← need .imm b.imm
    makeJ op rd v

/-- The table of R176: the fields a format requires besides the opcode. -/
def requiredFields : Format → List BuilderField
  | .R => [.funct3, .funct7, .rs1, .rs2, .rd]
  | .I => [.funct3, .rs1, .rd, .imm]
  | .S => [.funct3, .rs1, .rs2, .imm]
  | .B => [.funct3, .rs1, .rs2, .imm]
  | .U => [.rd, .imm]
  | .J => [.rd, .imm]

/-- Whether an input is supplied (its present bit, R175). -/
def fieldPresent {p : Params} (b : BuildInput p) : BuilderField → Bool
  | .opcode => b.opcode.isSome
  | .funct3 => b.funct3.isSome
  | .funct7 => b.funct7.isSome
  | .rs1 => b.rs1.isSome
  | .rs2 => b.rs2.isSome
  | .rd => b.rd.isSome
  | .imm => b.imm.isSome

/-- The builder that reads an Instruction's own fields back: what its accessors give (R173, R174, R175). -/
def buildInputOf {p : Params} (x : Instruction p) : BuildInput p where
  opcode := some (opcodeOf x)
  funct3 := funct3Of x
  funct7 := funct7Of x
  rs1 := rs1Of x
  rs2 := rs2Of x
  rd := rdOf x
  imm := immediateSigned x

end Sys2Proof.Machine
end

