-- ==== Sys2Proof/Machine/Rows.lean ====
section
/-! DEFINITION. The rows of spec/opcode_table.json and the Instructions they stand for (spec/41_opcode_classifier.md
R124 to R134, 45_lookup_interface.md R213 to R219). -/

namespace Sys2Proof.Machine

/-- Key `11000`, format B (R124). -/
def b63Instruction (p : Params) (lo : BitVec 2) (f3 : Funct3) (rs1 rs2 : Register) (imm : Imm1to12) :
    Except DecodeError (Instruction p) :=
  (opcodeFront p (0b11000#5 ++ lo) .B).map fun op => .b op f3 rs1 rs2 imm

/-- Key `00100`, format I (R125). -/
def i13Instruction (p : Params) (lo : BitVec 2) (rd : Register) (f3 : Funct3) (rs1 : Register) (imm : Imm0to11) :
    Except DecodeError (Instruction p) :=
  (opcodeFront p (0b00100#5 ++ lo) .I).map fun op => .i op rd f3 rs1 imm

/-- Key `00000`, format I (R126). -/
def i03Instruction (p : Params) (lo : BitVec 2) (rd : Register) (f3 : Funct3) (rs1 : Register) (imm : Imm0to11) :
    Except DecodeError (Instruction p) :=
  (opcodeFront p (0b00000#5 ++ lo) .I).map fun op => .i op rd f3 rs1 imm

/-- Key `11001`, format I (R127). -/
def i67Instruction (p : Params) (lo : BitVec 2) (rd : Register) (f3 : Funct3) (rs1 : Register) (imm : Imm0to11) :
    Except DecodeError (Instruction p) :=
  (opcodeFront p (0b11001#5 ++ lo) .I).map fun op => .i op rd f3 rs1 imm

/-- Key `11100`, format I (R128). -/
def i73Instruction (p : Params) (lo : BitVec 2) (rd : Register) (f3 : Funct3) (rs1 : Register) (imm : Imm0to11) :
    Except DecodeError (Instruction p) :=
  (opcodeFront p (0b11100#5 ++ lo) .I).map fun op => .i op rd f3 rs1 imm

/-- Key `11011`, format J (R129). -/
def j6FInstruction (p : Params) (lo : BitVec 2) (rd : Register) (imm : Imm1to20) :
    Except DecodeError (Instruction p) :=
  (opcodeFront p (0b11011#5 ++ lo) .J).map fun op => .j op rd imm

/-- Key `01100`, format R (R130). -/
def r33Instruction (p : Params) (lo : BitVec 2) (rd : Register) (f3 : Funct3) (rs1 rs2 : Register) (f7 : Funct7) :
    Except DecodeError (Instruction p) :=
  (opcodeFront p (0b01100#5 ++ lo) .R).map fun op => .r op rd f3 rs1 rs2 f7

/-- Key `01011`, format R (R131). -/
def r2FInstruction (p : Params) (lo : BitVec 2) (rd : Register) (f3 : Funct3) (rs1 rs2 : Register) (f7 : Funct7) :
    Except DecodeError (Instruction p) :=
  (opcodeFront p (0b01011#5 ++ lo) .R).map fun op => .r op rd f3 rs1 rs2 f7

/-- Key `01110`, format R (R132). -/
def r3BInstruction (p : Params) (lo : BitVec 2) (rd : Register) (f3 : Funct3) (rs1 rs2 : Register) (f7 : Funct7) :
    Except DecodeError (Instruction p) :=
  (opcodeFront p (0b01110#5 ++ lo) .R).map fun op => .r op rd f3 rs1 rs2 f7

/-- Key `01000`, format S (R133). -/
def s23Instruction (p : Params) (lo : BitVec 2) (f3 : Funct3) (rs1 rs2 : Register) (imm : Imm0to11) :
    Except DecodeError (Instruction p) :=
  (opcodeFront p (0b01000#5 ++ lo) .S).map fun op => .s op f3 rs1 rs2 imm

/-- Key `01101`, format U (R134). -/
def u37Instruction (p : Params) (lo : BitVec 2) (rd : Register) (imm : Imm12to31) :
    Except DecodeError (Instruction p) :=
  (opcodeFront p (0b01101#5 ++ lo) .U).map fun op => .u op rd imm

/-- A system word "decodes as I" with opcode 0x73, rd 0, funct3 0, rs1 0 and the raw immediate given (R214 to R219). -/
def systemInstruction (p : Params) (raw : BitVec 12) : Except DecodeError (Instruction p) :=
  (opcodeFront p 0x73#7 .I).map fun op => .i op 0#5 0#3 0#5 ⟨raw⟩

/-- `ecall`, word 0x00000073 (R214). -/
def ecallInstruction (p : Params) : Except DecodeError (Instruction p) := systemInstruction p 0x000#12

/-- `ebreak`, word 0x00100073 (R215). -/
def ebreakInstruction (p : Params) : Except DecodeError (Instruction p) := systemInstruction p 0x001#12

/-- `wfi`, word 0x10500073 (R216). -/
def wfiInstruction (p : Params) : Except DecodeError (Instruction p) := systemInstruction p 0x105#12

/-- `mret`, word 0x30200073 (R217). -/
def mretInstruction (p : Params) : Except DecodeError (Instruction p) := systemInstruction p 0x302#12

/-- `sret`, word 0x10200073 (R218). -/
def sretInstruction (p : Params) : Except DecodeError (Instruction p) := systemInstruction p 0x102#12

/-- `dret`, word 0x7B200073 (R219). -/
def dretInstruction (p : Params) : Except DecodeError (Instruction p) := systemInstruction p 0x7B2#12

/-- The Instruction a row's term stands for, in a block with parameters `p`: the fields with the opcode that the
classifier and the variant's tests give. Where `SIZE_OF` does not give the opcode `Size32`, the term stands for no
Instruction of this block, and the answer is the error its word has (30 R62; log 26). -/
def instructionOf (p : Params) : Instr → Except DecodeError (Instruction p)
  | .b63 lo f3 rs1 rs2 imm => b63Instruction p lo f3 rs1 rs2 imm
  | .i13 lo rd f3 rs1 imm => i13Instruction p lo rd f3 rs1 imm
  | .i03 lo rd f3 rs1 imm => i03Instruction p lo rd f3 rs1 imm
  | .i67 lo rd f3 rs1 imm => i67Instruction p lo rd f3 rs1 imm
  | .i73 lo rd f3 rs1 imm => i73Instruction p lo rd f3 rs1 imm
  | .j6F lo rd imm => j6FInstruction p lo rd imm
  | .r33 lo rd f3 rs1 rs2 f7 => r33Instruction p lo rd f3 rs1 rs2 f7
  | .r2F lo rd f3 rs1 rs2 f7 => r2FInstruction p lo rd f3 rs1 rs2 f7
  | .r3B lo rd f3 rs1 rs2 f7 => r3BInstruction p lo rd f3 rs1 rs2 f7
  | .s23 lo f3 rs1 rs2 imm => s23Instruction p lo f3 rs1 rs2 imm
  | .u37 lo rd imm => u37Instruction p lo rd imm
  | .ecall => ecallInstruction p
  | .ebreak => ebreakInstruction p
  | .wfi => wfiInstruction p
  | .mret => mretInstruction p
  | .sret => sretInstruction p
  | .dret => dretInstruction p

/-- The opcode bits of a row's term: the row's key and its low two bits (41 R124 to R134; 45 R214 to R219). -/
def rowBits : Instr → OpcodeBits
  | .b63 lo .. => 0b11000#5 ++ lo
  | .i13 lo .. => 0b00100#5 ++ lo
  | .i03 lo .. => 0b00000#5 ++ lo
  | .i67 lo .. => 0b11001#5 ++ lo
  | .i73 lo .. => 0b11100#5 ++ lo
  | .j6F lo .. => 0b11011#5 ++ lo
  | .r33 lo .. => 0b01100#5 ++ lo
  | .r2F lo .. => 0b01011#5 ++ lo
  | .r3B lo .. => 0b01110#5 ++ lo
  | .s23 lo .. => 0b01000#5 ++ lo
  | .u37 lo .. => 0b01101#5 ++ lo
  | .ecall => 0x73#7
  | .ebreak => 0x73#7
  | .wfi => 0x73#7
  | .mret => 0x73#7
  | .sret => 0x73#7
  | .dret => 0x73#7

/-- The word of a row's term: its pieces at their places (42 R141 to R151), whatever `SIZE_OF` is; the six system words
are those of 45 R214 to R219. -/
def rowWord : Instr → Word
  | .b63 lo f3 rs1 rs2 imm => encodeB (0b11000#5 ++ lo) f3 rs1 rs2 imm
  | .i13 lo rd f3 rs1 imm => encodeI (0b00100#5 ++ lo) rd f3 rs1 imm
  | .i03 lo rd f3 rs1 imm => encodeI (0b00000#5 ++ lo) rd f3 rs1 imm
  | .i67 lo rd f3 rs1 imm => encodeI (0b11001#5 ++ lo) rd f3 rs1 imm
  | .i73 lo rd f3 rs1 imm => encodeI (0b11100#5 ++ lo) rd f3 rs1 imm
  | .j6F lo rd imm => encodeJ (0b11011#5 ++ lo) rd imm
  | .r33 lo rd f3 rs1 rs2 f7 => encodeR (0b01100#5 ++ lo) rd f3 rs1 rs2 f7
  | .r2F lo rd f3 rs1 rs2 f7 => encodeR (0b01011#5 ++ lo) rd f3 rs1 rs2 f7
  | .r3B lo rd f3 rs1 rs2 f7 => encodeR (0b01110#5 ++ lo) rd f3 rs1 rs2 f7
  | .s23 lo f3 rs1 rs2 imm => encodeS (0b01000#5 ++ lo) f3 rs1 rs2 imm
  | .u37 lo rd imm => encodeU (0b01101#5 ++ lo) rd imm
  | .ecall => encodeI 0x73#7 0#5 0#3 0#5 ⟨0x000#12⟩
  | .ebreak => encodeI 0x73#7 0#5 0#3 0#5 ⟨0x001#12⟩
  | .wfi => encodeI 0x73#7 0#5 0#3 0#5 ⟨0x105#12⟩
  | .mret => encodeI 0x73#7 0#5 0#3 0#5 ⟨0x302#12⟩
  | .sret => encodeI 0x73#7 0#5 0#3 0#5 ⟨0x102#12⟩
  | .dret => encodeI 0x73#7 0#5 0#3 0#5 ⟨0x7B2#12⟩

/-- The system row of a whole word, matched on all 32 bits (R213). -/
def systemRow (word : Word) : Option Instr :=
  if word = 0x00000073#32 then some .ecall
  else if word = 0x00100073#32 then some .ebreak
  else if word = 0x10500073#32 then some .wfi
  else if word = 0x30200073#32 then some .mret
  else if word = 0x10200073#32 then some .sret
  else if word = 0x7B200073#32 then some .dret
  else none

/-- The row of a decoded Instruction whose opcode has low bits `lo`, by its key; a system word takes its own row
(log 14). `none` is never the answer: the type of an Instruction's opcode says that its key has the variant's format. -/
def rowOf {p : Params} (x : Instruction p) : Option Instr :=
  let key := keyOf (opcodeOf x).bits
  let lo := (opcodeOf x).bits.extractLsb' 0 2
  match x with
  | .r _ rd f3 rs1 rs2 f7 =>
    if key = 0b01100#5 then some (.r33 lo rd f3 rs1 rs2 f7)
    else if key = 0b01011#5 then some (.r2F lo rd f3 rs1 rs2 f7)
    else if key = 0b01110#5 then some (.r3B lo rd f3 rs1 rs2 f7)
    else none
  | .i _ rd f3 rs1 imm =>
    if key = 0b00100#5 then some (.i13 lo rd f3 rs1 imm)
    else if key = 0b00000#5 then some (.i03 lo rd f3 rs1 imm)
    else if key = 0b11001#5 then some (.i67 lo rd f3 rs1 imm)
    else if key = 0b11100#5 then
      match systemRow (encodeInstruction x) with
      | some row => some row
      | none => some (.i73 lo rd f3 rs1 imm)
    else none
  | .s _ f3 rs1 rs2 imm => if key = 0b01000#5 then some (.s23 lo f3 rs1 rs2 imm) else none
  | .b _ f3 rs1 rs2 imm => if key = 0b11000#5 then some (.b63 lo f3 rs1 rs2 imm) else none
  | .u _ rd imm => if key = 0b01101#5 then some (.u37 lo rd imm) else none
  | .j _ rd imm => if key = 0b11011#5 then some (.j6F lo rd imm) else none

end Sys2Proof.Machine
end

