-- ==== Sys2Proof/WellFormed.lean ====
section
/-! DEFINITION. Which terms of `Instr` are instructions of the block. The field widths are in the types; two checks
remain: the opcode's size class (spec/10_state.md R23, 30_encoding.md R60, R62) and the overlap of row I.0x73 with the
six system rows (45_lookup_interface.md R213). -/

namespace Sys2Proof

/-- `SIZE_OF` of the opcode is `Size32` (R23, R62). -/
def sizeOk (p : Params) (i : Instr) : Bool :=
  Machine.sizeTableOf p (Machine.rowBits i) == some .size32

/-- A term of row I.0x73 is not one of the six system words, which have rows of their own (R213; log 14). -/
def notSystemWord : Instr → Bool
  | .b63 .. => true
  | .i13 .. => true
  | .i03 .. => true
  | .i67 .. => true
  | .i73 lo rd f3 rs1 imm =>
    (Machine.systemRow (Machine.rowWord (.i73 lo rd f3 rs1 imm))).isNone
  | .j6F .. => true
  | .r33 .. => true
  | .r2F .. => true
  | .r3B .. => true
  | .s23 .. => true
  | .u37 .. => true
  | .ecall => true
  | .ebreak => true
  | .wfi => true
  | .mret => true
  | .sret => true
  | .dret => true

/-- The well-formed instructions of a block with parameters `p`. -/
def wellFormed (p : Params) (i : Instr) : Bool := sizeOk p i && notSystemWord i

end Sys2Proof
end

