-- ==== Sys2Proof/Decode.lean ====
section
/-! DEFINITION. Words and bytes to rows of the opcode table, and back (spec/20_memory.md R32; 43_union_builder.md R170,
R171). -/

namespace Sys2Proof

open Machine

/-- The opcode of the first byte of a word, its low 7 bits (44_stream_unit.md R194). -/
def byteOpcode (b0 : Byte) : OpcodeBits := b0.extractLsb' 0 7

/-- The little-endian word of four bytes, the first the lowest (R32). -/
def assembleWord (b0 b1 b2 b3 : Byte) : Word :=
  (b3.setWidth 32 <<< 24) ||| (b2.setWidth 32 <<< 16) ||| (b1.setWidth 32 <<< 8) ||| b0.setWidth 32

/-- The four bytes of a word as the byte source holds them (R32). -/
def wordBytes (w : Word) : List Byte :=
  [w.extractLsb' 0 8, w.extractLsb' 8 8, w.extractLsb' 16 8, w.extractLsb' 24 8]

/-- `Decode` (R170) with its Instruction read as a row of the opcode table. The last case never arises
(`Laws.rowOf_isSome`). -/
def decodeWord (p : Params) (w : Word) : Except DecodeError Instr :=
  match decode p w with
  | .error e => .error e
  | .ok x =>
    match rowOf x with
    | some i => .ok i
    | none => .error .unrecognizedInstructionFormat

/-- The decoder on any bytes: the row of the first four, or the named error; fewer than four are a truncated word
(R195). -/
def decodeBytes (p : Params) : List Byte → Except DecodeError Instr
  | b0 :: b1 :: b2 :: b3 :: _ => decodeWord p (assembleWord b0 b1 b2 b3)
  | _ => .error .unexpectedEof

/-- The word of an instruction (R171). -/
def encode (i : Instr) : Word := rowWord i

/-- The bytes of an instruction in the byte source (R32, R171). -/
def encodeBytes (i : Instr) : List Byte := wordBytes (encode i)

/-- The word whose low `nbits` bits are `w`, the bits above them zero. -/
def tableWord (nbits w : Nat) : Word := BitVec.ofNat 32 (w % 2 ^ nbits)

/-- The instruction the decoder, with the default parameters, reads from an instruction whose bits are `w`, numbered as
spec/opcode_table.json numbers them, laid out little-endian. -/
def decodeTableWord (nbits w : Nat) : Option Instr :=
  match decodeBytes defaultParams (wordBytes (tableWord nbits w)) with
  | .ok i => some i
  | .error _ => none

end Sys2Proof
end

