-- ==== Sys2Proof/Machine/State.lean ====
section
/-! DEFINITION. The state of a stream-unit instance (spec/10_state.md R10, R14, R17, R26), the only state of the block,
with the constant parameters of the model and the output port. -/

namespace Sys2Proof.Machine

/-- The state register `st` (R14, R192). -/
inductive StreamState where
  | ready | ended | failed
  deriving DecidableEq, Repr

/-- No step of this block stops the machine with a fault: an error is yielded as an item and the instance goes on,
answering End for ever (44 R198, 60 R240). So no constructor (log 17, safe: nothing is hidden in a stop). -/
inductive Fault where
  deriving DecidableEq, Repr

/-- Why a step has no meaning. -/
inductive Refusal where
  /-- Raised by an arm of `exec` whose instruction has no meaning yet; no arm does. Safe. -/
  | notModelled (mnemonic : String)
  deriving DecidableEq, Repr

/-- What the byte source delivers behind a list of bytes, as plain data: nothing, or bytes for ever (20 R31; 92 D10: "An
infinite source is allowed and never ends"; log 23). -/
inductive SourceTail where
  /-- A finite source: EOS, for ever. -/
  | ends
  /-- A source that repeats a block of one or more bytes for ever. -/
  | repeats (first : Byte) (others : List Byte)
  /-- Byte `pos` and the later ones of the endless source number `id`, whose bytes are free values. -/
  | free (id pos : Nat)
  deriving DecidableEq, Repr

/-- What is not yet consumed of the byte source `SRC`: the next bytes, and what follows them (10 R17, 20 R31). -/
structure Source where
  bytes : List Byte
  tail : SourceTail
  deriving DecidableEq, Repr

/-- One stream-unit instance. -/
structure State where
  /-- `SIZE_OF` and `ADDR_W`, fixed for the instance (00 R5; log 2). -/
  params : Params
  /-- `CFG_START_ADDR`, sampled at reset and constant afterwards (R14). -/
  cfgStartAddr : Nat
  /-- The state register (R14). -/
  st : StreamState
  /-- The address counter: the tag of the next record, a number below `2 ^ ADDR_W` (R12, R14). -/
  addr : Nat
  /-- The part of `SRC` not yet consumed (R17). -/
  source : Source
  /-- The position in `SRC`: how many bytes are consumed (R17, 20 R31). -/
  pos : Nat
  /-- The output of the last step, `none` before the first one (44 R191; the model's own field, log 8). -/
  out : Option StreamOutput
  deriving DecidableEq, Repr

/-- Reset is the construction of an instance over a byte source with a start address (R26, 70 R260). The start address
is an `ADDR_W`-bit number (R14). -/
def State.construct (p : Params) (startAddr : Nat) (src : Source) : State where
  params := p
  cfgStartAddr := startAddr % 2 ^ p.addrWidth
  st := .ready
  addr := startAddr % 2 ^ p.addrWidth
  source := src
  pos := 0
  out := none

/-- The machine right after reset with every argument at its default: `CFG_START_ADDR` = 0 (R26), the default parameters
(R5, R61) and no byte of a source, since `SRC` is supplied from outside (R262; log 7). -/
def State.reset : State := State.construct defaultParams 0 ⟨[], .ends⟩

end Sys2Proof.Machine
end

