-- ==== Sys2Proof/Machine/Ops.lean ====
section
/-! DEFINITION. The shared operations of a step of the stream unit (spec/44_stream_unit.md R192; 20_memory.md R31, R34). -/

namespace Sys2Proof.Machine

/-- The 2-bit code of `st` (10 R14; the numbers are 92 D2, log 19): 3 is never produced. No step reads the code. -/
def stateCode : StreamState → BitVec 2
  | .ready => 0
  | .ended => 1
  | .failed => 2

/-- `ADDR_STEP` = 32, "the instruction's bit-width (32)" (00 R5, 10 R12, 44 R197; the literal is 92 D7, log 4). -/
def addrStep : Nat := 32

/-- `addr + ADDR_STEP` modulo `2 ^ ADDR_W` (R12; the wrap is 92 D8, log 3). -/
def nextAddr (p : Params) (addr : Nat) : Nat := (addr + addrStep) % 2 ^ p.addrWidth

/-- The next byte of a source, if there is one, and the source after it. At the end nothing changes, so EOS is sticky
(20 R31, 92 D10); an endless tail always has a next byte (log 23). -/
def Source.next (src : Source) : Option Byte × Source :=
  match src.bytes, src.tail with
  | b :: more, tail => (some b, ⟨more, tail⟩)
  | [], .ends => (none, src)
  | [], .repeats first others => (some first, ⟨others, .repeats first others⟩)
  | [], .free id pos => (some (Config.sourceByte id pos), ⟨[], .free id (pos + 1)⟩)

/-- The source after `n` bytes, or after the end if it has fewer. -/
def Source.drop : Nat → Source → Source
  | 0, src => src
  | n + 1, src => Source.drop n src.next.2

/-- Unread byte number `k` of a source, the next one being number 0; `none` behind the end. -/
def Source.peek : Nat → Source → Option Byte
  | 0, src => src.next.1
  | k + 1, src => Source.peek k src.next.2

/-- `SrcNext()` (00 R7, 20 R31): the next byte, consumed, or `none` for EOS, which changes nothing and is sticky. -/
def srcNext (s : State) : Option Byte × State :=
  match s.source.next with
  | (none, src) => (none, { s with source := src })
  | (some b, src) => (some b, { s with source := src, pos := s.pos + 1 })

/-- What steps (1) to (3) of `StreamStep` find (R192). -/
inductive Fetched where
  /-- EOS on the first byte of a word. -/
  | endOfStream
  /-- A size error or a truncated word. -/
  | failed (e : DecodeError)
  /-- Four bytes, assembled. -/
  | word (w : Word)
  deriving DecidableEq, Repr

/-- Step (3) of R192 and the assembly of step (4): three more bytes, `UnexpectedEof` at the first EOS (R195). -/
def fetchRemaining (b0 : Byte) (s : State) : Fetched × State :=
  match srcNext s with
  | (none, s1) => (.failed .unexpectedEof, s1)
  | (some b1, s1) =>
    match srcNext s1 with
    | (none, s2) => (.failed .unexpectedEof, s2)
    | (some b2, s2) =>
      match srcNext s2 with
      | (none, s3) => (.failed .unexpectedEof, s3)
      | (some b3, s3) => (.word (assembleWord b0 b1 b2 b3), s3)

/-- Steps (1) to (3) of R192: the first byte, its size class (R194), the remaining three bytes. -/
def fetch (s : State) : Fetched × State :=
  match srcNext s with
  | (none, s1) => (.endOfStream, s1)
  | (some b0, s1) =>
    match sizeTableOf s.params (byteOpcode b0) with
    | none => (.failed .unrecognizedInstructionSize, s1)
    | some sz => if sz = .size32 then fetchRemaining b0 s1 else (.failed (.unsupportedInstructionSize sz), s1)

/-- A poll in a terminal state: the output is End, nothing is read and no register changes (R198; 92 D15, log 20). -/
def pollTerminal (s : State) : State := { s with out := some .done }

/-- Clean end of stream (R193): `st <- Ended`, output End, `addr` unchanged. -/
def endStream (s : State) : State := { s with st := .ended, out := some .done }

/-- An error of the stream unit, the block's only exception entry (60 R240): `st <- Failed`, the error as one item,
`addr` unchanged (R195, R196; 92 D7, log 5). There is no return from it (60 R248). -/
def failStream (e : DecodeError) (s : State) : State := { s with st := .failed, out := some (.error e) }

/-- Step (5) of R192: tag the Instruction with the counter's value, advance the counter, yield the record; `st` stays
as it is (R197). -/
def yieldRecord {p : Params} (x : Instruction p) (s : State) : State :=
  { s with addr := nextAddr s.params s.addr, out := some (.item ⟨x, s.addr⟩) }

/-- Steps (4) and (5) of R192 for a row's term: the record of the Instruction it stands for. A term that stands for none
in this block fails as a word that does not decode (R196); no step of the unit meets one (log 26). -/
def deliver {p : Params} (r : Except DecodeError (Instruction p)) (s : State) : State :=
  match r with
  | .ok x => yieldRecord x s
  | .error e => failStream e s

end Sys2Proof.Machine
end

