-- ==== Sys2Proof/Machine/FormatB.lean ====
section
/-! DEFINITION. The meaning of the B-format row (spec/41_opcode_classifier.md R124; 44_stream_unit.md R192, R197). -/

namespace Sys2Proof.Machine

/-- Row B.0x63 (R124): the record of a B variant with funct3, rs1, rs2 and the immediate; the unit is not redirected (R197). -/
def execB63 (lo : BitVec 2) (f3 : Funct3) (rs1 rs2 : Register) (imm : Imm1to12) (s : State) :
    Host.Outcome State Fault Refusal :=
  .next (deliver (b63Instruction s.params lo f3 rs1 rs2 imm) s)

end Sys2Proof.Machine
end

