-- ==== Sys2Proof/Machine/FormatI.lean ====
section
/-! DEFINITION. The meanings of the I-format opcode classes (spec/41_opcode_classifier.md R125 to R128; 44_stream_unit.md R192, R197). -/

namespace Sys2Proof.Machine

/-- Row I.0x13 (R125): the record of an I variant with rd, funct3, rs1 and the whole 12-bit immediate. -/
def execI13 (lo : BitVec 2) (rd : Register) (f3 : Funct3) (rs1 : Register) (imm : Imm0to11) (s : State) :
    Host.Outcome State Fault Refusal :=
  .next (deliver (i13Instruction s.params lo rd f3 rs1 imm) s)

/-- Row I.0x03 (R126): as I.0x13; no memory access is made. -/
def execI03 (lo : BitVec 2) (rd : Register) (f3 : Funct3) (rs1 : Register) (imm : Imm0to11) (s : State) :
    Host.Outcome State Fault Refusal :=
  .next (deliver (i03Instruction s.params lo rd f3 rs1 imm) s)

/-- Row I.0x67 (R127): as I.0x13; no jump target is computed and the unit is not redirected. -/
def execI67 (lo : BitVec 2) (rd : Register) (f3 : Funct3) (rs1 : Register) (imm : Imm0to11) (s : State) :
    Host.Outcome State Fault Refusal :=
  .next (deliver (i67Instruction s.params lo rd f3 rs1 imm) s)

/-- Row I.0x73 (R128): as I.0x13, for the words that are none of the six system words. -/
def execI73 (lo : BitVec 2) (rd : Register) (f3 : Funct3) (rs1 : Register) (imm : Imm0to11) (s : State) :
    Host.Outcome State Fault Refusal :=
  .next (deliver (i73Instruction s.params lo rd f3 rs1 imm) s)

end Sys2Proof.Machine
end

