-- ==== Sys2Proof/Machine/FormatJ.lean ====
section
/-! DEFINITION. The meaning of the J-format row (spec/41_opcode_classifier.md R129; 44_stream_unit.md R192, R197). -/

namespace Sys2Proof.Machine

/-- Row J.0x6F (R129): the record of a J variant with rd and the immediate; the unit is not redirected (R197). -/
def execJ6F (lo : BitVec 2) (rd : Register) (imm : Imm1to20) (s : State) :
    Host.Outcome State Fault Refusal :=
  .next (deliver (j6FInstruction s.params lo rd imm) s)

end Sys2Proof.Machine
end

