-- ==== Sys2Proof/Machine/FormatR.lean ====
section
/-! DEFINITION. The meanings of the R-format rows (spec/41_opcode_classifier.md R130 to R132; 44_stream_unit.md R192, R197). -/

namespace Sys2Proof.Machine

/-- Row R.0x33 (R130): the record of an R variant with rd, funct3, rs1, rs2 and funct7. -/
def execR33 (lo : BitVec 2) (rd : Register) (f3 : Funct3) (rs1 rs2 : Register) (f7 : Funct7) (s : State) :
    Host.Outcome State Fault Refusal :=
  .next (deliver (r33Instruction s.params lo rd f3 rs1 rs2 f7) s)

/-- Row R.0x2F (R131): as R.0x33; funct7 is delivered whole and no memory is touched (20 R39). -/
def execR2F (lo : BitVec 2) (rd : Register) (f3 : Funct3) (rs1 rs2 : Register) (f7 : Funct7) (s : State) :
    Host.Outcome State Fault Refusal :=
  .next (deliver (r2FInstruction s.params lo rd f3 rs1 rs2 f7) s)

/-- Row R.0x3B (R132): as R.0x33. -/
def execR3B (lo : BitVec 2) (rd : Register) (f3 : Funct3) (rs1 rs2 : Register) (f7 : Funct7) (s : State) :
    Host.Outcome State Fault Refusal :=
  .next (deliver (r3BInstruction s.params lo rd f3 rs1 rs2 f7) s)

end Sys2Proof.Machine
end

