-- ==== Sys2Proof/Machine/FormatS.lean ====
section
/-! DEFINITION. The meaning of the S-format row (spec/41_opcode_classifier.md R133; 44_stream_unit.md R192, R197). -/

namespace Sys2Proof.Machine

/-- Row S.0x23 (R133): the record of an S variant with funct3, rs1, rs2 and the immediate; no memory access is made. -/
def execS23 (lo : BitVec 2) (f3 : Funct3) (rs1 rs2 : Register) (imm : Imm0to11) (s : State) :
    Host.Outcome State Fault Refusal :=
  .next (deliver (s23Instruction s.params lo f3 rs1 rs2 imm) s)

end Sys2Proof.Machine
end

