-- ==== Sys2Proof/Machine/FormatU.lean ====
section
/-! DEFINITION. The meaning of the U-format row (spec/41_opcode_classifier.md R134; 44_stream_unit.md R192, R197). -/

namespace Sys2Proof.Machine

/-- Row U.0x37 (R134): the record of a U variant with rd and the immediate. -/
def execU37 (lo : BitVec 2) (rd : Register) (imm : Imm12to31) (s : State) :
    Host.Outcome State Fault Refusal :=
  .next (deliver (u37Instruction s.params lo rd imm) s)

end Sys2Proof.Machine
end

