-- ==== Sys2Proof/Machine/System.lean ====
section
/-! DEFINITION. The meanings of the six system words (spec/45_lookup_interface.md R213 to R219): each "decodes like any other
word of this key" (41 R128), and "the block attaches no behaviour to any of them" (R213). -/

namespace Sys2Proof.Machine

/-- `ecall` (R214): the record of its I variant; no exception is raised by the block. -/
def execEcall (s : State) : Host.Outcome State Fault Refusal := .next (deliver (ecallInstruction s.params) s)

/-- `ebreak` (R215): the record of its I variant; no breakpoint is taken. -/
def execEbreak (s : State) : Host.Outcome State Fault Refusal := .next (deliver (ebreakInstruction s.params) s)

/-- `wfi` (R216): the record of its I variant; the block does not wait. -/
def execWfi (s : State) : Host.Outcome State Fault Refusal := .next (deliver (wfiInstruction s.params) s)

/-- `mret` (R217): the record of its I variant; there is no privilege mode to return to. -/
def execMret (s : State) : Host.Outcome State Fault Refusal := .next (deliver (mretInstruction s.params) s)

/-- `sret` (R218): the record of its I variant. -/
def execSret (s : State) : Host.Outcome State Fault Refusal := .next (deliver (sretInstruction s.params) s)

/-- `dret` (R219): the record of its I variant. -/
def execDret (s : State) : Host.Outcome State Fault Refusal := .next (deliver (dretInstruction s.params) s)

end Sys2Proof.Machine
end

