-- ==== Sys2Proof/Machine/Dispatch.lean ====
section
/-! DEFINITION. One arm per row of spec/opcode_table.json. -/

namespace Sys2Proof.Machine

def exec (i : Instr) (s : State) : Host.Outcome State Fault Refusal :=
  match i with
  | .b63 lo f3 rs1 rs2 imm => Sys2Proof.Machine.execB63 lo f3 rs1 rs2 imm s
  | .i13 lo rd f3 rs1 imm => Sys2Proof.Machine.execI13 lo rd f3 rs1 imm s
  | .i03 lo rd f3 rs1 imm => Sys2Proof.Machine.execI03 lo rd f3 rs1 imm s
  | .i67 lo rd f3 rs1 imm => Sys2Proof.Machine.execI67 lo rd f3 rs1 imm s
  | .i73 lo rd f3 rs1 imm => Sys2Proof.Machine.execI73 lo rd f3 rs1 imm s
  | .j6F lo rd imm => Sys2Proof.Machine.execJ6F lo rd imm s
  | .r33 lo rd f3 rs1 rs2 f7 => Sys2Proof.Machine.execR33 lo rd f3 rs1 rs2 f7 s
  | .r2F lo rd f3 rs1 rs2 f7 => Sys2Proof.Machine.execR2F lo rd f3 rs1 rs2 f7 s
  | .r3B lo rd f3 rs1 rs2 f7 => Sys2Proof.Machine.execR3B lo rd f3 rs1 rs2 f7 s
  | .s23 lo f3 rs1 rs2 imm => Sys2Proof.Machine.execS23 lo f3 rs1 rs2 imm s
  | .u37 lo rd imm => Sys2Proof.Machine.execU37 lo rd imm s
  | .ecall => Sys2Proof.Machine.execEcall s
  | .ebreak => Sys2Proof.Machine.execEbreak s
  | .wfi => Sys2Proof.Machine.execWfi s
  | .mret => Sys2Proof.Machine.execMret s
  | .sret => Sys2Proof.Machine.execSret s
  | .dret => Sys2Proof.Machine.execDret s

end Sys2Proof.Machine
end

