-- ==== Sys2Proof/Machine/Step.lean ====
section
/-! DEFINITION. One poll of a stream-unit instance, `StreamStep` (spec/44_stream_unit.md R192). -/

namespace Sys2Proof.Machine

/-- `StreamStep` in state Ready (R192): fetch a word, decode it, and run the row it is. -/
def stepReady (s : State) : Host.Outcome State Fault Refusal :=
  match fetch s with
  | (.endOfStream, t) => .next (endStream t)
  | (.failed e, t) => .next (failStream e t)
  | (.word w, t) =>
    match decodeWord t.params w with
    | .error e => .next (failStream e t)
    | .ok i => exec i t

/-- `StreamStep` (R192): Ended and Failed are absorbing (R198). -/
def step (s : State) : Host.Outcome State Fault Refusal :=
  match s.st with
  | .ready => stepReady s
  | .ended => .next (pollTerminal s)
  | .failed => .next (pollTerminal s)

/-- `s` with the instruction whose bits are `w` as the next word of its byte source, in state Ready (log 7). -/
def State.withFetchWord (s : State) (nbits w : Nat) : State :=
  { s with
    st := .ready
    source := ⟨wordBytes (tableWord nbits w) ++ (s.source.drop 4).bytes, (s.source.drop 4).tail⟩ }

end Sys2Proof.Machine
end

