-- ==== Sys2Proof/Machine/Operands.lean ====
section
/-! DEFINITION. What the block presents to the mnemonic lookup and to the text renderer (spec/45_lookup_interface.md
R211 to R221). `LOOKUP` and `SYS_LOOKUP` are external collaborators, so they are arguments (R210; log 15). No step of
the machine uses this file (R139, R212). The block has no flags (10 R13), so the model has no file of flags. -/

namespace Sys2Proof.Machine

/-- `LookupKey(i)` (R211): R supplies both functs, I, S and B supply funct3 only, U and J neither. -/
def lookupKey {p : Params} : Instruction p → LookupKey
  | .r op _ f3 _ _ f7 => ⟨op.bits, some f3, some f7⟩
  | .i op _ f3 _ _ => ⟨op.bits, some f3, none⟩
  | .s op f3 _ _ _ => ⟨op.bits, some f3, none⟩
  | .b op f3 _ _ _ => ⟨op.bits, some f3, none⟩
  | .u op _ _ => ⟨op.bits, none, none⟩
  | .j op _ _ => ⟨op.bits, none, none⟩

/-- `SYS_LOOKUP(word)` with exactly the six patterns the source lists (R213 to R219). -/
def sysLookup (word : Word) : Option String :=
  if word = 0x00000073#32 then some "ecall"
  else if word = 0x00100073#32 then some "ebreak"
  else if word = 0x10500073#32 then some "wfi"
  else if word = 0x30200073#32 then some "mret"
  else if word = 0x10200073#32 then some "sret"
  else if word = 0x7B200073#32 then some "dret"
  else none

/-- `Mnemonic(i)` (R212): for tag I the system lookup on the whole word first (92 D17; log 15), then the general lookup.
The name is a plain string: of the source's wrapper type around a name nothing more is said (DESIGN CHOICE, log 25). -/
def mnemonic {p : Params} (lookup : LookupKey → Option String) (sys : Word → Option String) (x : Instruction p) :
    Option String :=
  match x with
  | .i .. =>
    match sys (encodeInstruction x) with
    | some n => some n
    | none => lookup (lookupKey x)
  | .r .. => lookup (lookupKey x)
  | .s .. => lookup (lookupKey x)
  | .b .. => lookup (lookupKey x)
  | .u .. => lookup (lookupKey x)
  | .j .. => lookup (lookupKey x)

/-- `Operands(i)` (R220): a system word has no operand (the whole word is matched, 92 D17; log 15). -/
def operands {p : Params} (sys : Word → Option String) (x : Instruction p) : List Operand :=
  match x with
  | .r _ rd _ rs1 rs2 _ => [.reg rd, .reg rs1, .reg rs2]
  | .i _ rd _ rs1 imm =>
    match sys (encodeInstruction x) with
    | some _ => []
    | none => [.reg rd, .reg rs1, .imm (immToSigned imm)]
  | .s _ _ rs1 rs2 imm => [.reg rs2, .imm (immToSigned imm), .reg rs1]
  | .b _ _ rs1 rs2 imm => [.reg rs1, .reg rs2, .imm (immToSigned imm)]
  | .u _ rd imm => [.reg rd, .imm (immToSigned imm)]
  | .j _ rd imm => [.reg rd, .imm (immToSigned imm)]

/-- What the renderer receives of a record (R221). -/
def presentation (lookup : LookupKey → Option String) (sys : Word → Option String) (rec : InstructionRecord) :
    Presentation :=
  ⟨mnemonic lookup sys rec.instruction, operands sys rec.instruction, rec.address⟩

end Sys2Proof.Machine
end

