-- ==== Sys2Proof/Machine/Ports.lean ====
section
/-! DEFINITION. The numeric codes and the instruction bundle of the hardware ports (spec/10_state.md R14, R18, R19, R23;
60_exceptions.md R231). They are the spec's own choice (92 D2; log 19); nothing else in the model reads them. -/

namespace Sys2Proof.Machine

/-- The 3-bit format code (R18). -/
def formatCode : Format → BitVec 3
  | .R => 0
  | .I => 1
  | .S => 2
  | .B => 3
  | .U => 4
  | .J => 5

/-- The format of a 3-bit code: 6 and 7 are accepted by no port (R18). -/
def formatOfCode (c : BitVec 3) : Option Format :=
  if c = 0 then some .R
  else if c = 1 then some .I
  else if c = 2 then some .S
  else if c = 3 then some .B
  else if c = 4 then some .U
  else if c = 5 then some .J
  else none

/-- The 2-bit size code (R19). -/
def sizeCode : Size → BitVec 2
  | .size16 => 0
  | .size32 => 1
  | .size48 => 2
  | .size64 => 3

/-- The code of a builder field in the payload of `BuilderMissingField` (R231). -/
def fieldCode : BuilderField → Nat
  | .opcode => 0
  | .funct3 => 1
  | .funct7 => 2
  | .rs1 => 3
  | .rs2 => 4
  | .rd => 5
  | .imm => 6

/-- The 4-bit `err_code` (R231). -/
def errorCode : DecodeError → BitVec 4
  | .invalidOpcode => 1
  | .unrecognizedInstructionFormat => 2
  | .unrecognizedInstructionSize => 3
  | .unrecognizedExtension => 4
  | .unexpectedFormat _ => 5
  | .invalidRegister => 6
  | .invalidFunctValue _ => 7
  | .immediateOutOfRange _ _ => 8
  | .immediateBitsBeforeStart _ => 9
  | .builderMissingField _ => 10
  | .unexpectedEof => 11
  | .unsupportedInstructionSize _ => 12

/-- The `err_code` port of a fallible operation: 0 means `Ok` (R231). -/
def resultCode {α : Type} : Except DecodeError α → BitVec 4
  | .ok _ => 0
  | .error e => errorCode e

/-- The hardware bundle of an Instruction (R23, R174): a field the variant lacks has valid bit 0 and value 0. -/
def bundleOf {p : Params} (x : Instruction p) : InstructionBundle where
  tag := formatCode (tagOf x)
  opcode := (opcodeOf x).bits
  rd := (rdOf x).getD 0
  rdValid := (rdOf x).isSome
  funct3 := (funct3Of x).getD 0
  funct3Valid := (funct3Of x).isSome
  rs1 := (rs1Of x).getD 0
  rs1Valid := (rs1Of x).isSome
  rs2 := (rs2Of x).getD 0
  rs2Valid := (rs2Of x).isSome
  funct7 := (funct7Of x).getD 0
  funct7Valid := (funct7Of x).isSome
  immRaw := ((immediateOf x).map variantImmRaw).getD 0
  immValid := (immediateOf x).isSome
  immSigned := BitVec.ofInt 32 ((immediateSigned x).getD 0)

end Sys2Proof.Machine
end

