-- ==== Sys2Proof/Machine/Run.lean ====
section
/-! DEFINITION. Runs of an instance: what its consumer sees when it polls it again and again
(spec/44_stream_unit.md R191, R200, R201). -/

namespace Sys2Proof.Machine

/-- The state after `k` polls. -/
def runState : Nat → State → State
  | 0, s => s
  | k + 1, s =>
    match step s with
    | .next t => runState k t
    | .fault _ => s
    | .refused _ => s

/-- The outputs of `k` polls, in order. -/
def runOutputs : Nat → State → List StreamOutput
  | 0, _ => []
  | k + 1, s =>
    match step s with
    | .next t => t.out.toList ++ runOutputs k t
    | .fault _ => []
    | .refused _ => []

/-- A run is over when the state is Ended or Failed (R201). -/
def runOver (s : State) : Bool := s.st != .ready

/-- The result of a finished run: the items before the first End (R201). -/
def itemsBeforeEnd (outs : List StreamOutput) : List StreamOutput := outs.takeWhile (· != .done)

end Sys2Proof.Machine
end

