-- ==== Sys2Proof/Safety.lean ====
section
/-! DEFINITION. What the statements mean by a sound state of an instance, and the tables of the spec they quote
(spec/10_state.md R12, R14, R23; 20_memory.md R31, R32; 30_encoding.md R58; 44_stream_unit.md R192 to R200). -/

namespace Sys2Proof

open Machine

/-- The table `FORMAT_OF` as R58 lists it: 11 keys with their formats. -/
def keyFormats : List (Key × Format) :=
  [(0b11000#5, .B), (0b00100#5, .I), (0b00000#5, .I), (0b11001#5, .I), (0b11100#5, .I), (0b11011#5, .J)] ++
  [(0b01100#5, .R), (0b01011#5, .R), (0b01110#5, .R), (0b01000#5, .S), (0b01101#5, .U)]

/-- The errors a step can yield (R192, R196). -/
def StreamError (e : DecodeError) : Prop :=
  e = .unrecognizedInstructionSize ∨ (∃ sz, sz ≠ .size32 ∧ e = .unsupportedInstructionSize sz) ∨
    e = .unexpectedEof ∨ e = .unrecognizedInstructionFormat

/-- How many records an instance has yielded, read off its position: 4 bytes each, and a failing step consumes 1 to 4
bytes more (R34). -/
def recordsYielded (s : State) : Nat :=
  match s.st with
  | .ready => s.pos / 4
  | .ended => s.pos / 4
  | .failed => (s.pos - 1) / 4

/-- What the output port shows in each state of `st` (R191, R193, R195 to R198). -/
def OutputAgrees (s : State) : Prop :=
  match s.st, s.out with
  | .ready, none => s.pos = 0
  | .ready, some (.item rec) =>
    rec.params = s.params ∧ 4 ≤ s.pos ∧
      rec.address = (s.cfgStartAddr + addrStep * (s.pos / 4 - 1)) % 2 ^ s.params.addrWidth
  | .ready, some (.error _) => False
  | .ready, some .done => False
  | .ended, out => out = some .done
  | .failed, none => False
  | .failed, some (.item _) => False
  | .failed, some (.error e) => StreamError e
  | .failed, some .done => True

/-- The invariant of an instance: the counter is the start address plus 32 per record (R12, R197), the position is at a
word boundary until a failure (R33), and the output fits the state. -/
structure StreamInv (s : State) : Prop where
  params_wf : paramsWf s.params
  start_lt : s.cfgStartAddr < 2 ^ s.params.addrWidth
  addr_eq : s.addr = (s.cfgStartAddr + addrStep * recordsYielded s) % 2 ^ s.params.addrWidth
  word_boundary : s.st ≠ .failed → s.pos % 4 = 0
  failed_consumed : s.st = .failed → 0 < s.pos
  ended_exhausted : s.st = .ended → s.source.peek 0 = none
  output_agrees : OutputAgrees s

/-- The state after a step consumed `n` bytes, before it writes anything else. -/
def consumed (n : Nat) (s : State) : State := { s with source := s.source.drop n, pos := s.pos + n }

/-- The next four unread bytes are those of the word `w`, the lowest first (20 R32). -/
abbrev NextWord (s : State) (w : Word) : Prop :=
  s.source.peek 0 = some (w.extractLsb' 0 8) ∧ s.source.peek 1 = some (w.extractLsb' 8 8) ∧
    s.source.peek 2 = some (w.extractLsb' 16 8) ∧ s.source.peek 3 = some (w.extractLsb' 24 8)

/-- A source that never ends (92 D10). -/
def Endless (src : Source) : Prop := ∀ k, src.peek k ≠ none

/-- The state after a step that yielded the record of `x`: four bytes consumed, the counter moved by 32, the record
tagged with the counter's value before, and all else as it was (44 R192 step 5, R197; logs 3 and 4). -/
def afterRecord {p : Params} (x : Instruction p) (s : State) : State :=
  { s with
    source := s.source.drop 4
    pos := s.pos + 4
    addr := (s.addr + 32) % 2 ^ s.params.addrWidth
    out := some (.item ⟨x, s.addr⟩) }

/-- The answer `r` of a constructor of format `t` names the opcode as the cause, whatever the other operands are: its size
first, then its format (42 R137; the size test and its place are 92 D12, log 11). -/
def OpcodeErrors {p : Params} (op : Opcode p) (t : Format) (r : Except DecodeError (Instruction p)) : Prop :=
  (op.size ≠ .size32 → r = .error (.unsupportedInstructionSize op.size)) ∧
  (op.size = .size32 → op.format ≠ t → r = .error (.unexpectedFormat op.format))

/-- The answer `r` of a constructor of format `t` whose opcode is right names the immediate `n` as the cause: its range
`[lo, hi]`, then its low `start` bits (42 R153 to R157; the range first is 92 D4, log 9). -/
def ImmediateErrors {p : Params} (op : Opcode p) (t : Format) (start : Nat) (lo hi n : Int)
    (r : Except DecodeError (Instruction p)) : Prop :=
  op.size = .size32 → op.format = t →
    ((n < lo ∨ hi < n) → r = .error (.immediateOutOfRange lo hi)) ∧
    (lo ≤ n → n ≤ hi → n % 2 ^ start ≠ 0 → r = .error (.immediateBitsBeforeStart start))

/-- Two builder inputs agree on one field (R178). -/
def fieldAgrees {p : Params} (b c : BuildInput p) : BuilderField → Prop
  | .opcode => b.opcode = c.opcode
  | .funct3 => b.funct3 = c.funct3
  | .funct7 => b.funct7 = c.funct7
  | .rs1 => b.rs1 = c.rs1
  | .rs2 => b.rs2 = c.rs2
  | .rd => b.rd = c.rd
  | .imm => b.imm = c.imm

/-- What a source's last bytes, fewer than a word, make the unit yield (R193 to R195, R200). -/
def leftoverOutput (p : Params) : List Byte → StreamOutput
  | [] => .done
  | b0 :: _ =>
    match sizeTableOf p (byteOpcode b0) with
    | none => .error .unrecognizedInstructionSize
    | some sz => if sz = .size32 then .error .unexpectedEof else .error (.unsupportedInstructionSize sz)

/-- The six system words with their names (R213). -/
def systemWords : List (Word × String) :=
  [(0x00000073#32, "ecall"), (0x00100073#32, "ebreak"), (0x10500073#32, "wfi")] ++
  [(0x30200073#32, "mret"), (0x10200073#32, "sret"), (0x7B200073#32, "dret")]

end Sys2Proof
end

