-- ==== Sys2Proof/Certificates/Slice0/Obligations.lean ====
section
/-! DEFINITION. The statements about the model. Each docstring names the rule of spec/ it formalises; the words
"model's choice" mark a clause that rests on a log entry or on the spec's own decision. -/

open Sys2Proof Sys2Proof.Machine

/-! ## Encoding -/

/-- Words of every row of the opcode table, written out from the layouts of R48 to R53 (the vectors of 95 section 5),
decode to the row they stand for. The size table is the default one (model's choice, log 2). -/
def Obligations.OpcodeTableWordsDecodeToTheirRows : Prop :=
  (decodeWord defaultParams 0x00628533#32 = .ok (.r33 3 10 0 5 6 0) ∧
    decodeWord defaultParams 0x0805252F#32 = .ok (.r2F 3 10 2 10 0 4) ∧
    decodeWord defaultParams 0x00B5053B#32 = .ok (.r3B 3 10 0 10 11 0) ∧
    decodeWord defaultParams 0xFFF00513#32 = .ok (.i13 3 10 0 0 ⟨0xFFF⟩) ∧
    decodeWord defaultParams 0x00062503#32 = .ok (.i03 3 10 2 12 ⟨0x000⟩) ∧
    decodeWord defaultParams 0x000080E7#32 = .ok (.i67 3 1 0 1 ⟨0x000⟩)) ∧
  (decodeWord defaultParams 0x30529073#32 = .ok (.i73 3 0 1 5 ⟨0x305⟩) ∧
    decodeWord defaultParams 0xFE112E23#32 = .ok (.s23 3 2 2 1 ⟨0xFFC⟩) ∧
    decodeWord defaultParams 0xFE000EE3#32 = .ok (.b63 3 0 0 0 ⟨0xFFE⟩) ∧
    decodeWord defaultParams 0x12345537#32 = .ok (.u37 3 10 ⟨0x12345⟩) ∧
    decodeWord defaultParams 0xFFDFF06F#32 = .ok (.j6F 3 0 ⟨0xFFFFE⟩)) ∧
  (decodeWord defaultParams 0x00000073#32 = .ok .ecall ∧
    decodeWord defaultParams 0x00100073#32 = .ok .ebreak ∧
    decodeWord defaultParams 0x10500073#32 = .ok .wfi ∧
    decodeWord defaultParams 0x30200073#32 = .ok .mret ∧
    decodeWord defaultParams 0x10200073#32 = .ok .sret ∧
    decodeWord defaultParams 0x7B200073#32 = .ok .dret)

/-- Every well-formed instruction of every row, with every operand, decodes from its own word, whatever `SIZE_OF` is. -/
def Obligations.DecodeOfEncodeIsTheInstruction : Prop :=
  ∀ (p : Params) (i : Instr), wellFormed p i = true → decodeWord p (encode i) = .ok i

/-- Every word that decodes is the word of the row it decodes to, and that row's term is well-formed. -/
def Obligations.EncodeOfDecodeIsTheWord : Prop :=
  ∀ (p : Params) (w : Word) (i : Instr), decodeWord p w = .ok i → encode i = w ∧ wellFormed p i = true

/-- R172: the two round trips of the instruction union, for every Instruction of a block and every word that decodes,
that `Decode` is injective where it accepts, and that it answers `Ok` or one of three named errors. -/
def Obligations.UnionDecodeAndEncodeAreInverse : Prop :=
  (∀ (p : Params) (x : Instruction p), decode p (encodeInstruction x) = .ok x) ∧
  (∀ (p : Params) (w : Word) (x : Instruction p), decode p w = .ok x → encodeInstruction x = w) ∧
  (∀ (p : Params) (w w' : Word) (x : Instruction p), decode p w = .ok x → decode p w' = .ok x → w = w') ∧
  (∀ (p : Params) (w : Word) (e : DecodeError), decode p w = .error e →
    e = .unrecognizedInstructionFormat ∨ e = .unrecognizedInstructionSize ∨
      ∃ sz, e = .unsupportedInstructionSize sz)

/-- R158: per format, every variant that its decoder or its constructor returned decodes from its own word, and every
word its decoder accepts re-encodes to itself. -/
def Obligations.EachFormatRoundTrips : Prop :=
  (∀ (p : Params) (t : Format) (w : Word) (x : Instruction p), decodeAs p t w = .ok x →
    encodeInstruction x = w ∧ decodeAs p t (encodeInstruction x) = .ok x) ∧
  (∀ (p : Params) (op : Opcode p),
    (∀ rd f3 rs1 rs2 f7 x, makeR op rd f3 rs1 rs2 f7 = .ok x → decodeR p (encodeInstruction x) = .ok x) ∧
    (∀ rd f3 rs1 v x, makeI op rd f3 rs1 v = .ok x → decodeI p (encodeInstruction x) = .ok x) ∧
    (∀ f3 rs1 rs2 v x, makeS op f3 rs1 rs2 v = .ok x → decodeS p (encodeInstruction x) = .ok x) ∧
    (∀ f3 rs1 rs2 v x, makeB op f3 rs1 rs2 v = .ok x → decodeB p (encodeInstruction x) = .ok x) ∧
    (∀ rd v x, makeU op rd v = .ok x → decodeU p (encodeInstruction x) = .ok x) ∧
    (∀ rd v x, makeJ op rd v = .ok x → decodeJ p (encodeInstruction x) = .ok x))

/-- The decoder that names rows of the opcode table agrees with `Decode` (R170) on every word: the same Instruction or
the same error, so a row is never lost and none is invented (log 14); and a row's term stands for what its own word
decodes to, be that an Instruction or the word's error (log 26). -/
def Obligations.RowDecoderAgreesWithUnionDecode : Prop :=
  (∀ (p : Params) (w : Word), (decodeWord p w).bind (instructionOf p) = decode p w) ∧
  (∀ (p : Params) (i : Instr), instructionOf p i = decode p (encode i))

/-- R62, over the table of R58: which words are illegal, with which error, and that every other word decodes to an
Instruction of its key's format. Two things here are the model's choice: the order of the two lookups (92 D11, log 12),
and that `Decode` answers `UnsupportedInstructionSize` for a recognised size other than `Size32`, since the spec itself
decides that this size test stands in `Decode` (92 D12, log 11). -/
def Obligations.WordsAreIllegalExactlyByKeyAndSize : Prop :=
  ∀ (p : Params) (w : Word),
    ((∀ f, (keyOf (wordOpcode w), f) ∉ keyFormats) → decode p w = .error .unrecognizedInstructionFormat) ∧
    (∀ f, (keyOf (wordOpcode w), f) ∈ keyFormats →
      (sizeTableOf p (wordOpcode w) = none → decode p w = .error .unrecognizedInstructionSize) ∧
      (∀ sz, sizeTableOf p (wordOpcode w) = some sz → sz ≠ .size32 →
        decode p w = .error (.unsupportedInstructionSize sz)) ∧
      (sizeTableOf p (wordOpcode w) = some .size32 →
        ∃ x, decode p w = .ok x ∧ tagOf x = f ∧ (opcodeOf x).bits = wordOpcode w))

/-- R63: two words with the same opcode are both legal or both illegal, with the same error, whatever their other 25
bits are. -/
def Obligations.FieldValuesNeverMakeAWordIllegal : Prop :=
  ∀ (p : Params) (w w' : Word), wordOpcode w = wordOpcode w' →
    ((∃ x, decode p w = .ok x) → ∃ y, decode p w' = .ok y) ∧
    (∀ e, decode p w = .error e → decode p w' = .error e)

/-- `OpcodeFromRaw` (R121) over the table of R58 and any `SIZE_OF`. The order of the format and size lookups is the
model's choice (log 12). -/
def Obligations.ClassifierFollowsTheFormatAndSizeTables : Prop :=
  ∀ (p : Params) (raw : BitVec 8),
    (raw.getLsbD 7 = true → opcodeFromRaw p raw = .error .invalidOpcode) ∧
    (raw.getLsbD 7 = false → (∀ f, (raw.extractLsb' 2 5, f) ∉ keyFormats) →
      opcodeFromRaw p raw = .error .unrecognizedInstructionFormat) ∧
    (raw.getLsbD 7 = false → ∀ f, (raw.extractLsb' 2 5, f) ∈ keyFormats →
      (sizeTableOf p (raw.extractLsb' 0 7) = none → opcodeFromRaw p raw = .error .unrecognizedInstructionSize) ∧
      (∀ sz, sizeTableOf p (raw.extractLsb' 0 7) = some sz →
        ∃ op, opcodeFromRaw p raw = .ok op ∧ op.bits = raw.extractLsb' 0 7 ∧ op.format = f ∧ op.size = sz))

/-! ## The formats, bit by bit (R48 to R53). `v` is the 32-bit conceptual immediate of R54. -/

/-- R48. -/
def Obligations.FormatRWordsDecodeBitByBit : Prop :=
  ∀ (p : Params) (w : Word) (op : VariantOpcode p .R), variantFront p w .R = .ok op →
    op.bits = w.extractLsb' 0 7 ∧
    decodeR p w = .ok (.r op (w.extractLsb' 7 5) (w.extractLsb' 12 3) (w.extractLsb' 15 5) (w.extractLsb' 20 5)
      (w.extractLsb' 25 7))

/-- R49. -/
def Obligations.FormatIWordsDecodeBitByBit : Prop :=
  ∀ (p : Params) (w : Word) (op : VariantOpcode p .I), variantFront p w .I = .ok op →
    op.bits = w.extractLsb' 0 7 ∧
    ∃ (imm : Imm0to11) (v : BitVec 32),
      decodeI p w = .ok (.i op (w.extractLsb' 7 5) (w.extractLsb' 12 3) (w.extractLsb' 15 5) imm) ∧
      immToSigned imm = v.toInt ∧ v.extractLsb' 0 12 = w.extractLsb' 20 12 ∧
      ∀ k, 12 ≤ k → k < 32 → v.getLsbD k = w.getLsbD 31

/-- R50. -/
def Obligations.FormatSWordsDecodeBitByBit : Prop :=
  ∀ (p : Params) (w : Word) (op : VariantOpcode p .S), variantFront p w .S = .ok op →
    op.bits = w.extractLsb' 0 7 ∧
    ∃ (imm : Imm0to11) (v : BitVec 32),
      decodeS p w = .ok (.s op (w.extractLsb' 12 3) (w.extractLsb' 15 5) (w.extractLsb' 20 5) imm) ∧
      immToSigned imm = v.toInt ∧ v.extractLsb' 5 7 = w.extractLsb' 25 7 ∧ v.extractLsb' 0 5 = w.extractLsb' 7 5 ∧
      ∀ k, 12 ≤ k → k < 32 → v.getLsbD k = w.getLsbD 31

/-- R51. -/
def Obligations.FormatBWordsDecodeBitByBit : Prop :=
  ∀ (p : Params) (w : Word) (op : VariantOpcode p .B), variantFront p w .B = .ok op →
    op.bits = w.extractLsb' 0 7 ∧
    ∃ (imm : Imm1to12) (v : BitVec 32),
      decodeB p w = .ok (.b op (w.extractLsb' 12 3) (w.extractLsb' 15 5) (w.extractLsb' 20 5) imm) ∧
      immToSigned imm = v.toInt ∧ v.getLsbD 0 = false ∧ v.extractLsb' 1 4 = w.extractLsb' 8 4 ∧
      v.extractLsb' 5 6 = w.extractLsb' 25 6 ∧ v.getLsbD 11 = w.getLsbD 7 ∧ v.getLsbD 12 = w.getLsbD 31 ∧
      ∀ k, 12 ≤ k → k < 32 → v.getLsbD k = w.getLsbD 31

/-- R52. -/
def Obligations.FormatUWordsDecodeBitByBit : Prop :=
  ∀ (p : Params) (w : Word) (op : VariantOpcode p .U), variantFront p w .U = .ok op →
    op.bits = w.extractLsb' 0 7 ∧
    ∃ (imm : Imm12to31) (v : BitVec 32),
      decodeU p w = .ok (.u op (w.extractLsb' 7 5) imm) ∧
      immToSigned imm = v.toInt ∧ v.extractLsb' 12 20 = w.extractLsb' 12 20 ∧ v.extractLsb' 0 12 = 0#12

/-- R53. -/
def Obligations.FormatJWordsDecodeBitByBit : Prop :=
  ∀ (p : Params) (w : Word) (op : VariantOpcode p .J), variantFront p w .J = .ok op →
    op.bits = w.extractLsb' 0 7 ∧
    ∃ (imm : Imm1to20) (v : BitVec 32),
      decodeJ p w = .ok (.j op (w.extractLsb' 7 5) imm) ∧
      immToSigned imm = v.toInt ∧ v.getLsbD 0 = false ∧ v.extractLsb' 1 10 = w.extractLsb' 21 10 ∧
      v.getLsbD 11 = w.getLsbD 20 ∧ v.extractLsb' 12 8 = w.extractLsb' 12 8 ∧ v.getLsbD 20 = w.getLsbD 31 ∧
      ∀ k, 20 ≤ k → k < 32 → v.getLsbD k = w.getLsbD 31

/-- A per-format decoder fails only in its front (R135), and after a classification that names another format the
failure is `UnexpectedFormat` with the format the opcode has (R136, R236). -/
def Obligations.DecodersFailOnlyByClassification : Prop :=
  (∀ (p : Params) (t : Format) (w : Word) (e : DecodeError),
    decodeAs p t w = .error e ↔ variantFront p w t = .error e) ∧
  (∀ (p : Params) (t : Format) (w : Word) (op : Opcode p), opcodeFromRaw p ((wordOpcode w).setWidth 8) = .ok op →
    op.size = .size32 → op.format ≠ t → decodeAs p t w = .error (.unexpectedFormat op.format))

/-- R138: the pieces of an encoded word, as R141 to R151 list them, never overlap, so their OR is their sum. -/
def Obligations.EncodersAddDisjointPieces : Prop :=
  (∀ (op : OpcodeBits) (rd : Register) (f3 : Funct3) (rs1 rs2 : Register) (f7 : Funct7),
    encodeR op rd f3 rs1 rs2 f7 =
      op.setWidth 32 + (rd.setWidth 32 <<< 7) + (f3.setWidth 32 <<< 12) + (rs1.setWidth 32 <<< 15) +
        (rs2.setWidth 32 <<< 20) + (f7.setWidth 32 <<< 25)) ∧
  (∀ (op : OpcodeBits) (rd : Register) (f3 : Funct3) (rs1 : Register) (imm : Imm0to11),
    encodeI op rd f3 rs1 imm =
      op.setWidth 32 + (rd.setWidth 32 <<< 7) + (f3.setWidth 32 <<< 12) + (rs1.setWidth 32 <<< 15) +
        (imm.raw.setWidth 32 <<< 20)) ∧
  (∀ (op : OpcodeBits) (f3 : Funct3) (rs1 rs2 : Register) (imm : Imm0to11),
    encodeS op f3 rs1 rs2 imm =
      op.setWidth 32 + ((imm.raw.extractLsb' 0 5).setWidth 32 <<< 7) + (f3.setWidth 32 <<< 12) +
        (rs1.setWidth 32 <<< 15) + (rs2.setWidth 32 <<< 20) + ((imm.raw.extractLsb' 5 7).setWidth 32 <<< 25)) ∧
  (∀ (op : OpcodeBits) (f3 : Funct3) (rs1 rs2 : Register) (imm : Imm1to12),
    encodeB op f3 rs1 rs2 imm =
      op.setWidth 32 + ((imm.raw.extractLsb' 10 1).setWidth 32 <<< 7) +
        ((imm.raw.extractLsb' 0 4).setWidth 32 <<< 8) + (f3.setWidth 32 <<< 12) + (rs1.setWidth 32 <<< 15) +
        (rs2.setWidth 32 <<< 20) + ((imm.raw.extractLsb' 4 6).setWidth 32 <<< 25) +
        ((imm.raw.extractLsb' 11 1).setWidth 32 <<< 31)) ∧
  (∀ (op : OpcodeBits) (rd : Register) (imm : Imm12to31),
    encodeU op rd imm = op.setWidth 32 + (rd.setWidth 32 <<< 7) + (imm.raw.setWidth 32 <<< 12)) ∧
  (∀ (op : OpcodeBits) (rd : Register) (imm : Imm1to20),
    encodeJ op rd imm =
      op.setWidth 32 + (rd.setWidth 32 <<< 7) + ((imm.raw.extractLsb' 11 8).setWidth 32 <<< 12) +
        ((imm.raw.extractLsb' 10 1).setWidth 32 <<< 20) + ((imm.raw.extractLsb' 0 10).setWidth 32 <<< 21) +
        ((imm.raw.extractLsb' 19 1).setWidth 32 <<< 31))

/-- R32: a word is little-endian in the byte source, and its four bytes determine it. -/
def Obligations.WordsAreLittleEndian : Prop :=
  (∀ b0 b1 b2 b3 : Byte,
    (assembleWord b0 b1 b2 b3).toNat = b0.toNat + 256 * b1.toNat + 65536 * b2.toNat + 16777216 * b3.toNat ∧
    wordBytes (assembleWord b0 b1 b2 b3) = [b0, b1, b2, b3]) ∧
  (∀ w : Word, ∃ b0 b1 b2 b3, wordBytes w = [b0, b1, b2, b3] ∧ assembleWord b0 b1 b2 b3 = w)

/-! ## Field validators -/

/-- R90: the raw register validator accepts exactly the values below 32, and what it accepts is the index itself. -/
def Obligations.RawRegisterIndicesAreAcceptedBelow32 : Prop :=
  ∀ raw : BitVec 8,
    (raw.toNat < 32 → ∃ r, regFromRaw raw = .ok r ∧ r.toNat = raw.toNat) ∧
    (32 ≤ raw.toNat → regFromRaw raw = .error .invalidRegister)

/-- The raw funct validators accept exactly what fits in 3 and in 7 bits (R94, R95; the 8-bit port is the model's
choice, log 9). -/
def Obligations.RawFunctValuesAreAcceptedExactlyWhenTheyFit : Prop :=
  ∀ raw : BitVec 8,
    (raw.toNat < 8 → ∃ f, funct3FromRaw raw = .ok f ∧ f.toNat = raw.toNat) ∧
    (8 ≤ raw.toNat → funct3FromRaw raw = .error (.invalidFunctValue 3)) ∧
    (raw.toNat < 128 → ∃ f, funct7FromRaw raw = .ok f ∧ f.toNat = raw.toNat) ∧
    (128 ≤ raw.toNat → funct7FromRaw raw = .error (.invalidFunctValue 7))

/-- R93 with the table of R11: the named constructors are the inverse of the canonical name, no two names are spelled
alike, and the spelling of each index is the table's. -/
def Obligations.RegisterNamesAreABijection : Prop :=
  (∀ r : Register, regOfName (regName r) = r) ∧ (∀ n : RegName, regName (regOfName n) = n) ∧
  (∀ m n : RegName, regNameText m = regNameText n → m = n) ∧
  (List.range 32).map (fun k => regNameText (regName (BitVec.ofNat 5 k))) =
    ["zero", "ra", "sp", "gp", "tp", "t0", "t1", "t2", "s0", "s1"] ++
    ["a0", "a1", "a2", "a3", "a4", "a5", "a6", "a7"] ++
    ["s2", "s3", "s4", "s5", "s6", "s7", "s8", "s9", "s10", "s11", "t3", "t4", "t5", "t6"]

/-- R91, R92, R97 with the slices of R96: extraction reads exactly its slice, insertion sets no bit outside its field, and
extraction undoes insertion; so an inserted field is its value at its place. -/
def Obligations.FieldInsertionStaysInItsField : Prop :=
  (∀ off : Nat, off = rdOffset ∨ off = rs1Offset ∨ off = rs2Offset →
    (∀ w : Word, regFromWord w off = w.extractLsb' off 5) ∧
    (∀ r : Register, regFromWord (regToWord r off) off = r ∧
      ∀ k, k < off ∨ off + 5 ≤ k → (regToWord r off).getLsbD k = false)) ∧
  (∀ w : Word, funct3FromWord w = w.extractLsb' 12 3 ∧ funct7FromWord w = w.extractLsb' 25 7) ∧
  (∀ f : Funct3, funct3FromWord (funct3ToWord f) = f ∧
    ∀ k, k < 12 ∨ 15 ≤ k → (funct3ToWord f).getLsbD k = false) ∧
  (∀ f : Funct7, funct7FromWord (funct7ToWord f) = f ∧
    ∀ k, k < 25 → (funct7ToWord f).getLsbD k = false)

/-- R104, laws (a) to (d), for all START ≤ END < 32. For a value that breaks both rules either error is allowed. -/
def Obligations.ImmediateLaws : Prop :=
  ∀ (START END : Nat), START ≤ END → END < 32 →
    (∀ v : Int, v % 2 ^ START = 0 → -(2 ^ END) ≤ v → v ≤ 2 ^ END - 2 ^ START →
      ∃ imm, immFromSigned START (END - START + 1) v = .ok imm ∧ immToSigned imm = v) ∧
    (∀ v : Int, v % 2 ^ START ≠ 0 → -(2 ^ END) ≤ v → v ≤ 2 ^ END - 2 ^ START →
      immFromSigned START (END - START + 1) v = .error (.immediateBitsBeforeStart START)) ∧
    (∀ v : Int, v % 2 ^ START = 0 → (v < -(2 ^ END) ∨ 2 ^ END - 2 ^ START < v) →
      immFromSigned START (END - START + 1) v = .error (.immediateOutOfRange (-(2 ^ END)) (2 ^ END - 2 ^ START))) ∧
    (∀ v : Int, v % 2 ^ START ≠ 0 → (v < -(2 ^ END) ∨ 2 ^ END - 2 ^ START < v) →
      immFromSigned START (END - START + 1) v = .error (.immediateOutOfRange (-(2 ^ END)) (2 ^ END - 2 ^ START)) ∨
      immFromSigned START (END - START + 1) v = .error (.immediateBitsBeforeStart START)) ∧
    (∀ (v : Int) (imm : Immediate START (END - START + 1)), immFromSigned START (END - START + 1) v = .ok imm →
      immNormalized imm * 2 ^ START = v ∧ BitVec.ofInt (END - START + 1) (immNormalized imm) = imm.raw) ∧
    (∀ r : BitVec (END - START + 1),
      immFromRawBits START (END - START + 1) (r.setWidth 32) = .ok ⟨r⟩ ∧
      immToRawBits (⟨r⟩ : Immediate START (END - START + 1)) = r.setWidth 32 ∧
      immFromSigned START (END - START + 1) (immToSigned (⟨r⟩ : Immediate START (END - START + 1))) = .ok ⟨r⟩)

/-- R22, R54: the signed value of an immediate is `sext_W(raw) << START`, in its bounds, with its low START bits zero. -/
def Obligations.SignedValueOfAnImmediate : Prop :=
  ∀ (START END : Nat), START ≤ END → END < 32 → ∀ imm : Immediate START (END - START + 1),
    immToSigned imm = imm.raw.toInt * 2 ^ START ∧ -(2 ^ END) ≤ immToSigned imm ∧
    immToSigned imm ≤ 2 ^ END - 2 ^ START ∧ immToSigned imm % 2 ^ START = 0

/-- `ImmFromRawBits` and `ImmToRawBits` (R101, R102): exactly the patterns of W bits are accepted, unchanged and never
sign-extended. The error's name is the model's choice (log 10). -/
def Obligations.RawBitsAreAcceptedExactlyWhenTheyFit : Prop :=
  ∀ (START END : Nat), START ≤ END → END < 32 → ∀ bits : BitVec 32,
    (bits.toNat < 2 ^ (END - START + 1) →
      ∃ imm, immFromRawBits START (END - START + 1) bits = .ok imm ∧ immToRawBits imm = bits ∧
        imm.raw.toNat = bits.toNat) ∧
    (2 ^ (END - START + 1) ≤ bits.toNat →
      immFromRawBits START (END - START + 1) bits = .error (.immediateOutOfRange (-(2 ^ END)) (2 ^ END - 2 ^ START)))

/-! ## Construction, union and builder -/

/-- R152 to R157 with the ranges of R54: what each variant constructor accepts and what it makes, the variant of the
fields given with the opcode's own bits; and which error it answers for everything else (R137, R236, R239, R241). The
size test and the opcode's tests before the immediate's (log 11), the range before the low bits (log 9) and the name
`UnsupportedInstructionSize` (log 19) are the model's choice. -/
def Obligations.ConstructorsAcceptExactlyTheLegalOperands : Prop :=
  (∀ (p : Params) (op : Opcode p) rd f3 rs1 rs2 f7 x, makeR op rd f3 rs1 rs2 f7 = .ok x ↔
    op.size = .size32 ∧ op.format = .R ∧ ∃ v : VariantOpcode p .R, v.bits = op.bits ∧ x = .r v rd f3 rs1 rs2 f7) ∧
  (∀ (p : Params) (op : Opcode p) rd f3 rs1 n x, makeI op rd f3 rs1 n = .ok x ↔
    op.size = .size32 ∧ op.format = .I ∧ -2048 ≤ n ∧ n ≤ 2047 ∧
      ∃ v : VariantOpcode p .I, v.bits = op.bits ∧ x = .i v rd f3 rs1 ⟨BitVec.ofInt 12 n⟩) ∧
  (∀ (p : Params) (op : Opcode p) f3 rs1 rs2 n x, makeS op f3 rs1 rs2 n = .ok x ↔
    op.size = .size32 ∧ op.format = .S ∧ -2048 ≤ n ∧ n ≤ 2047 ∧
      ∃ v : VariantOpcode p .S, v.bits = op.bits ∧ x = .s v f3 rs1 rs2 ⟨BitVec.ofInt 12 n⟩) ∧
  (∀ (p : Params) (op : Opcode p) f3 rs1 rs2 n x, makeB op f3 rs1 rs2 n = .ok x ↔
    op.size = .size32 ∧ op.format = .B ∧ -4096 ≤ n ∧ n ≤ 4094 ∧ n % 2 = 0 ∧
      ∃ v : VariantOpcode p .B, v.bits = op.bits ∧ x = .b v f3 rs1 rs2 ⟨BitVec.ofInt 12 (n / 2)⟩) ∧
  (∀ (p : Params) (op : Opcode p) rd n x, makeU op rd n = .ok x ↔
    op.size = .size32 ∧ op.format = .U ∧ -2147483648 ≤ n ∧ n ≤ 2147479552 ∧ n % 4096 = 0 ∧
      ∃ v : VariantOpcode p .U, v.bits = op.bits ∧ x = .u v rd ⟨BitVec.ofInt 20 (n / 4096)⟩) ∧
  (∀ (p : Params) (op : Opcode p) rd n x, makeJ op rd n = .ok x ↔
    op.size = .size32 ∧ op.format = .J ∧ -1048576 ≤ n ∧ n ≤ 1048574 ∧ n % 2 = 0 ∧
      ∃ v : VariantOpcode p .J, v.bits = op.bits ∧ x = .j v rd ⟨BitVec.ofInt 20 (n / 2)⟩) ∧
  (∀ (p : Params) (op : Opcode p) (rd rs1 rs2 : Register) (f3 : Funct3) (f7 : Funct7) (n : Int),
    OpcodeErrors op .R (makeR op rd f3 rs1 rs2 f7) ∧ OpcodeErrors op .I (makeI op rd f3 rs1 n) ∧
    OpcodeErrors op .S (makeS op f3 rs1 rs2 n) ∧ OpcodeErrors op .B (makeB op f3 rs1 rs2 n) ∧
    OpcodeErrors op .U (makeU op rd n) ∧ OpcodeErrors op .J (makeJ op rd n) ∧
    ImmediateErrors op .I 0 (-2048) 2047 n (makeI op rd f3 rs1 n) ∧
    ImmediateErrors op .S 0 (-2048) 2047 n (makeS op f3 rs1 rs2 n) ∧
    ImmediateErrors op .B 1 (-4096) 4094 n (makeB op f3 rs1 rs2 n) ∧
    ImmediateErrors op .U 12 (-2147483648) 2147479552 n (makeU op rd n) ∧
    ImmediateErrors op .J 1 (-1048576) 1048574 n (makeJ op rd n))

/-- R176, R177: a builder without an opcode, or without a field its format requires, names the first missing one (which
one is named is the model's choice, log 21), and a complete one never reports a missing field nor a format mismatch: it
is the constructor of its opcode's format, whose errors `ConstructorsAcceptExactlyTheLegalOperands` lists. -/
def Obligations.BuilderNamesAMissingRequiredField : Prop :=
  (∀ (p : Params) (b : BuildInput p), b.opcode = none → build b = .error (.builderMissingField .opcode)) ∧
  (∀ (p : Params) (b : BuildInput p) (op : Opcode p), b.opcode = some op →
    (∀ f, (requiredFields op.format).find? (fun f => !fieldPresent b f) = some f →
      build b = .error (.builderMissingField f)) ∧
    ((∀ f ∈ requiredFields op.format, fieldPresent b f = true) →
      ∀ e, build b = .error e → (∀ f, e ≠ .builderMissingField f) ∧ ∀ t, e ≠ .unexpectedFormat t)) ∧
  (∀ (p : Params) (b : BuildInput p) (op : Opcode p) (rd rs1 rs2 : Register) (f3 : Funct3) (f7 : Funct7) (n : Int),
    (op.format = .R → build { b with
      opcode := some op, funct3 := some f3, funct7 := some f7, rs1 := some rs1, rs2 := some rs2, rd := some rd } =
        makeR op rd f3 rs1 rs2 f7) ∧
    (op.format = .I → build { b with
      opcode := some op, funct3 := some f3, rs1 := some rs1, rd := some rd, imm := some n } = makeI op rd f3 rs1 n) ∧
    (op.format = .S → build { b with
      opcode := some op, funct3 := some f3, rs1 := some rs1, rs2 := some rs2, imm := some n } =
        makeS op f3 rs1 rs2 n) ∧
    (op.format = .B → build { b with
      opcode := some op, funct3 := some f3, rs1 := some rs1, rs2 := some rs2, imm := some n } =
        makeB op f3 rs1 rs2 n) ∧
    (op.format = .U → build { b with opcode := some op, rd := some rd, imm := some n } = makeU op rd n) ∧
    (op.format = .J → build { b with opcode := some op, rd := some rd, imm := some n } = makeJ op rd n))

/-- R178: an input the opcode's format does not use is ignored, whatever it holds. -/
def Obligations.BuilderIgnoresIrrelevantFields : Prop :=
  ∀ (p : Params) (b c : BuildInput p) (op : Opcode p), b.opcode = some op → c.opcode = some op →
    (∀ f ∈ requiredFields op.format, fieldAgrees b c f) → build b = build c

/-- R179 with R20 and R23: every Instruction of a block satisfies the invariant, by its type: its opcode's format is its
tag, its opcode's size is `Size32`, and both are what the tables give the opcode's bits, so the classifier gives the
opcode back. So its word is legal (R62) and the type holds nothing else: every Instruction comes from `Decode` of a word
and from `Build`, and `Build` keeps the opcode it was given. -/
def Obligations.EveryInstructionSatisfiesTheInvariant : Prop :=
  (∀ (p : Params) (x : Instruction p), (opcodeOf x).format = tagOf x ∧ (opcodeOf x).size = .size32 ∧
    (keyOf (opcodeOf x).bits, tagOf x) ∈ keyFormats ∧ sizeTableOf p (opcodeOf x).bits = some .size32 ∧
    opcodeFromRaw p ((opcodeOf x).bits.setWidth 8) = .ok (opcodeOf x)) ∧
  (∀ (p : Params) (x : Instruction p), (∃ w, decode p w = .ok x) ∧ ∃ b, build b = .ok x) ∧
  (∀ (p : Params) (b : BuildInput p) (x : Instruction p), build b = .ok x → b.opcode = some (opcodeOf x)) ∧
  (∀ (p : Params) (op : Opcode p), opcodeFromRaw p (op.bits.setWidth 8) = .ok op)

/-- Feeding an Instruction's own fields to the builder gives the Instruction back (R100, R104, R173, R177), so every
Instruction comes from `Build` (R179). -/
def Obligations.BuilderRebuildsAnInstructionFromItsFields : Prop :=
  ∀ (p : Params) (x : Instruction p), build (buildInputOf x) = .ok x

/-- R173, R174 with the positions of R46 and the gather of R55: which accessors of a decoded word answer, and with what;
the immediate with the type of its tag and the word's own bits. -/
def Obligations.AccessorsAnswerTheFieldsOfTheWord : Prop :=
  ∀ (p : Params) (w : Word) (x : Instruction p), decode p w = .ok x →
    (opcodeOf x).bits = w.extractLsb' 0 7 ∧
    rdOf x = (if tagOf x = .R ∨ tagOf x = .I ∨ tagOf x = .U ∨ tagOf x = .J then some (w.extractLsb' 7 5) else none) ∧
    funct3Of x = (if tagOf x = .U ∨ tagOf x = .J then none else some (w.extractLsb' 12 3)) ∧
    rs1Of x = (if tagOf x = .U ∨ tagOf x = .J then none else some (w.extractLsb' 15 5)) ∧
    rs2Of x = (if tagOf x = .R ∨ tagOf x = .S ∨ tagOf x = .B then some (w.extractLsb' 20 5) else none) ∧
    funct7Of x = (if tagOf x = .R then some (w.extractLsb' 25 7) else none) ∧
    immediateOf x = (match tagOf x with
      | .R => none
      | .I => some (.imm0to11 ⟨w.extractLsb' 20 12⟩)
      | .S => some (.imm0to11 ⟨w.extractLsb' 25 7 ++ w.extractLsb' 7 5⟩)
      | .B => some (.imm1to12 ⟨w.extractLsb' 31 1 ++ w.extractLsb' 7 1 ++ w.extractLsb' 25 6 ++ w.extractLsb' 8 4⟩)
      | .U => some (.imm12to31 ⟨w.extractLsb' 12 20⟩)
      | .J => some (.imm1to20 ⟨w.extractLsb' 31 1 ++ w.extractLsb' 12 8 ++ w.extractLsb' 20 1 ++ w.extractLsb' 21 10⟩))

/-- The hardware bundle of R23 (the layout is the model's choice, log 19) loses nothing of an Instruction: the valid bits
are the table of R173, a field the variant lacks has valid bit 0 and value 0, and one it has is delivered with its
value, the immediate both raw and signed (R174). Of `imm_raw` only the bits the format uses are stated (log 24). -/
def Obligations.BundleCarriesTheWholeInstruction : Prop :=
  (∀ (p : Params) (x y : Instruction p), bundleOf x = bundleOf y → x = y) ∧
  (∀ (p : Params) (x : Instruction p),
    ((bundleOf x).rdValid = true ↔ tagOf x = .R ∨ tagOf x = .I ∨ tagOf x = .U ∨ tagOf x = .J) ∧
    ((bundleOf x).funct3Valid = true ↔ tagOf x = .R ∨ tagOf x = .I ∨ tagOf x = .S ∨ tagOf x = .B) ∧
    ((bundleOf x).rs1Valid = true ↔ tagOf x = .R ∨ tagOf x = .I ∨ tagOf x = .S ∨ tagOf x = .B) ∧
    ((bundleOf x).rs2Valid = true ↔ tagOf x = .R ∨ tagOf x = .S ∨ tagOf x = .B) ∧
    ((bundleOf x).funct7Valid = true ↔ tagOf x = .R) ∧
    ((bundleOf x).immValid = true ↔ tagOf x ≠ .R)) ∧
  (∀ (p : Params) (x : Instruction p),
    ((bundleOf x).rdValid = false → (bundleOf x).rd = 0) ∧
    ((bundleOf x).funct3Valid = false → (bundleOf x).funct3 = 0) ∧
    ((bundleOf x).rs1Valid = false → (bundleOf x).rs1 = 0) ∧
    ((bundleOf x).rs2Valid = false → (bundleOf x).rs2 = 0) ∧
    ((bundleOf x).funct7Valid = false → (bundleOf x).funct7 = 0) ∧
    ((bundleOf x).immValid = false → (bundleOf x).immRaw = 0 ∧ (bundleOf x).immSigned = 0) ∧
    formatOfCode (bundleOf x).tag = some (tagOf x) ∧ (bundleOf x).opcode = (opcodeOf x).bits) ∧
  (∀ (p : Params) (x : Instruction p),
    (∀ r, rdOf x = some r → (bundleOf x).rd = r) ∧ (∀ f, funct3Of x = some f → (bundleOf x).funct3 = f) ∧
    (∀ r, rs1Of x = some r → (bundleOf x).rs1 = r) ∧ (∀ r, rs2Of x = some r → (bundleOf x).rs2 = r) ∧
    (∀ f, funct7Of x = some f → (bundleOf x).funct7 = f) ∧
    (∀ v, immediateSigned x = some v → (bundleOf x).immSigned.toInt = v) ∧
    (∀ imm, immediateOf x = some (.imm0to11 imm) → (bundleOf x).immRaw.extractLsb' 0 12 = imm.raw) ∧
    (∀ imm, immediateOf x = some (.imm1to12 imm) → (bundleOf x).immRaw.extractLsb' 0 12 = imm.raw) ∧
    (∀ imm, immediateOf x = some (.imm12to31 imm) → (bundleOf x).immRaw = imm.raw) ∧
    (∀ imm, immediateOf x = some (.imm1to20 imm) → (bundleOf x).immRaw = imm.raw))

/-- The numeric codes of the ports (R14, R18, R19, R231; the numbers are the spec's own decision, log 19): a format and a
size are read back from their codes, code 0 means `Ok` and nothing else, and the error code separates the twelve names. -/
def Obligations.PortCodesSeparateWhatTheyName : Prop :=
  (∀ (c : BitVec 3) (f : Format), formatOfCode c = some f ↔ formatCode f = c) ∧
  (∀ a b : Size, sizeCode a = sizeCode b → a = b) ∧
  (∀ a b : StreamState, stateCode a = stateCode b → a = b) ∧ (∀ a : StreamState, stateCode a ≠ 3) ∧
  (∀ a b : BuilderField, fieldCode a = fieldCode b → a = b) ∧
  (∀ (p : Params) (r : Except DecodeError (Instruction p)), resultCode r = 0 ↔ ∃ x, r = .ok x) ∧
  (∀ e : DecodeError, errorCode e = 1 ↔ e = .invalidOpcode) ∧
  (∀ e : DecodeError, errorCode e = 2 ↔ e = .unrecognizedInstructionFormat) ∧
  (∀ e : DecodeError, errorCode e = 3 ↔ e = .unrecognizedInstructionSize) ∧
  (∀ e : DecodeError, errorCode e = 4 ↔ e = .unrecognizedExtension) ∧
  (∀ e : DecodeError, errorCode e = 5 ↔ ∃ f, e = .unexpectedFormat f) ∧
  (∀ e : DecodeError, errorCode e = 6 ↔ e = .invalidRegister) ∧
  (∀ e : DecodeError, errorCode e = 7 ↔ ∃ w, e = .invalidFunctValue w) ∧
  (∀ e : DecodeError, errorCode e = 8 ↔ ∃ lo hi, e = .immediateOutOfRange lo hi) ∧
  (∀ e : DecodeError, errorCode e = 9 ↔ ∃ k, e = .immediateBitsBeforeStart k) ∧
  (∀ e : DecodeError, errorCode e = 10 ↔ ∃ f, e = .builderMissingField f) ∧
  (∀ e : DecodeError, errorCode e = 11 ↔ e = .unexpectedEof) ∧
  (∀ e : DecodeError, errorCode e = 12 ↔ ∃ sz, e = .unsupportedInstructionSize sz)

/-! ## The lookup interface -/

/-- R211: the key a decoded word presents to the mnemonic lookup. -/
def Obligations.LookupKeyOfADecodedWord : Prop :=
  ∀ (p : Params) (w : Word) (x : Instruction p), decode p w = .ok x →
    lookupKey x =
      ⟨w.extractLsb' 0 7,
        if tagOf x = .U ∨ tagOf x = .J then none else some (w.extractLsb' 12 3),
        if tagOf x = .R then some (w.extractLsb' 25 7) else none⟩

/-- R214 to R219: each system word decodes as the I variant its rule lists, has its name in `SYS_LOOKUP`, and has an
empty operand list. -/
def Obligations.SystemWordsDecodeAndAreNamed : Prop :=
  ∀ (p : Params), sizeTableOf p 0x73#7 = some .size32 →
    ∀ (w : Word) (name : String) (raw : BitVec 12) (v : Int),
      (w, name, raw, v) ∈
        [(0x00000073#32, "ecall", 0x000#12, (0 : Int)), (0x00100073#32, "ebreak", 0x001#12, 1),
          (0x10500073#32, "wfi", 0x105#12, 261), (0x30200073#32, "mret", 0x302#12, 770),
          (0x10200073#32, "sret", 0x102#12, 258), (0x7B200073#32, "dret", 0x7B2#12, 1970)] →
      ∃ (op : VariantOpcode p .I) (x : Instruction p), op.bits = 0x73#7 ∧ decode p w = .ok x ∧
        x = .i op 0#5 0#3 0#5 ⟨raw⟩ ∧ immediateSigned x = some v ∧ sysLookup w = some name ∧ operands sysLookup x = []

/-- R212, R220: mnemonic and operand list of a decoded word, for any `LOOKUP` and `SYS_LOOKUP`. Asking `SYS_LOOKUP`
first, on the whole word, is the model's choice (log 15). -/
def Obligations.PresentationOfADecodedWord : Prop :=
  ∀ (p : Params) (w : Word) (x : Instruction p) (lookup : LookupKey → Option String) (sys : Word → Option String),
    decode p w = .ok x →
    (tagOf x ≠ .I → mnemonic lookup sys x = lookup (lookupKey x)) ∧
    (tagOf x = .I → mnemonic lookup sys x = (match sys w with | some n => some n | none => lookup (lookupKey x))) ∧
    (tagOf x = .R → operands sys x =
      [.reg (w.extractLsb' 7 5), .reg (w.extractLsb' 15 5), .reg (w.extractLsb' 20 5)]) ∧
    (tagOf x = .I → (∃ n, sys w = some n) → operands sys x = []) ∧
    (∀ v, immediateSigned x = some v →
      (tagOf x = .I → sys w = none → operands sys x = [.reg (w.extractLsb' 7 5), .reg (w.extractLsb' 15 5), .imm v]) ∧
      (tagOf x = .S → operands sys x = [.reg (w.extractLsb' 20 5), .imm v, .reg (w.extractLsb' 15 5)]) ∧
      (tagOf x = .B → operands sys x = [.reg (w.extractLsb' 15 5), .reg (w.extractLsb' 20 5), .imm v]) ∧
      (tagOf x = .U ∨ tagOf x = .J → operands sys x = [.reg (w.extractLsb' 7 5), .imm v]))

/-- `SYS_LOOKUP` matches exactly the six words, on all 32 bits (R213), and those words are the only ones of the six
system rows. -/
def Obligations.SystemLookupMatchesWholeWords : Prop :=
  (∀ (w : Word) (name : String), sysLookup w = some name ↔ (w, name) ∈ systemWords) ∧
  (∀ (p : Params) (w : Word) (i : Instr), decodeWord p w = .ok i →
    ((sysLookup w).isSome = true ↔ i ∈ [Instr.ecall, .ebreak, .wfi, .mret, .sret, .dret]))

/-- No operation and no step returns `UnrecognizedExtension` (R235, 93 U13; model's choice, log 16): the classifier and
its tables, the validators, the immediate operations, the fronts, the six decoders, the six constructors with every
opcode, `Decode`, the row decoder, `Build`, and every step. -/
def Obligations.UnrecognizedExtensionIsNeverReturned : Prop :=
  (∀ (p : Params) (raw : BitVec 8) (key : Key) (o : OpcodeBits),
    opcodeFromRaw p raw ≠ .error .unrecognizedExtension ∧ formatOfKey key ≠ .error .unrecognizedExtension ∧
    Machine.sizeOf p o ≠ .error .unrecognizedExtension ∧
    regFromRaw raw ≠ .error .unrecognizedExtension ∧ funct3FromRaw raw ≠ .error .unrecognizedExtension ∧
    funct7FromRaw raw ≠ .error .unrecognizedExtension) ∧
  (∀ (start width : Nat) (v : Int) (bits : BitVec 32),
    immFromSigned start width v ≠ .error .unrecognizedExtension ∧
    immFromRawBits start width bits ≠ .error .unrecognizedExtension) ∧
  (∀ (p : Params) (t : Format) (w : Word) (i : Instr) (op : Opcode p),
    variantFront p w t ≠ .error .unrecognizedExtension ∧ constructFront op t ≠ .error .unrecognizedExtension ∧
    decodeAs p t w ≠ .error .unrecognizedExtension ∧ decode p w ≠ .error .unrecognizedExtension ∧
    decodeWord p w ≠ .error .unrecognizedExtension ∧
    instructionOf p i ≠ .error .unrecognizedExtension) ∧
  (∀ (p : Params) (op : Opcode p) (rd rs1 rs2 : Register) (f3 : Funct3) (f7 : Funct7) (v : Int),
    makeR op rd f3 rs1 rs2 f7 ≠ .error .unrecognizedExtension ∧
    makeI op rd f3 rs1 v ≠ .error .unrecognizedExtension ∧
    makeS op f3 rs1 rs2 v ≠ .error .unrecognizedExtension ∧
    makeB op f3 rs1 rs2 v ≠ .error .unrecognizedExtension ∧
    makeU op rd v ≠ .error .unrecognizedExtension ∧ makeJ op rd v ≠ .error .unrecognizedExtension) ∧
  (∀ (p : Params) (b : BuildInput p), build b ≠ .error .unrecognizedExtension) ∧
  (∀ s t : State, step s = .next t → t.out ≠ some (.error .unrecognizedExtension))

/-! ## The rows on the machine -/

/-- A step runs the decoded instruction: in Ready, when the next four bytes are a word that decodes to a row, the step is
`exec` of that row after the four bytes are consumed (R192), on a finite source and on an endless one. -/
def Obligations.StepRunsTheDecodedInstruction : Prop :=
  ∀ (s : State) (w : Word) (i : Instr), s.st = .ready → NextWord s w → decodeWord s.params w = .ok i →
    step s = exec i { s with source := s.source.drop 4, pos := s.pos + 4 }

/-- Completion and frame of all 17 rows at once (R192 step 5, R197), for every operand and every state whose `SIZE_OF`
gives the row's opcode `Size32`: the record of the Instruction with the row's word and the counter's value, the counter
advanced by 32 modulo `2 ^ ADDR_W` (the wrap is the model's choice, log 3), and everything else unchanged: `st`, the
unread bytes, the position, the start address and the parameters. A term whose opcode has another size is no
Instruction of that block and fails as its word does (log 26). -/
def Obligations.EveryRowYieldsItsRecordAndNothingElse : Prop :=
  ∀ (i : Instr) (s : State),
    (sizeTableOf s.params (rowBits i) = some .size32 →
      ∃ x : Instruction s.params, decode s.params (encode i) = .ok x ∧ encodeInstruction x = encode i ∧
        exec i s = .next { s with
          addr := (s.addr + 32) % 2 ^ s.params.addrWidth
          out := some (.item ⟨x, s.addr⟩) }) ∧
    (sizeTableOf s.params (rowBits i) ≠ some .size32 →
      ∃ e, decode s.params (encode i) = .error e ∧
        exec i s = .next { s with st := .failed, out := some (.error e) })

/-- R130 to R132: the R-format words, at every field value, complete with the record of their fields (`afterRecord`). -/
def Obligations.RFormatWordsCompleteWithTheirRecord : Prop :=
  ∀ (s : State) (w : Word), s.st = .ready → NextWord s w → sizeTableOf s.params (wordOpcode w) = some .size32 →
    ∀ (rd rs1 rs2 : Register) (f3 : Funct3) (f7 : Funct7), rd = w.extractLsb' 7 5 → rs1 = w.extractLsb' 15 5 →
    rs2 = w.extractLsb' 20 5 → f3 = w.extractLsb' 12 3 → f7 = w.extractLsb' 25 7 →
    (w.extractLsb' 2 5 = 0b01100#5 → ∃ op : VariantOpcode s.params .R, op.bits = w.extractLsb' 0 7 ∧
      exec (.r33 (w.extractLsb' 0 2) rd f3 rs1 rs2 f7) (consumed 4 s) =
        .next (afterRecord (.r op rd f3 rs1 rs2 f7) s) ∧
      step s = .next (afterRecord (.r op rd f3 rs1 rs2 f7) s)) ∧
    (w.extractLsb' 2 5 = 0b01011#5 → ∃ op : VariantOpcode s.params .R, op.bits = w.extractLsb' 0 7 ∧
      exec (.r2F (w.extractLsb' 0 2) rd f3 rs1 rs2 f7) (consumed 4 s) =
        .next (afterRecord (.r op rd f3 rs1 rs2 f7) s) ∧
      step s = .next (afterRecord (.r op rd f3 rs1 rs2 f7) s)) ∧
    (w.extractLsb' 2 5 = 0b01110#5 → ∃ op : VariantOpcode s.params .R, op.bits = w.extractLsb' 0 7 ∧
      exec (.r3B (w.extractLsb' 0 2) rd f3 rs1 rs2 f7) (consumed 4 s) =
        .next (afterRecord (.r op rd f3 rs1 rs2 f7) s) ∧
      step s = .next (afterRecord (.r op rd f3 rs1 rs2 f7) s))

/-- R125 to R128: the I-format words, at every field value, complete with the record of their fields and the whole
12-bit immediate; a word of key 11100 is row I.0x73 unless it is one of the six system words (log 14). -/
def Obligations.IFormatWordsCompleteWithTheirRecord : Prop :=
  ∀ (s : State) (w : Word), s.st = .ready → NextWord s w → sizeTableOf s.params (wordOpcode w) = some .size32 →
    ∀ (rd rs1 : Register) (f3 : Funct3) (imm : Imm0to11), rd = w.extractLsb' 7 5 → rs1 = w.extractLsb' 15 5 →
    f3 = w.extractLsb' 12 3 → imm = ⟨w.extractLsb' 20 12⟩ →
    (w.extractLsb' 2 5 = 0b00100#5 → ∃ op : VariantOpcode s.params .I, op.bits = w.extractLsb' 0 7 ∧
      exec (.i13 (w.extractLsb' 0 2) rd f3 rs1 imm) (consumed 4 s) =
        .next (afterRecord (.i op rd f3 rs1 imm) s) ∧
      step s = .next (afterRecord (.i op rd f3 rs1 imm) s)) ∧
    (w.extractLsb' 2 5 = 0b00000#5 → ∃ op : VariantOpcode s.params .I, op.bits = w.extractLsb' 0 7 ∧
      exec (.i03 (w.extractLsb' 0 2) rd f3 rs1 imm) (consumed 4 s) =
        .next (afterRecord (.i op rd f3 rs1 imm) s) ∧
      step s = .next (afterRecord (.i op rd f3 rs1 imm) s)) ∧
    (w.extractLsb' 2 5 = 0b11001#5 → ∃ op : VariantOpcode s.params .I, op.bits = w.extractLsb' 0 7 ∧
      exec (.i67 (w.extractLsb' 0 2) rd f3 rs1 imm) (consumed 4 s) =
        .next (afterRecord (.i op rd f3 rs1 imm) s) ∧
      step s = .next (afterRecord (.i op rd f3 rs1 imm) s)) ∧
    (w.extractLsb' 2 5 = 0b11100#5 → (∀ name, (w, name) ∉ systemWords) →
      ∃ op : VariantOpcode s.params .I, op.bits = w.extractLsb' 0 7 ∧
      exec (.i73 (w.extractLsb' 0 2) rd f3 rs1 imm) (consumed 4 s) =
        .next (afterRecord (.i op rd f3 rs1 imm) s) ∧
      step s = .next (afterRecord (.i op rd f3 rs1 imm) s))

/-- R124, R129, R133, R134: the S, B, U and J words, at every field value, complete with the record of their fields, the
immediate gathered as R55 lists it; no memory is touched and the unit is not redirected. -/
def Obligations.SBUJFormatWordsCompleteWithTheirRecord : Prop :=
  ∀ (s : State) (w : Word), s.st = .ready → NextWord s w → sizeTableOf s.params (wordOpcode w) = some .size32 →
    ∀ (rd rs1 rs2 : Register) (f3 : Funct3), rd = w.extractLsb' 7 5 → rs1 = w.extractLsb' 15 5 →
    rs2 = w.extractLsb' 20 5 → f3 = w.extractLsb' 12 3 →
    (w.extractLsb' 2 5 = 0b01000#5 →
      ∃ (op : VariantOpcode s.params .S) (imm : Imm0to11), op.bits = w.extractLsb' 0 7 ∧
      imm = ⟨w.extractLsb' 25 7 ++ w.extractLsb' 7 5⟩ ∧
      exec (.s23 (w.extractLsb' 0 2) f3 rs1 rs2 imm) (consumed 4 s) =
        .next (afterRecord (.s op f3 rs1 rs2 imm) s) ∧
      step s = .next (afterRecord (.s op f3 rs1 rs2 imm) s)) ∧
    (w.extractLsb' 2 5 = 0b11000#5 →
      ∃ (op : VariantOpcode s.params .B) (imm : Imm1to12), op.bits = w.extractLsb' 0 7 ∧
      imm = ⟨w.extractLsb' 31 1 ++ w.extractLsb' 7 1 ++ w.extractLsb' 25 6 ++ w.extractLsb' 8 4⟩ ∧
      exec (.b63 (w.extractLsb' 0 2) f3 rs1 rs2 imm) (consumed 4 s) =
        .next (afterRecord (.b op f3 rs1 rs2 imm) s) ∧
      step s = .next (afterRecord (.b op f3 rs1 rs2 imm) s)) ∧
    (w.extractLsb' 2 5 = 0b01101#5 →
      ∃ (op : VariantOpcode s.params .U) (imm : Imm12to31), op.bits = w.extractLsb' 0 7 ∧
      imm = ⟨w.extractLsb' 12 20⟩ ∧
      exec (.u37 (w.extractLsb' 0 2) rd imm) (consumed 4 s) =
        .next (afterRecord (.u op rd imm) s) ∧
      step s = .next (afterRecord (.u op rd imm) s)) ∧
    (w.extractLsb' 2 5 = 0b11011#5 →
      ∃ (op : VariantOpcode s.params .J) (imm : Imm1to20), op.bits = w.extractLsb' 0 7 ∧
      imm = ⟨w.extractLsb' 31 1 ++ w.extractLsb' 12 8 ++ w.extractLsb' 20 1 ++ w.extractLsb' 21 10⟩ ∧
      exec (.j6F (w.extractLsb' 0 2) rd imm) (consumed 4 s) =
        .next (afterRecord (.j op rd imm) s) ∧
      step s = .next (afterRecord (.j op rd imm) s))

/-- R213 to R219: the six system words complete like any other word of key 11100: a record of the I variant, `st` still
Ready; nothing traps, waits or returns. -/
def Obligations.SystemWordsCompleteWithTheirRecord : Prop :=
  ∀ (s : State) (w : Word) (i : Instr) (raw : BitVec 12), s.st = .ready →
    sizeTableOf s.params 0x73#7 = some .size32 → NextWord s w →
    (w, i, raw) ∈
      [(0x00000073#32, Instr.ecall, 0x000#12), (0x00100073#32, .ebreak, 0x001#12), (0x10500073#32, .wfi, 0x105#12),
        (0x30200073#32, .mret, 0x302#12), (0x10200073#32, .sret, 0x102#12), (0x7B200073#32, .dret, 0x7B2#12)] →
    ∃ op : VariantOpcode s.params .I, op.bits = 0x73#7 ∧
      exec i (consumed 4 s) = .next (afterRecord (.i op 0#5 0#3 0#5 ⟨raw⟩) s) ∧
      step s = .next (afterRecord (.i op 0#5 0#3 0#5 ⟨raw⟩) s)

/-! ## The stream unit -/

/-- R193: at the end of the source the unit ends cleanly. -/
def Obligations.CleanEndOfStream : Prop :=
  ∀ s : State, s.st = .ready → s.source.peek 0 = none → step s = .next { s with st := .ended, out := some .done }

/-- R194: a first byte whose size is not `Size32` fails after that one byte, whatever its key; bit 7 of the byte plays
no part. That the counter stays is the model's choice (log 5). -/
def Obligations.WrongSizeFailsAfterOneByte : Prop :=
  ∀ (s : State) (b0 : Byte), s.st = .ready → s.source.peek 0 = some b0 →
    (sizeTableOf s.params (b0.extractLsb' 0 7) = none →
      step s = .next { s with
        st := .failed, source := s.source.drop 1, pos := s.pos + 1
        out := some (.error .unrecognizedInstructionSize) }) ∧
    (∀ sz, sizeTableOf s.params (b0.extractLsb' 0 7) = some sz → sz ≠ .size32 →
      step s = .next { s with
        st := .failed, source := s.source.drop 1, pos := s.pos + 1
        out := some (.error (.unsupportedInstructionSize sz)) })

/-- R195: a source that ends after `n` = 1, 2 or 3 bytes of a word fails with `UnexpectedEof`; the bytes are lost and the
counter is unchanged. -/
def Obligations.TruncatedWordFails : Prop :=
  ∀ (s : State) (b0 : Byte) (n : Nat), s.st = .ready → s.source.peek 0 = some b0 →
    sizeTableOf s.params (b0.extractLsb' 0 7) = some .size32 → 1 ≤ n → n ≤ 3 →
    (∀ k, k < n → s.source.peek k ≠ none) → s.source.peek n = none →
    step s = .next { s with
      st := .failed, source := s.source.drop n, pos := s.pos + n, out := some (.error .unexpectedEof) }

/-- R196: a word of size `Size32` that does not decode fails after its four bytes, with the format error, which is the
only one left. That the counter stays is the model's choice (log 5). -/
def Obligations.UndecodableWordFails : Prop :=
  ∀ (s : State) (w : Word) (e : DecodeError), s.st = .ready → NextWord s w →
    sizeTableOf s.params (wordOpcode w) = some .size32 → decode s.params w = .error e →
    e = .unrecognizedInstructionFormat ∧
    step s = .next { s with st := .failed, source := s.source.drop 4, pos := s.pos + 4, out := some (.error e) }

/-- R198: Ended and Failed are absorbing; every later poll answers End (model's choice, log 20) and changes nothing
but the output port. -/
def Obligations.TerminalStatesAnswerEndForEver : Prop :=
  ∀ (s : State) (k : Nat), s.st ≠ .ready →
    runOutputs k s = List.replicate k .done ∧ runState (k + 1) s = { s with out := some .done }

/-- Every step of every state gives a next state with exactly one output, of the three shapes of R191: no fault and no
refusal. Two things here are the model's and no rule's words: that a poll of an Ended or Failed state answers at all is
the model's choice (92 D15, log 20), and that an error is an output of a next state and never a host stop is read from
R240 by inference (DEDUCED, log 17). -/
def Obligations.EveryStepAnswersOneOutput : Prop :=
  ∀ s : State, ∃ (t : State) (o : StreamOutput), step s = .next t ∧ t.out = some o

/-- R34, R37(a): which bytes a step consumes, per outcome; they are the next ones of the source, in order, and never
come back. The parameters and the start address never change (R14). That a poll after the end answers End with no byte
consumed is the model's choice (log 20). -/
def Obligations.StepsConsumeTheirBytesInOrder : Prop :=
  ∀ s t : State, step s = .next t →
    t.params = s.params ∧ t.cfgStartAddr = s.cfgStartAddr ∧
    ∃ n, (∀ k, k < n → s.source.peek k ≠ none) ∧ (∀ k, t.source.peek k = s.source.peek (n + k)) ∧
      t.source = s.source.drop n ∧ t.pos = s.pos + n ∧
      ((t.out = some .done ∧ n = 0 ∧ t.st ≠ .ready) ∨
        ((∃ rec, t.out = some (.item rec)) ∧ n = 4 ∧ t.st = .ready) ∨
        (t.out = some (.error .unrecognizedInstructionSize) ∧ n = 1 ∧ t.st = .failed) ∨
        ((∃ sz, sz ≠ .size32 ∧ t.out = some (.error (.unsupportedInstructionSize sz))) ∧ n = 1 ∧ t.st = .failed) ∨
        (t.out = some (.error .unexpectedEof) ∧ 1 ≤ n ∧ n ≤ 3 ∧ s.source.peek n = none ∧ t.st = .failed) ∨
        (t.out = some (.error .unrecognizedInstructionFormat) ∧ n = 4 ∧ t.st = .failed))

/-- R12, R197: only a step that yields a record moves the counter, and the record carries the value before the
addition. The wrap, the step 32, the standstill on a failure and the poll after the end are the model's choices (logs 3,
4, 5 and 20). -/
def Obligations.CounterMovesOnlyWithARecord : Prop :=
  ∀ s t : State, step s = .next t →
    (∀ rec, t.out = some (.item rec) →
      rec.address = s.addr ∧ t.addr = (s.addr + 32) % 2 ^ s.params.addrWidth) ∧
    ((∀ rec, t.out ≠ some (.item rec)) → t.addr = s.addr)

/-- R26, R260: what reset leaves, for any source and any start address of `ADDR_W` bits. -/
def Obligations.ResetLeavesAFreshInstance : Prop :=
  (∀ (p : Params) (start : Nat) (src : Source), start < 2 ^ p.addrWidth →
    (State.construct p start src).st = .ready ∧ (State.construct p start src).addr = start ∧
    (State.construct p start src).cfgStartAddr = start ∧ (State.construct p start src).source = src ∧
    (State.construct p start src).pos = 0) ∧
  State.reset.st = .ready ∧ State.reset.addr = 0 ∧ State.reset.pos = 0

/-- The invariant holds after every reset, whatever the source and the start address are. -/
def Obligations.StreamInvariantHoldsAfterReset : Prop :=
  (∀ (p : Params) (start : Nat) (src : Source), paramsWf p → StreamInv (State.construct p start src)) ∧
  StreamInv State.reset

/-- Every step keeps the invariant: the counter is `CFG_START_ADDR + 32 * records` modulo `2 ^ ADDR_W` (R12, R37(b),
R197), the position is at a word boundary until a failure (R33), the yielded Instruction satisfies R23, and the output
fits the state (R193 to R198). The wrap, the step 32, the standstill on a failure and the poll after the end are the
model's choices (logs 3, 4, 5 and 20). -/
def Obligations.StreamInvariantIsKeptByEveryStep : Prop :=
  ∀ s t : State, StreamInv s → step s = .next t → StreamInv t

/-- R37(b), R200, R201: an instance over the bytes of any list of Instructions of its block, followed by fewer than four
bytes and the end, yields exactly their records at `CFG_START_ADDR + 32 * k` modulo `2 ^ ADDR_W`, then what the leftover
calls for (End, or one error), then End for ever. -/
def Obligations.StreamYieldsTheEncodedInstructions : Prop :=
  ∀ (p : Params) (start : Nat) (prog : List (Instruction p)) (leftover : List Byte) (k : Nat), leftover.length < 4 →
    runOutputs (prog.length + 1 + k)
        (State.construct p start ⟨prog.flatMap (fun x => wordBytes (encodeInstruction x)) ++ leftover, .ends⟩) =
      prog.mapIdx (fun n x => .item ⟨x, (start + 32 * n) % 2 ^ p.addrWidth⟩) ++
        leftoverOutput p leftover :: List.replicate k .done

/-- R200: the outputs of any instance polled any number of times are records, then at most one error, then End for
ever; and a run in which an End or an error was seen is over (R201). -/
def Obligations.RunsAreRecordsThenAtMostOneErrorThenEnd : Prop :=
  ∀ (s : State) (k : Nat), ∃ (recs : List InstructionRecord) (tail : List StreamOutput) (n : Nat),
    runOutputs k s = recs.map .item ++ tail ∧
    (tail = List.replicate n .done ∨ ∃ e, StreamError e ∧ tail = .error e :: List.replicate n .done) ∧
    (tail ≠ [] → runOver (runState k s) = true)

/-- R31, R37: bytes that stand behind what a step consumes change neither its output nor its effect, unless the step met
the end of the source: a step from any other instance that agrees on the parameters, `st`, the counter and those bytes
answers alike and leaves its own source behind them, whether that source ends or not. -/
def Obligations.BytesBehindAWordDoNotMatter : Prop :=
  ∀ (s s' t : State) (n : Nat), s.st = .ready → step s = .next t →
    t.out ≠ some .done → t.out ≠ some (.error .unexpectedEof) → t.pos = s.pos + n →
    s'.params = s.params → s'.st = s.st → s'.addr = s.addr →
    (∀ k, k < n → s'.source.peek k = s.source.peek k) →
    step s' = .next { s' with
      st := t.st, addr := t.addr, out := t.out, source := s'.source.drop n, pos := s'.pos + n }

/-- R10: a step "is a pure function of the next bytes in the source plus the running address counter": two instances
that agree on `st`, `addr`, the unread bytes and the parameters answer alike for ever, whatever they consumed before.
That a poll after the end answers at all is the model's choice (log 20). -/
def Obligations.OutputsDependOnlyOnTheUnreadBytesAndTheCounter : Prop :=
  ∀ (s t : State) (k : Nat), s.params = t.params → s.st = t.st → s.addr = t.addr →
    (∀ j, s.source.peek j = t.source.peek j) → runOutputs k s = runOutputs k t

/-- R200 with 92 D10: over an endless source an instance yields records for ever, the k-th being that of word k of the
source at `CFG_START_ADDR + 32 * k`, as long as the words decode; it never meets the end of the source, so its outputs
hold no `UnexpectedEof`, and an End only after an error (the poll after it is the model's choice, log 20; the wrap and
the step of the counter are logs 3 and 4). -/
def Obligations.EndlessSourcesYieldRecordsForEver : Prop :=
  ∀ (p : Params) (start : Nat) (src : Source), Endless src →
    (∀ x : Nat → Instruction p,
      (∀ k, ∃ w, NextWord (consumed (4 * k) (State.construct p start src)) w ∧ decode p w = .ok (x k)) →
      ∀ n, runOutputs n (State.construct p start src) =
          (List.range n).map (fun k => .item ⟨x k, (start + 32 * k) % 2 ^ p.addrWidth⟩) ∧
        (runState n (State.construct p start src)).st = .ready ∧
        (runState n (State.construct p start src)).pos = 4 * n) ∧
    (∀ n, .error .unexpectedEof ∉ runOutputs n (State.construct p start src)) ∧
    (∀ n, .done ∈ runOutputs n (State.construct p start src) →
      ∃ e, .error e ∈ runOutputs n (State.construct p start src))
end

