-- ==== Sys2Proof/Laws/Fields.lean ====
section
/-! SUPPORT. Bit-field lemmas: what the extraction, insertion, gather and scatter functions do (spec/40_primitives.md,
30_encoding.md R46, R55, R56). -/

namespace Sys2Proof.Laws

open Machine

theorem regFromWord_eq_slice (w : Word) (off : Nat) : regFromWord w off = w.extractLsb' off 5 := by
  ext k hk
  unfold regFromWord
  interval_cases k <;> simp

theorem funct3FromWord_eq_slice (w : Word) : funct3FromWord w = w.extractLsb' 12 3 := by
  ext k hk
  unfold funct3FromWord
  interval_cases k <;> simp

theorem funct7FromWord_eq_slice (w : Word) : funct7FromWord w = w.extractLsb' 25 7 := by
  ext k hk
  unfold funct7FromWord
  interval_cases k <;> simp

/-- The 5-step decode's check of the gathered pattern passes whenever the field is narrower than the port (R55, R102). -/
theorem immFromRawBits_of_field {width : Nat} (start : Nat) (r : BitVec width) (h : width ≤ 32) :
    immFromRawBits start width (r.setWidth 32) = .ok ⟨r⟩ := by
  have hr : (r.setWidth 32).toNat = r.toNat := by
    rw [BitVec.toNat_setWidth]
    exact Nat.mod_eq_of_lt (lt_of_lt_of_le r.isLt (Nat.pow_le_pow_right (by norm_num) h))
  have hlt : ¬ 2 ^ width ≤ (r.setWidth 32).toNat := by rw [hr]; exact not_le.mpr r.isLt
  unfold immFromRawBits
  rw [if_neg hlt, BitVec.setWidth_setWidth_of_le r h, BitVec.setWidth_eq]

theorem immFromRawBits_gatherI (w : Word) :
    immFromRawBits 0 12 ((gatherI w).setWidth 32) = .ok ⟨gatherI w⟩ := immFromRawBits_of_field _ _ (by norm_num)

theorem immFromRawBits_gatherS (w : Word) :
    immFromRawBits 0 12 ((gatherS w).setWidth 32) = .ok ⟨gatherS w⟩ := immFromRawBits_of_field _ _ (by norm_num)

theorem immFromRawBits_gatherB (w : Word) :
    immFromRawBits 1 12 ((gatherB w).setWidth 32) = .ok ⟨gatherB w⟩ := immFromRawBits_of_field _ _ (by norm_num)

theorem immFromRawBits_gatherU (w : Word) :
    immFromRawBits 12 20 ((gatherU w).setWidth 32) = .ok ⟨gatherU w⟩ := immFromRawBits_of_field _ _ (by norm_num)

theorem immFromRawBits_gatherJ (w : Word) :
    immFromRawBits 1 20 ((gatherJ w).setWidth 32) = .ok ⟨gatherJ w⟩ := immFromRawBits_of_field _ _ (by norm_num)

/-! Where each bit of a gathered pattern comes from (R55). -/

theorem gatherI_bit (w : Word) (k : Nat) : (gatherI w).getLsbD k = (decide (k < 12) && w.getLsbD (20 + k)) := by
  unfold gatherI
  rw [BitVec.getLsbD_extractLsb']

theorem gatherS_bit (w : Word) (k : Nat) :
    (gatherS w).getLsbD k =
      if k < 5 then decide (k < 5) && w.getLsbD (7 + k) else decide (k - 5 < 7) && w.getLsbD (25 + (k - 5)) := by
  unfold gatherS
  rw [BitVec.getLsbD_append, BitVec.getLsbD_extractLsb', BitVec.getLsbD_extractLsb']

theorem gatherB_bit (w : Word) (k : Nat) :
    (gatherB w).getLsbD k =
      if k < 4 then decide (k < 4) && w.getLsbD (8 + k)
      else if k - 4 < 6 then decide (k - 4 < 6) && w.getLsbD (25 + (k - 4))
      else if k - 4 - 6 < 1 then decide (k - 4 - 6 < 1) && w.getLsbD (7 + (k - 4 - 6))
      else decide (k - 4 - 6 - 1 < 1) && w.getLsbD (31 + (k - 4 - 6 - 1)) := by
  unfold gatherB
  rw [BitVec.getLsbD_append, BitVec.getLsbD_append, BitVec.getLsbD_append, BitVec.getLsbD_extractLsb',
    BitVec.getLsbD_extractLsb', BitVec.getLsbD_extractLsb', BitVec.getLsbD_extractLsb']

theorem gatherU_bit (w : Word) (k : Nat) : (gatherU w).getLsbD k = (decide (k < 20) && w.getLsbD (12 + k)) := by
  unfold gatherU
  rw [BitVec.getLsbD_extractLsb']

theorem gatherJ_bit (w : Word) (k : Nat) :
    (gatherJ w).getLsbD k =
      if k < 10 then decide (k < 10) && w.getLsbD (21 + k)
      else if k - 10 < 1 then decide (k - 10 < 1) && w.getLsbD (20 + (k - 10))
      else if k - 10 - 1 < 8 then decide (k - 10 - 1 < 8) && w.getLsbD (12 + (k - 10 - 1))
      else decide (k - 10 - 1 - 8 < 1) && w.getLsbD (31 + (k - 10 - 1 - 8)) := by
  unfold gatherJ
  rw [BitVec.getLsbD_append, BitVec.getLsbD_append, BitVec.getLsbD_append, BitVec.getLsbD_extractLsb',
    BitVec.getLsbD_extractLsb', BitVec.getLsbD_extractLsb', BitVec.getLsbD_extractLsb']

theorem gatherI_getElem (w : Word) (k : Nat) (h : k < 12) :
    (gatherI w)[k] =
      (decide (k < 12) && w.getLsbD (20 + k)) :=
  (BitVec.getLsbD_eq_getElem h).symm.trans (gatherI_bit w k)

theorem gatherS_getElem (w : Word) (k : Nat) (h : k < 12) :
    (gatherS w)[k] =
      if k < 5 then decide (k < 5) && w.getLsbD (7 + k) else decide (k - 5 < 7) && w.getLsbD (25 + (k - 5)) :=
  (BitVec.getLsbD_eq_getElem h).symm.trans (gatherS_bit w k)

theorem gatherB_getElem (w : Word) (k : Nat) (h : k < 12) :
    (gatherB w)[k] =
      if k < 4 then decide (k < 4) && w.getLsbD (8 + k)
      else if k - 4 < 6 then decide (k - 4 < 6) && w.getLsbD (25 + (k - 4))
      else if k - 4 - 6 < 1 then decide (k - 4 - 6 < 1) && w.getLsbD (7 + (k - 4 - 6))
      else decide (k - 4 - 6 - 1 < 1) && w.getLsbD (31 + (k - 4 - 6 - 1)) :=
  (BitVec.getLsbD_eq_getElem h).symm.trans (gatherB_bit w k)

theorem gatherU_getElem (w : Word) (k : Nat) (h : k < 20) :
    (gatherU w)[k] =
      (decide (k < 20) && w.getLsbD (12 + k)) :=
  (BitVec.getLsbD_eq_getElem h).symm.trans (gatherU_bit w k)

theorem gatherJ_getElem (w : Word) (k : Nat) (h : k < 20) :
    (gatherJ w)[k] =
      if k < 10 then decide (k < 10) && w.getLsbD (21 + k)
      else if k - 10 < 1 then decide (k - 10 < 1) && w.getLsbD (20 + (k - 10))
      else if k - 10 - 1 < 8 then decide (k - 10 - 1 < 8) && w.getLsbD (12 + (k - 10 - 1))
      else decide (k - 10 - 1 - 8 < 1) && w.getLsbD (31 + (k - 10 - 1 - 8)) :=
  (BitVec.getLsbD_eq_getElem h).symm.trans (gatherJ_bit w k)

/-! Gather after scatter (R56: "the exact inverse of rule R55"), and an encoder's other fields. -/

/-- Format R: every field of the word is the field that went in. -/
theorem encodeR_fields (op : OpcodeBits) (rd : Register) (f3 : Funct3) (rs1 rs2 : Register) (f7 : Funct7) :
    wordOpcode (encodeR op rd f3 rs1 rs2 f7) = op ∧
      regFromWord (encodeR op rd f3 rs1 rs2 f7) rdOffset = rd ∧
      funct3FromWord (encodeR op rd f3 rs1 rs2 f7) = f3 ∧
      regFromWord (encodeR op rd f3 rs1 rs2 f7) rs1Offset = rs1 ∧
      regFromWord (encodeR op rd f3 rs1 rs2 f7) rs2Offset = rs2 ∧
      funct7FromWord (encodeR op rd f3 rs1 rs2 f7) = f7 := by
  simp only [regFromWord_eq_slice, funct3FromWord_eq_slice, funct7FromWord_eq_slice]
  refine ⟨?_, ?_, ?_, ?_, ?_, ?_⟩
  all_goals
    apply BitVec.eq_of_getLsbD_eq
    intro k hk
    simp only [wordOpcode, BitVec.getLsbD_extractLsb', encodeR, opcodeToWord, regToWord, funct3ToWord, funct7ToWord, rdOffset, rs1Offset, rs2Offset]
    interval_cases k <;> simp

/-- Format I: every field of the word is the field that went in. -/
theorem encodeI_fields (op : OpcodeBits) (rd : Register) (f3 : Funct3) (rs1 : Register) (imm : Imm0to11) :
    wordOpcode (encodeI op rd f3 rs1 imm) = op ∧
      regFromWord (encodeI op rd f3 rs1 imm) rdOffset = rd ∧
      funct3FromWord (encodeI op rd f3 rs1 imm) = f3 ∧
      regFromWord (encodeI op rd f3 rs1 imm) rs1Offset = rs1 ∧
      gatherI (encodeI op rd f3 rs1 imm) = imm.raw := by
  simp only [regFromWord_eq_slice, funct3FromWord_eq_slice]
  refine ⟨?_, ?_, ?_, ?_, ?_⟩
  all_goals
    apply BitVec.eq_of_getLsbD_eq
    intro k hk
    simp only [wordOpcode, gatherI_bit, BitVec.getLsbD_extractLsb', encodeI, opcodeToWord, regToWord, funct3ToWord, scatterI, rdOffset, rs1Offset]
    interval_cases k <;> simp

/-- Format S: every field of the word is the field that went in. -/
theorem encodeS_fields (op : OpcodeBits) (f3 : Funct3) (rs1 rs2 : Register) (imm : Imm0to11) :
    wordOpcode (encodeS op f3 rs1 rs2 imm) = op ∧
      funct3FromWord (encodeS op f3 rs1 rs2 imm) = f3 ∧
      regFromWord (encodeS op f3 rs1 rs2 imm) rs1Offset = rs1 ∧
      regFromWord (encodeS op f3 rs1 rs2 imm) rs2Offset = rs2 ∧
      gatherS (encodeS op f3 rs1 rs2 imm) = imm.raw := by
  simp only [regFromWord_eq_slice, funct3FromWord_eq_slice]
  refine ⟨?_, ?_, ?_, ?_, ?_⟩
  all_goals
    apply BitVec.eq_of_getLsbD_eq
    intro k hk
    simp only [wordOpcode, gatherS_bit, BitVec.getLsbD_extractLsb', encodeS, opcodeToWord, regToWord, funct3ToWord, scatterS, rs1Offset, rs2Offset]
    interval_cases k <;> simp

/-- Format B: every field of the word is the field that went in. -/
theorem encodeB_fields (op : OpcodeBits) (f3 : Funct3) (rs1 rs2 : Register) (imm : Imm1to12) :
    wordOpcode (encodeB op f3 rs1 rs2 imm) = op ∧
      funct3FromWord (encodeB op f3 rs1 rs2 imm) = f3 ∧
      regFromWord (encodeB op f3 rs1 rs2 imm) rs1Offset = rs1 ∧
      regFromWord (encodeB op f3 rs1 rs2 imm) rs2Offset = rs2 ∧
      gatherB (encodeB op f3 rs1 rs2 imm) = imm.raw := by
  simp only [regFromWord_eq_slice, funct3FromWord_eq_slice]
  refine ⟨?_, ?_, ?_, ?_, ?_⟩
  all_goals
    apply BitVec.eq_of_getLsbD_eq
    intro k hk
    simp only [wordOpcode, gatherB_bit, BitVec.getLsbD_extractLsb', encodeB, opcodeToWord, regToWord, funct3ToWord, scatterB, rs1Offset, rs2Offset]
    interval_cases k <;> simp

/-- Format U: every field of the word is the field that went in. -/
theorem encodeU_fields (op : OpcodeBits) (rd : Register) (imm : Imm12to31) :
    wordOpcode (encodeU op rd imm) = op ∧
      regFromWord (encodeU op rd imm) rdOffset = rd ∧
      gatherU (encodeU op rd imm) = imm.raw := by
  simp only [regFromWord_eq_slice]
  refine ⟨?_, ?_, ?_⟩
  all_goals
    apply BitVec.eq_of_getLsbD_eq
    intro k hk
    simp only [wordOpcode, gatherU_bit, BitVec.getLsbD_extractLsb', encodeU, opcodeToWord, regToWord, scatterU, rdOffset]
    interval_cases k <;> simp

/-- Format J: every field of the word is the field that went in. -/
theorem encodeJ_fields (op : OpcodeBits) (rd : Register) (imm : Imm1to20) :
    wordOpcode (encodeJ op rd imm) = op ∧
      regFromWord (encodeJ op rd imm) rdOffset = rd ∧
      gatherJ (encodeJ op rd imm) = imm.raw := by
  simp only [regFromWord_eq_slice]
  refine ⟨?_, ?_, ?_⟩
  all_goals
    apply BitVec.eq_of_getLsbD_eq
    intro k hk
    simp only [wordOpcode, gatherJ_bit, BitVec.getLsbD_extractLsb', encodeJ, opcodeToWord, regToWord, scatterJ, rdOffset]
    interval_cases k <;> simp

/-! Scatter after gather: an encoder puts a word's own fields back where they stood (R69). -/

/-- Format R. -/
theorem encodeR_of_fields (op : OpcodeBits) (w : Word) (h : op = wordOpcode w) :
    encodeR op (regFromWord w rdOffset) (funct3FromWord w) (regFromWord w rs1Offset) (regFromWord w rs2Offset) (funct7FromWord w) = w := by
  apply BitVec.eq_of_getLsbD_eq
  intro k hk
  simp only [encodeR, opcodeToWord, h, regToWord, funct3ToWord, funct7ToWord, rdOffset, rs1Offset, rs2Offset, wordOpcode, regFromWord_eq_slice, funct3FromWord_eq_slice, funct7FromWord_eq_slice]
  interval_cases k <;> simp

/-- Format I. -/
theorem encodeI_of_fields (op : OpcodeBits) (w : Word) (h : op = wordOpcode w) :
    encodeI op (regFromWord w rdOffset) (funct3FromWord w) (regFromWord w rs1Offset) ⟨gatherI w⟩ = w := by
  apply BitVec.eq_of_getLsbD_eq
  intro k hk
  simp only [encodeI, opcodeToWord, h, regToWord, funct3ToWord, scatterI, rdOffset, rs1Offset, wordOpcode, regFromWord_eq_slice, funct3FromWord_eq_slice]
  interval_cases k <;> simp [gatherI_getElem]

/-- Format S. -/
theorem encodeS_of_fields (op : OpcodeBits) (w : Word) (h : op = wordOpcode w) :
    encodeS op (funct3FromWord w) (regFromWord w rs1Offset) (regFromWord w rs2Offset) ⟨gatherS w⟩ = w := by
  apply BitVec.eq_of_getLsbD_eq
  intro k hk
  simp only [encodeS, opcodeToWord, h, regToWord, funct3ToWord, scatterS, rs1Offset, rs2Offset, wordOpcode, regFromWord_eq_slice, funct3FromWord_eq_slice]
  interval_cases k <;> simp [gatherS_getElem]

/-- Format B. -/
theorem encodeB_of_fields (op : OpcodeBits) (w : Word) (h : op = wordOpcode w) :
    encodeB op (funct3FromWord w) (regFromWord w rs1Offset) (regFromWord w rs2Offset) ⟨gatherB w⟩ = w := by
  apply BitVec.eq_of_getLsbD_eq
  intro k hk
  simp only [encodeB, opcodeToWord, h, regToWord, funct3ToWord, scatterB, rs1Offset, rs2Offset, wordOpcode, regFromWord_eq_slice, funct3FromWord_eq_slice]
  interval_cases k <;> simp [gatherB_getElem]

/-- Format U. -/
theorem encodeU_of_fields (op : OpcodeBits) (w : Word) (h : op = wordOpcode w) :
    encodeU op (regFromWord w rdOffset) ⟨gatherU w⟩ = w := by
  apply BitVec.eq_of_getLsbD_eq
  intro k hk
  simp only [encodeU, opcodeToWord, h, regToWord, scatterU, rdOffset, wordOpcode, regFromWord_eq_slice]
  interval_cases k <;> simp [gatherU_getElem]

/-- Format J. -/
theorem encodeJ_of_fields (op : OpcodeBits) (w : Word) (h : op = wordOpcode w) :
    encodeJ op (regFromWord w rdOffset) ⟨gatherJ w⟩ = w := by
  apply BitVec.eq_of_getLsbD_eq
  intro k hk
  simp only [encodeJ, opcodeToWord, h, regToWord, scatterJ, rdOffset, wordOpcode, regFromWord_eq_slice]
  interval_cases k <;> simp [gatherJ_getElem]

/-- Four bytes of a word assemble to the word (R32). -/
theorem assembleWord_wordBytes (w : Word) :
    assembleWord (w.extractLsb' 0 8) (w.extractLsb' 8 8) (w.extractLsb' 16 8) (w.extractLsb' 24 8) = w := by
  ext k hk
  unfold assembleWord
  interval_cases k <;> simp

/-- The first byte of a word carries its opcode (R194). -/
theorem wordOpcode_assembleWord (b0 b1 b2 b3 : Byte) : wordOpcode (assembleWord b0 b1 b2 b3) = byteOpcode b0 := by
  ext k hk
  unfold assembleWord wordOpcode byteOpcode
  interval_cases k <;> simp

end Sys2Proof.Laws
end

