-- ==== Sys2Proof/Laws/Codec.lean ====
section
/-! SUPPORT. What the classifier and the decoders answer, said once (spec/41_opcode_classifier.md R121 to R123;
42_format_codecs.md R135, R136; 43_union_builder.md R170). -/

namespace Sys2Proof.Laws

open Machine

/-- The format table, both ways (R58, R122). -/
theorem formatOfKey_ok_iff (key : Key) (f : Format) : formatOfKey key = .ok f ↔ (key, f) ∈ keyFormats := by
  revert key
  cases f <;> decide

/-- An unmapped key has one error (R59, R122). -/
theorem formatOfKey_error_iff (key : Key) (e : DecodeError) :
    formatOfKey key = .error e ↔ (∀ f, (key, f) ∉ keyFormats) ∧ e = .unrecognizedInstructionFormat := by
  have h : ∀ key : Key, (∃ f, formatOfKey key = .ok f ∧ (key, f) ∈ keyFormats) ∨
      (formatOfKey key = .error .unrecognizedInstructionFormat ∧ ∀ f, (key, f) ∉ keyFormats) := by
    intro key
    cases hk : formatOfKey key with
    | ok f => exact .inl ⟨f, rfl, (formatOfKey_ok_iff key f).mp hk⟩
    | error e' =>
      refine .inr ⟨?_, fun f hf => ?_⟩
      · unfold formatOfKey at hk
        split_ifs at hk
        cases hk
        rfl
      · rw [(formatOfKey_ok_iff key f).mpr hf] at hk
        cases hk
  rcases h key with ⟨f, hf, hm⟩ | ⟨he, hn⟩
  · rw [hf]
    exact ⟨fun h => (by cases h), fun h => absurd hm (h.1 f)⟩
  · rw [he]
    exact ⟨fun h => ⟨hn, by cases h; rfl⟩, fun h => by rw [h.2]⟩

/-- A mapped opcode has its one format. -/
theorem format_unique {o : OpcodeBits} {t u : Format} (h : formatOfKey (keyOf o) = .ok t)
    (h' : formatOfKey (keyOf o) = .ok u) : t = u := by
  rw [h] at h'
  exact Except.ok.inj h'

/-- When `SizeOf` answers, and with what (R61, R123). -/
theorem sizeOf_ok_iff (p : Params) (o : OpcodeBits) (sz : Size) :
    Machine.sizeOf p o = .ok sz ↔ sizeTableOf p o = some sz := by
  unfold Machine.sizeOf
  cases sizeTableOf p o <;> simp

/-- When `SizeOf` fails, and with what (R123). -/
theorem sizeOf_error_iff (p : Params) (o : OpcodeBits) (e : DecodeError) :
    Machine.sizeOf p o = .error e ↔ sizeTableOf p o = none ∧ e = .unrecognizedInstructionSize := by
  unfold Machine.sizeOf
  cases sizeTableOf p o <;> simp [eq_comm]

/-- "An Opcode is determined by its 7 bits" (R20). -/
theorem opcode_ext {p : Params} {a b : Opcode p} (hb : a.bits = b.bits) : a = b := by
  obtain ⟨bits, f, sz, h, hs⟩ := a
  obtain ⟨bits', f', sz', h', hs'⟩ := b
  simp only at hb
  subst hb
  obtain rfl := format_unique h h'
  rw [hs] at hs'
  cases hs'
  rfl

/-! What every Instruction satisfies by its type (R23, R179). -/

@[simp] theorem variantOpcode_bits {p : Params} {t : Format} (op : VariantOpcode p t) :
    (variantOpcode op).bits = op.bits := rfl

@[simp] theorem variantOpcode_format {p : Params} {t : Format} (op : VariantOpcode p t) :
    (variantOpcode op).format = t := rfl

@[simp] theorem variantOpcode_size {p : Params} {t : Format} (op : VariantOpcode p t) :
    (variantOpcode op).size = .size32 := rfl

@[simp] theorem opcodeOf_format {p : Params} (x : Instruction p) : (opcodeOf x).format = tagOf x := by
  cases x <;> rfl

@[simp] theorem opcodeOf_size {p : Params} (x : Instruction p) : (opcodeOf x).size = .size32 := by
  cases x <;> rfl

/-- The format table gives an Instruction's key its tag. -/
theorem opcodeOf_mapped {p : Params} (x : Instruction p) : formatOfKey (keyOf (opcodeOf x).bits) = .ok (tagOf x) :=
  (opcodeOf x).mapped.trans (congrArg Except.ok (opcodeOf_format x))

/-- `SIZE_OF` gives an Instruction's opcode `Size32`. -/
theorem opcodeOf_sized {p : Params} (x : Instruction p) : sizeTableOf p (opcodeOf x).bits = some .size32 :=
  (sizeOf_ok_iff _ _ _).mp ((opcodeOf x).sized.trans (congrArg Except.ok (opcodeOf_size x)))

/-- What `OpcodeFromRaw` accepts, and as what (R121). -/
theorem opcodeFromRaw_ok_iff (p : Params) (raw : BitVec 8) (op : Opcode p) :
    opcodeFromRaw p raw = .ok op ↔ raw.getLsbD 7 = false ∧ op.bits = raw.extractLsb' 0 7 := by
  unfold opcodeFromRaw
  cases h7 : raw.getLsbD 7 with
  | true => simp
  | false =>
    simp only [Bool.false_eq_true, if_false, true_and]
    split
    · rename_i e he
      refine ⟨fun h => (by cases h), fun h => ?_⟩
      rw [← h, op.mapped] at he
      cases he
    · split
      · rename_i e he
        refine ⟨fun h => (by cases h), fun h => ?_⟩
        rw [← h, op.sized] at he
        cases he
      · refine ⟨fun h => ?_, fun h => congrArg Except.ok (opcode_ext h.symm)⟩
        cases h
        rfl

/-- What `OpcodeFromRaw` refuses, and with what (R121). -/
theorem opcodeFromRaw_error_iff (p : Params) (raw : BitVec 8) (e : DecodeError) :
    opcodeFromRaw p raw = .error e ↔
      (raw.getLsbD 7 = true ∧ e = .invalidOpcode) ∨
      (raw.getLsbD 7 = false ∧ formatOfKey (keyOf (raw.extractLsb' 0 7)) = .error e) ∨
      (raw.getLsbD 7 = false ∧ (∃ f, formatOfKey (keyOf (raw.extractLsb' 0 7)) = .ok f) ∧
        sizeTableOf p (raw.extractLsb' 0 7) = none ∧ e = .unrecognizedInstructionSize) := by
  unfold opcodeFromRaw
  cases h7 : raw.getLsbD 7 with
  | true => simp [eq_comm]
  | false =>
    simp only [Bool.false_eq_true, if_false, false_and, true_and, false_or]
    split
    · rename_i e' he
      simp [he]
    · rename_i fmt hf
      split
      · rename_i e' hs
        obtain ⟨hn, rfl⟩ := (sizeOf_error_iff _ _ _).mp hs
        simp [hf, hn, eq_comm]
      · rename_i sz hs
        simp [hf, (sizeOf_ok_iff _ _ _).mp hs]

/-- The 7-bit opcode on the 8-bit port of the classifier: bit 7 is clear, so the bit-7 test never fires (R120, R121). -/
theorem raw_of_opcode (o : OpcodeBits) :
    (o.setWidth 8).getLsbD 7 = false ∧ (o.setWidth 8).extractLsb' 0 7 = o := by
  refine ⟨by simp, ?_⟩
  apply BitVec.eq_of_getLsbD_eq
  intro k hk
  interval_cases k <;> simp

/-- The classifier gives every Opcode back from its bits (R20). -/
theorem opcodeFromRaw_bits {p : Params} (op : Opcode p) : opcodeFromRaw p (op.bits.setWidth 8) = .ok op := by
  rw [opcodeFromRaw_ok_iff, (raw_of_opcode _).1, (raw_of_opcode _).2]
  exact ⟨rfl, rfl⟩

/-- What a variant's front accepts, and as what (R137). -/
theorem constructFront_ok_iff {p : Params} (op : Opcode p) (t : Format) (v : VariantOpcode p t) :
    constructFront op t = .ok v ↔ op.size = .size32 ∧ op.format = t ∧ v.bits = op.bits := by
  unfold constructFront
  split_ifs with h1 h2
  · refine ⟨fun h => ?_, fun h => congrArg Except.ok (VariantOpcode.ext h.2.2.symm)⟩
    cases h
    exact ⟨h1, h2, rfl⟩
  · simp [h2]
  · simp [h1]

/-- What a variant's front refuses, and with what (R137). -/
theorem constructFront_error_iff {p : Params} (op : Opcode p) (t : Format) (e : DecodeError) :
    constructFront op t = .error e ↔
      (op.size ≠ .size32 ∧ e = .unsupportedInstructionSize op.size) ∨
      (op.size = .size32 ∧ op.format ≠ t ∧ e = .unexpectedFormat op.format) := by
  unfold constructFront
  split_ifs with h1 h2
  · simp [h1, h2]
  · simp [h1, h2, eq_comm]
  · simp [h1, eq_comm]

/-- A constructor that passes its front's error on names the opcode as R137 says. -/
theorem opcodeErrors_of_front {p : Params} (op : Opcode p) (t : Format) (r : Except DecodeError (Instruction p))
    (h : ∀ e, constructFront op t = .error e → r = .error e) : OpcodeErrors op t r :=
  ⟨fun hs => h _ ((constructFront_error_iff op t _).mpr (.inl ⟨hs, rfl⟩)),
    fun hs hf => h _ ((constructFront_error_iff op t _).mpr (.inr ⟨hs, hf, rfl⟩))⟩

/-- A constructor that, behind its front, passes the error of `ImmFromSigned` on names the immediate as R153 to R157
say, with the bounds of the immediate's type. -/
theorem immediateErrors_of_front {p : Params} (op : Opcode p) (t : Format) (start width : Nat) (lo hi : Int)
    (hlo : immMin start width = lo) (hhi : immMax start width = hi) (n : Int) (r : Except DecodeError (Instruction p))
    (h : ∀ v e, constructFront op t = .ok v → immFromSigned start width n = .error e → r = .error e) :
    ImmediateErrors op t start lo hi n r := by
  intro hs hf
  subst hf hlo hhi
  have hv : constructFront op op.format = .ok ⟨op.bits, op.mapped, op.sized.trans (congrArg Except.ok hs)⟩ :=
    (constructFront_ok_iff _ _ _).mpr ⟨hs, rfl, rfl⟩
  refine ⟨fun hr => h _ _ hv ?_, fun ha hb hm => h _ _ hv ?_⟩
  · unfold immFromSigned
    rw [if_pos hr]
  · have h0 : 0 < start := Nat.pos_of_ne_zero fun h0 => hm (by simp [h0])
    unfold immFromSigned
    rw [if_neg (by omega), if_pos ⟨h0, hm⟩]

/-- When the front of 7 bits accepts, and as what: any opcode of the variant's type with those bits (R136, R179). -/
theorem opcodeFront_ok_iff (p : Params) (o : OpcodeBits) (t : Format) (v : VariantOpcode p t) :
    opcodeFront p o t = .ok v ↔ v.bits = o := by
  have hraw := raw_of_opcode o
  unfold opcodeFront
  constructor
  · intro h
    cases hc : opcodeFromRaw p (o.setWidth 8) with
    | error e => rw [hc] at h; cases h
    | ok op =>
      rw [hc] at h
      obtain ⟨-, -, hb⟩ := (constructFront_ok_iff _ _ _).mp h
      rw [opcodeFromRaw_ok_iff, hraw.2] at hc
      exact hb.trans hc.2
  · rintro rfl
    rw [← variantOpcode_bits v, opcodeFromRaw_bits]
    exact (constructFront_ok_iff _ _ _).mpr ⟨rfl, rfl, rfl⟩

/-- When a per-format decoder gets past its front (R136). -/
theorem variantFront_ok_iff (p : Params) (w : Word) (t : Format) (v : VariantOpcode p t) :
    variantFront p w t = .ok v ↔ v.bits = wordOpcode w := opcodeFront_ok_iff p _ t v

/-- What the front of 7 bits of a mapped key answers, by what `SIZE_OF` says (R136). -/
theorem opcodeFront_of_mapped (p : Params) {o : OpcodeBits} {t : Format} (hm : formatOfKey (keyOf o) = .ok t) :
    (∃ v, opcodeFront p o t = .ok v ∧ sizeTableOf p o = some .size32) ∨
    (opcodeFront p o t = .error .unrecognizedInstructionSize ∧ sizeTableOf p o = none) ∨
    (∃ sz, sz ≠ .size32 ∧ opcodeFront p o t = .error (.unsupportedInstructionSize sz) ∧ sizeTableOf p o = some sz) := by
  have hraw := raw_of_opcode o
  cases hs : sizeTableOf p o with
  | none =>
    refine .inr (.inl ⟨?_, rfl⟩)
    have hc : opcodeFromRaw p (o.setWidth 8) = .error .unrecognizedInstructionSize := by
      rw [opcodeFromRaw_error_iff, hraw.1, hraw.2]
      exact .inr (.inr ⟨rfl, ⟨t, hm⟩, hs, rfl⟩)
    unfold opcodeFront
    rw [hc]
  | some sz =>
    have hsz := (sizeOf_ok_iff _ _ _).mpr hs
    by_cases h32 : sz = .size32
    · subst h32
      exact .inl ⟨⟨o, hm, hsz⟩, (opcodeFront_ok_iff _ _ _ _).mpr rfl, rfl⟩
    · refine .inr (.inr ⟨sz, h32, ?_, rfl⟩)
      unfold opcodeFront
      rw [opcodeFromRaw_bits (⟨o, t, sz, hm, hsz⟩ : Opcode p)]
      exact (constructFront_error_iff _ _ _).mpr (.inl ⟨h32, rfl⟩)

/-! What each decoder answers behind its front (R140 to R150). -/

theorem decodeR_ok_iff (p : Params) (w : Word) (x : Instruction p) :
    decodeR p w = .ok x ↔ ∃ op, variantFront p w .R = .ok op ∧
      x = .r op (regFromWord w rdOffset) (funct3FromWord w) (regFromWord w rs1Offset) (regFromWord w rs2Offset)
        (funct7FromWord w) := by
  unfold decodeR
  cases variantFront p w .R <;> simp [eq_comm]

theorem decodeI_ok_iff (p : Params) (w : Word) (x : Instruction p) :
    decodeI p w = .ok x ↔ ∃ op, variantFront p w .I = .ok op ∧
      x = .i op (regFromWord w rdOffset) (funct3FromWord w) (regFromWord w rs1Offset) ⟨gatherI w⟩ := by
  unfold decodeI
  rw [immFromRawBits_gatherI]
  cases variantFront p w .I <;> simp [eq_comm]

theorem decodeS_ok_iff (p : Params) (w : Word) (x : Instruction p) :
    decodeS p w = .ok x ↔ ∃ op, variantFront p w .S = .ok op ∧
      x = .s op (funct3FromWord w) (regFromWord w rs1Offset) (regFromWord w rs2Offset) ⟨gatherS w⟩ := by
  unfold decodeS
  rw [immFromRawBits_gatherS]
  cases variantFront p w .S <;> simp [eq_comm]

theorem decodeB_ok_iff (p : Params) (w : Word) (x : Instruction p) :
    decodeB p w = .ok x ↔ ∃ op, variantFront p w .B = .ok op ∧
      x = .b op (funct3FromWord w) (regFromWord w rs1Offset) (regFromWord w rs2Offset) ⟨gatherB w⟩ := by
  unfold decodeB
  rw [immFromRawBits_gatherB]
  cases variantFront p w .B <;> simp [eq_comm]

theorem decodeU_ok_iff (p : Params) (w : Word) (x : Instruction p) :
    decodeU p w = .ok x ↔ ∃ op, variantFront p w .U = .ok op ∧
      x = .u op (regFromWord w rdOffset) ⟨gatherU w⟩ := by
  unfold decodeU
  rw [immFromRawBits_gatherU]
  cases variantFront p w .U <;> simp [eq_comm]

theorem decodeJ_ok_iff (p : Params) (w : Word) (x : Instruction p) :
    decodeJ p w = .ok x ↔ ∃ op, variantFront p w .J = .ok op ∧
      x = .j op (regFromWord w rdOffset) ⟨gatherJ w⟩ := by
  unfold decodeJ
  rw [immFromRawBits_gatherJ]
  cases variantFront p w .J <;> simp [eq_comm]

/-- Every decoder answers a variant of its own tag that carries the word's opcode (R23, R135). -/
theorem decodeAs_ok (p : Params) (t : Format) (w : Word) (x : Instruction p) (h : decodeAs p t w = .ok x) :
    tagOf x = t ∧ (opcodeOf x).bits = wordOpcode w := by
  cases t
  · obtain ⟨v, hv, rfl⟩ := (decodeR_ok_iff p w x).mp h
    exact ⟨rfl, (variantFront_ok_iff p w .R v).mp hv⟩
  · obtain ⟨v, hv, rfl⟩ := (decodeI_ok_iff p w x).mp h
    exact ⟨rfl, (variantFront_ok_iff p w .I v).mp hv⟩
  · obtain ⟨v, hv, rfl⟩ := (decodeS_ok_iff p w x).mp h
    exact ⟨rfl, (variantFront_ok_iff p w .S v).mp hv⟩
  · obtain ⟨v, hv, rfl⟩ := (decodeB_ok_iff p w x).mp h
    exact ⟨rfl, (variantFront_ok_iff p w .B v).mp hv⟩
  · obtain ⟨v, hv, rfl⟩ := (decodeU_ok_iff p w x).mp h
    exact ⟨rfl, (variantFront_ok_iff p w .U v).mp hv⟩
  · obtain ⟨v, hv, rfl⟩ := (decodeJ_ok_iff p w x).mp h
    exact ⟨rfl, (variantFront_ok_iff p w .J v).mp hv⟩

/-- A decoder whose front accepts answers a variant: nothing behind the front can fail (R135). -/
theorem decodeAs_total (p : Params) (t : Format) (w : Word) (v : VariantOpcode p t) (h : variantFront p w t = .ok v) :
    ∃ x, decodeAs p t w = .ok x := by
  cases t
  · exact ⟨_, (decodeR_ok_iff p w _).mpr ⟨v, h, rfl⟩⟩
  · exact ⟨_, (decodeI_ok_iff p w _).mpr ⟨v, h, rfl⟩⟩
  · exact ⟨_, (decodeS_ok_iff p w _).mpr ⟨v, h, rfl⟩⟩
  · exact ⟨_, (decodeB_ok_iff p w _).mpr ⟨v, h, rfl⟩⟩
  · exact ⟨_, (decodeU_ok_iff p w _).mpr ⟨v, h, rfl⟩⟩
  · exact ⟨_, (decodeJ_ok_iff p w _).mpr ⟨v, h, rfl⟩⟩

/-- The top-level decode, by what the classifier says of the word's opcode (R170). -/
theorem decode_eq (p : Params) (w : Word) :
    decode p w =
      match opcodeFromRaw p ((wordOpcode w).setWidth 8) with
      | .error e => .error e
      | .ok op => if op.size ≠ .size32 then .error (.unsupportedInstructionSize op.size) else decodeAs p op.format w := by
  unfold decode
  cases opcodeFromRaw p ((wordOpcode w).setWidth 8) with
  | error e => rfl
  | ok op =>
    obtain ⟨bits, fmt, sz, hm⟩ := op
    cases fmt <;> rfl

/-- The top-level decode answers what the decoder of the word's own format answers (R170). -/
theorem decode_ok_iff (p : Params) (w : Word) (x : Instruction p) :
    decode p w = .ok x ↔ decodeAs p (tagOf x) w = .ok x := by
  rw [decode_eq]
  constructor
  · intro h
    cases hc : opcodeFromRaw p ((wordOpcode w).setWidth 8) with
    | error e => rw [hc] at h; cases h
    | ok op =>
      rw [hc] at h
      by_cases h32 : op.size = .size32
      · simp only [h32, ne_eq, not_true_eq_false, if_false] at h
        rwa [(decodeAs_ok p _ w x h).1]
      · simp [h32] at h
  · intro h
    rw [← (decodeAs_ok p _ w x h).2, opcodeFromRaw_bits]
    simpa using h

/-- What the top-level decode can fail with, and when (R62). -/
theorem decode_error_iff (p : Params) (w : Word) (e : DecodeError) :
    decode p w = .error e ↔
      (formatOfKey (keyOf (wordOpcode w)) = .error e) ∨
      ((∃ f, formatOfKey (keyOf (wordOpcode w)) = .ok f) ∧ sizeTableOf p (wordOpcode w) = none ∧
        e = .unrecognizedInstructionSize) ∨
      ((∃ f, formatOfKey (keyOf (wordOpcode w)) = .ok f) ∧ ∃ sz, sizeTableOf p (wordOpcode w) = some sz ∧
        sz ≠ .size32 ∧ e = .unsupportedInstructionSize sz) := by
  have hraw := raw_of_opcode (wordOpcode w)
  rw [decode_eq]
  cases hc : opcodeFromRaw p ((wordOpcode w).setWidth 8) with
  | error e' =>
    rw [opcodeFromRaw_error_iff, hraw.1, hraw.2] at hc
    rcases hc with ⟨h, -⟩ | ⟨-, h⟩ | ⟨-, ⟨f, hf⟩, hs, rfl⟩
    · cases h
    · simp [h]
    · simp [hf, hs, eq_comm]
  | ok op =>
    rw [opcodeFromRaw_ok_iff, hraw.1, hraw.2] at hc
    have hm := op.mapped
    have hsz := op.sized
    rw [hc.2] at hm hsz
    have hs := (sizeOf_ok_iff _ _ _).mp hsz
    by_cases h32 : op.size = .size32
    · obtain ⟨x, hx⟩ := decodeAs_total p op.format w ⟨wordOpcode w, hm, hsz.trans (congrArg Except.ok h32)⟩
        ((variantFront_ok_iff p w _ _).mpr rfl)
      simp [h32, hs, hm, hx]
    · simp [h32, hs, hm, eq_comm]

end Sys2Proof.Laws
end

