-- ==== Sys2Proof/Laws/Source.lean ====
section
/-! SUPPORT. What a byte source delivers, finite or endless (spec/20_memory.md R31; 92_decisions.md D10; log 23), and what
`SrcNext` does with it. -/

namespace Sys2Proof.Laws

open Machine

/-! One byte. -/

@[simp] theorem peek_zero (src : Source) : src.peek 0 = src.next.1 := rfl

@[simp] theorem drop_zero (src : Source) : src.drop 0 = src := rfl

@[simp] theorem next_cons (b : Byte) (more : List Byte) (tail : SourceTail) :
    Source.next ⟨b :: more, tail⟩ = (some b, ⟨more, tail⟩) := rfl

/-- At the end of a source nothing changes: EOS is sticky (R31). -/
theorem next_none {src : Source} (h : src.next.1 = none) : src.next = (none, src) := by
  obtain ⟨bytes, tail⟩ := src
  cases bytes with
  | cons b more => cases h
  | nil => cases tail with
    | ends => rfl
    | repeats first others => cases h
    | free id pos => cases h

/-! Many bytes: dropping and peeking compose. -/

theorem drop_add (n k : Nat) (src : Source) : src.drop (n + k) = (src.drop n).drop k := by
  induction n generalizing src with
  | zero => rw [Nat.zero_add]; rfl
  | succ n ih => rw [Nat.succ_add]; exact ih src.next.2

theorem peek_drop (n k : Nat) (src : Source) : (src.drop n).peek k = src.peek (n + k) := by
  induction n generalizing src with
  | zero => rw [Nat.zero_add]; rfl
  | succ n ih => rw [Nat.succ_add]; exact ih src.next.2

/-- Unread byte `k` is the next one once `k` bytes are dropped. -/
theorem peek_eq_next (k : Nat) (src : Source) : src.peek k = (src.drop k).next.1 :=
  (peek_drop k 0 src).symm

/-- One byte more dropped is one byte more read. -/
theorem drop_succ (n : Nat) (src : Source) : src.drop (n + 1) = (src.drop n).next.2 := drop_add n 1 src

/-- Behind the end there is nothing (R31). -/
theorem peek_none_of_le {src : Source} {k n : Nat} (h : src.peek k = none) (hkn : k ≤ n) : src.peek n = none := by
  induction n, hkn using Nat.le_induction with
  | base => exact h
  | succ n _ ih =>
    rw [peek_eq_next] at ih ⊢
    rw [drop_succ, next_none ih]
    exact ih

/-- Dropping behind the end changes nothing. -/
theorem drop_none {src : Source} (h : src.peek 0 = none) (n : Nat) : src.drop n = src := by
  induction n with
  | zero => rfl
  | succ n ih => rw [drop_succ, ih, next_none h]

/-! The bytes of the kinds of source. -/

/-- The listed bytes come first, whatever follows them. -/
theorem peek_listed (bytes : List Byte) (tail : SourceTail) (k : Nat) (h : k < bytes.length) :
    Source.peek k ⟨bytes, tail⟩ = some bytes[k] := by
  induction bytes generalizing k with
  | nil => simp at h
  | cons b more ih =>
    cases k with
    | zero => rfl
    | succ k => exact ih k (by simpa using h)

/-- Behind the listed bytes stands the tail. -/
theorem drop_listed (bytes more : List Byte) (tail : SourceTail) :
    Source.drop bytes.length ⟨bytes ++ more, tail⟩ = ⟨more, tail⟩ := by
  induction bytes with
  | nil => rfl
  | cons b bytes ih => exact ih

theorem peek_tail (bytes : List Byte) (tail : SourceTail) (k : Nat) :
    Source.peek (bytes.length + k) ⟨bytes, tail⟩ = Source.peek k ⟨[], tail⟩ := by
  rw [← peek_drop, ← drop_listed bytes [] tail, List.append_nil]

/-- A finite source is its list of bytes. -/
theorem peek_ends (bytes : List Byte) (k : Nat) : Source.peek k ⟨bytes, .ends⟩ = bytes[k]? := by
  induction bytes generalizing k with
  | nil => exact peek_none_of_le (k := 0) rfl (Nat.zero_le k)
  | cons b more ih =>
    cases k with
    | zero => rfl
    | succ k => exact ih k

/-- A repeating source is its block over and over. -/
theorem peek_repeats (first : Byte) (others : List Byte) (k : Nat) :
    Source.peek k ⟨[], .repeats first others⟩ =
      (first :: others)[k % (others.length + 1)]? := by
  have hblock : ∀ j, Source.peek j ⟨[], .repeats first others⟩ =
      Source.peek j ⟨first :: others, .repeats first others⟩ := by
    intro j
    cases j <;> rfl
  induction k using Nat.strong_induction_on with
  | _ k ih =>
    by_cases hk : k < others.length + 1
    · rw [hblock, Nat.mod_eq_of_lt hk, peek_listed _ _ k (by simpa using hk),
        List.getElem?_eq_getElem (by simpa using hk)]
    · obtain ⟨j, rfl⟩ := Nat.exists_eq_add_of_le (not_lt.mp hk)
      rw [hblock, Nat.add_mod_left, ← ih j (by omega)]
      exact peek_tail (first :: others) (.repeats first others) j

/-- The bytes of a free source are the free values of `Config.sourceByte`. -/
theorem peek_free (id pos k : Nat) : Source.peek k ⟨[], .free id pos⟩ = some (Config.sourceByte id (pos + k)) := by
  induction k generalizing pos with
  | zero => rfl
  | succ k ih => rw [show pos + (k + 1) = pos + 1 + k by omega]; exact ih (pos + 1)

/-- A source ends exactly where its tail says so (92 D10). -/
theorem endless_iff (src : Source) : Endless src ↔ src.tail ≠ .ends := by
  obtain ⟨bytes, tail⟩ := src
  constructor
  · rintro h rfl
    exact h bytes.length (by rw [peek_ends]; simp)
  · intro h k
    by_cases hk : k < bytes.length
    · rw [peek_listed bytes tail k hk]
      simp
    · obtain ⟨j, rfl⟩ := Nat.exists_eq_add_of_le (not_lt.mp hk)
      rw [peek_tail]
      cases tail with
      | ends => exact absurd rfl h
      | repeats first others =>
        have hj : j % (others.length + 1) < (first :: others).length := Nat.mod_lt _ (by simp)
        rw [peek_repeats, List.getElem?_eq_getElem hj]
        simp
      | free id pos =>
        rw [peek_free]
        simp

theorem endless_drop {src : Source} (h : Endless src) (n : Nat) : Endless (src.drop n) := fun k => by
  rw [peek_drop]
  exact h (n + k)

/-! `SrcNext` (R31). -/

theorem consumed_zero (s : State) : consumed 0 s = s := rfl

theorem consumed_add (n k : Nat) (s : State) : consumed k (consumed n s) = consumed (n + k) s := by
  unfold consumed
  simp only [drop_add, Nat.add_assoc]

/-- At the end of the source: EOS, nothing changes. -/
theorem srcNext_none {s : State} (h : s.source.peek 0 = none) : srcNext s = (none, s) := by
  unfold srcNext
  rw [next_none h]

/-- Before the end: the next byte is delivered and consumed. -/
theorem srcNext_some {s : State} {b : Byte} (h : s.source.peek 0 = some b) : srcNext s = (some b, consumed 1 s) := by
  have hn : s.source.next = (some b, s.source.next.2) := Prod.ext h rfl
  unfold srcNext
  rw [hn]
  rfl

/-- `EOS` is sticky (R31, D10): the call after one that answered EOS answers EOS. -/
theorem srcNext_sticky (s t : State) (h : srcNext s = (none, t)) : srcNext t = (none, t) := by
  cases hp : s.source.peek 0 with
  | none =>
    have hs := srcNext_none hp
    rw [hs] at h
    obtain rfl : s = t := congrArg Prod.snd h
    exact hs
  | some b =>
    rw [srcNext_some hp] at h
    cases congrArg Prod.fst h

end Sys2Proof.Laws
end

