-- ==== Sys2Proof/Laws/State.lean ====
section
/-! SUPPORT. One lemma per field of State per update, so that no proof unfolds a record update (spec/44_stream_unit.md
R192; 10_state.md R14). -/

namespace Sys2Proof.Laws

open Machine

/-! A poll in a terminal state (R198). -/

@[simp] theorem pollTerminal_params (s : State) : (pollTerminal s).params = s.params := rfl
@[simp] theorem pollTerminal_cfgStartAddr (s : State) : (pollTerminal s).cfgStartAddr = s.cfgStartAddr := rfl
@[simp] theorem pollTerminal_st (s : State) : (pollTerminal s).st = s.st := rfl
@[simp] theorem pollTerminal_addr (s : State) : (pollTerminal s).addr = s.addr := rfl
@[simp] theorem pollTerminal_source (s : State) : (pollTerminal s).source = s.source := rfl
@[simp] theorem pollTerminal_pos (s : State) : (pollTerminal s).pos = s.pos := rfl
@[simp] theorem pollTerminal_out (s : State) : (pollTerminal s).out = some .done := rfl

/-! Clean end (R193). -/

@[simp] theorem endStream_params (s : State) : (endStream s).params = s.params := rfl
@[simp] theorem endStream_cfgStartAddr (s : State) : (endStream s).cfgStartAddr = s.cfgStartAddr := rfl
@[simp] theorem endStream_st (s : State) : (endStream s).st = .ended := rfl
@[simp] theorem endStream_addr (s : State) : (endStream s).addr = s.addr := rfl
@[simp] theorem endStream_source (s : State) : (endStream s).source = s.source := rfl
@[simp] theorem endStream_pos (s : State) : (endStream s).pos = s.pos := rfl
@[simp] theorem endStream_out (s : State) : (endStream s).out = some .done := rfl

/-! An error item (R195, R196). -/

@[simp] theorem failStream_params (e : DecodeError) (s : State) : (failStream e s).params = s.params := rfl
@[simp] theorem failStream_cfgStartAddr (e : DecodeError) (s : State) : (failStream e s).cfgStartAddr = s.cfgStartAddr := rfl
@[simp] theorem failStream_st (e : DecodeError) (s : State) : (failStream e s).st = .failed := rfl
@[simp] theorem failStream_addr (e : DecodeError) (s : State) : (failStream e s).addr = s.addr := rfl
@[simp] theorem failStream_source (e : DecodeError) (s : State) : (failStream e s).source = s.source := rfl
@[simp] theorem failStream_pos (e : DecodeError) (s : State) : (failStream e s).pos = s.pos := rfl
@[simp] theorem failStream_out (e : DecodeError) (s : State) : (failStream e s).out = some (.error e) := rfl

/-! A record (R197). -/

@[simp] theorem yieldRecord_params {p : Params} (x : Instruction p) (s : State) : (yieldRecord x s).params = s.params := rfl
@[simp] theorem yieldRecord_cfgStartAddr {p : Params} (x : Instruction p) (s : State) : (yieldRecord x s).cfgStartAddr = s.cfgStartAddr := rfl
@[simp] theorem yieldRecord_st {p : Params} (x : Instruction p) (s : State) : (yieldRecord x s).st = s.st := rfl
@[simp] theorem yieldRecord_addr {p : Params} (x : Instruction p) (s : State) : (yieldRecord x s).addr = nextAddr s.params s.addr := rfl
@[simp] theorem yieldRecord_source {p : Params} (x : Instruction p) (s : State) : (yieldRecord x s).source = s.source := rfl
@[simp] theorem yieldRecord_pos {p : Params} (x : Instruction p) (s : State) : (yieldRecord x s).pos = s.pos := rfl
@[simp] theorem yieldRecord_out {p : Params} (x : Instruction p) (s : State) : (yieldRecord x s).out = some (.item ⟨x, s.addr⟩) := rfl

/-! Bytes taken from the source (R31). -/

@[simp] theorem consumed_params (n : Nat) (s : State) : (consumed n s).params = s.params := rfl
@[simp] theorem consumed_cfgStartAddr (n : Nat) (s : State) : (consumed n s).cfgStartAddr = s.cfgStartAddr := rfl
@[simp] theorem consumed_st (n : Nat) (s : State) : (consumed n s).st = s.st := rfl
@[simp] theorem consumed_addr (n : Nat) (s : State) : (consumed n s).addr = s.addr := rfl
@[simp] theorem consumed_source (n : Nat) (s : State) : (consumed n s).source = s.source.drop n := rfl
@[simp] theorem consumed_pos (n : Nat) (s : State) : (consumed n s).pos = s.pos + n := rfl
@[simp] theorem consumed_out (n : Nat) (s : State) : (consumed n s).out = s.out := rfl

/-! A record and its four bytes at once (R192 step 5). -/

@[simp] theorem afterRecord_params {p : Params} (x : Instruction p) (s : State) : (afterRecord x s).params = s.params := rfl
@[simp] theorem afterRecord_cfgStartAddr {p : Params} (x : Instruction p) (s : State) : (afterRecord x s).cfgStartAddr = s.cfgStartAddr := rfl
@[simp] theorem afterRecord_st {p : Params} (x : Instruction p) (s : State) : (afterRecord x s).st = s.st := rfl
@[simp] theorem afterRecord_addr {p : Params} (x : Instruction p) (s : State) : (afterRecord x s).addr = (s.addr + 32) % 2 ^ s.params.addrWidth := rfl
@[simp] theorem afterRecord_source {p : Params} (x : Instruction p) (s : State) : (afterRecord x s).source = s.source.drop 4 := rfl
@[simp] theorem afterRecord_pos {p : Params} (x : Instruction p) (s : State) : (afterRecord x s).pos = s.pos + 4 := rfl
@[simp] theorem afterRecord_out {p : Params} (x : Instruction p) (s : State) : (afterRecord x s).out = some (.item ⟨x, s.addr⟩) := rfl

/-- A record yielded after its four bytes were consumed. -/
theorem yieldRecord_consumed {p : Params} (x : Instruction p) (s : State) : yieldRecord x (consumed 4 s) = afterRecord x s := rfl

/-! The next word placed in the source (log 7). -/

@[simp] theorem withFetchWord_params (s : State) (nbits w : Nat) : (s.withFetchWord nbits w).params = s.params := rfl
@[simp] theorem withFetchWord_cfgStartAddr (s : State) (nbits w : Nat) : (s.withFetchWord nbits w).cfgStartAddr = s.cfgStartAddr := rfl
@[simp] theorem withFetchWord_st (s : State) (nbits w : Nat) : (s.withFetchWord nbits w).st = .ready := rfl
@[simp] theorem withFetchWord_addr (s : State) (nbits w : Nat) : (s.withFetchWord nbits w).addr = s.addr := rfl
@[simp] theorem withFetchWord_source (s : State) (nbits w : Nat) : (s.withFetchWord nbits w).source =
    ⟨wordBytes (tableWord nbits w) ++ (s.source.drop 4).bytes, (s.source.drop 4).tail⟩ := rfl
@[simp] theorem withFetchWord_pos (s : State) (nbits w : Nat) : (s.withFetchWord nbits w).pos = s.pos := rfl
@[simp] theorem withFetchWord_out (s : State) (nbits w : Nat) : (s.withFetchWord nbits w).out = s.out := rfl

/-! Construction, the reset of an instance (R26, R260). -/

@[simp] theorem construct_params (p : Params) (start : Nat) (src : Source) :
    (State.construct p start src).params = p := rfl
@[simp] theorem construct_cfgStartAddr (p : Params) (start : Nat) (src : Source) :
    (State.construct p start src).cfgStartAddr = start % 2 ^ p.addrWidth := rfl
@[simp] theorem construct_st (p : Params) (start : Nat) (src : Source) :
    (State.construct p start src).st = .ready := rfl
@[simp] theorem construct_addr (p : Params) (start : Nat) (src : Source) :
    (State.construct p start src).addr = start % 2 ^ p.addrWidth := rfl
@[simp] theorem construct_source (p : Params) (start : Nat) (src : Source) :
    (State.construct p start src).source = src := rfl
@[simp] theorem construct_pos (p : Params) (start : Nat) (src : Source) :
    (State.construct p start src).pos = 0 := rfl
@[simp] theorem construct_out (p : Params) (start : Nat) (src : Source) :
    (State.construct p start src).out = none := rfl

end Sys2Proof.Laws
end

