-- ==== Sys2Proof/Laws/Ops.lean ====
section
/-! SUPPORT. What the shared operations of a step can do, said once (spec/44_stream_unit.md R192; 20_memory.md R34). -/

namespace Sys2Proof.Laws

open Machine

/-- `SrcNext` after `n` bytes delivers unread byte number `n` (R31). -/
theorem srcNext_consumed_some {s : State} {n : Nat} {b : Byte} (h : s.source.peek n = some b) :
    srcNext (consumed n s) = (some b, consumed (n + 1) s) := by
  rw [srcNext_some (s := consumed n s) (b := b) ((peek_drop n 0 s.source).trans h), consumed_add]

/-- `SrcNext` after `n` bytes, where no more are left (R31). -/
theorem srcNext_consumed_none {s : State} {n : Nat} (h : s.source.peek n = none) :
    srcNext (consumed n s) = (none, consumed n s) :=
  srcNext_none ((peek_drop n 0 s.source).trans h)

/-- Step (3) of R192, both outcomes with the bytes they consume: three more bytes are there, or fewer and the word is
truncated (R195). -/
theorem fetchRemaining_cases (b0 : Byte) (s : State) :
    (∃ b1 b2 b3, s.source.peek 1 = some b1 ∧ s.source.peek 2 = some b2 ∧ s.source.peek 3 = some b3 ∧
      fetchRemaining b0 (consumed 1 s) = (.word (assembleWord b0 b1 b2 b3), consumed 4 s)) ∨
    (∃ n, 1 ≤ n ∧ n ≤ 3 ∧ (∀ k, 1 ≤ k → k < n → s.source.peek k ≠ none) ∧ s.source.peek n = none ∧
      fetchRemaining b0 (consumed 1 s) = (.failed .unexpectedEof, consumed n s)) := by
  unfold fetchRemaining
  cases h1 : s.source.peek 1 with
  | none =>
    refine .inr ⟨1, le_rfl, by omega, fun k h h' => by omega, h1, ?_⟩
    rw [srcNext_consumed_none h1]
  | some b1 =>
    rw [srcNext_consumed_some h1]
    cases h2 : s.source.peek 2 with
    | none =>
      refine .inr ⟨2, by omega, by omega, fun k h h' => ?_, h2, ?_⟩
      · obtain rfl : k = 1 := by omega
        simp [h1]
      · simp only [srcNext_consumed_none h2]
    | some b2 =>
      simp only [srcNext_consumed_some h2]
      cases h3 : s.source.peek 3 with
      | none =>
        refine .inr ⟨3, by omega, by omega, fun k h h' => ?_, h3, ?_⟩
        · obtain rfl | rfl : k = 1 ∨ k = 2 := by omega
          · simp [h1]
          · simp [h2]
        · simp only [srcNext_consumed_none h3]
      | some b3 => exact .inl ⟨b1, b2, b3, rfl, rfl, rfl, by simp only [srcNext_consumed_some h3]⟩

/-- Steps (1) to (3) of R192, all five outcomes with the bytes they consume (R34). -/
theorem fetch_cases (s : State) :
    (s.source.peek 0 = none ∧ fetch s = (.endOfStream, s)) ∨
    (∃ b0, s.source.peek 0 = some b0 ∧
      ((sizeTableOf s.params (byteOpcode b0) = none ∧
          fetch s = (.failed .unrecognizedInstructionSize, consumed 1 s)) ∨
        (∃ sz, sizeTableOf s.params (byteOpcode b0) = some sz ∧ sz ≠ .size32 ∧
          fetch s = (.failed (.unsupportedInstructionSize sz), consumed 1 s)) ∨
        (sizeTableOf s.params (byteOpcode b0) = some .size32 ∧ ∃ n, 1 ≤ n ∧ n ≤ 3 ∧
          (∀ k, k < n → s.source.peek k ≠ none) ∧ s.source.peek n = none ∧
          fetch s = (.failed .unexpectedEof, consumed n s)) ∨
        (sizeTableOf s.params (byteOpcode b0) = some .size32 ∧ ∃ b1 b2 b3, s.source.peek 1 = some b1 ∧
          s.source.peek 2 = some b2 ∧ s.source.peek 3 = some b3 ∧
          fetch s = (.word (assembleWord b0 b1 b2 b3), consumed 4 s)))) := by
  unfold fetch
  cases h0 : s.source.peek 0 with
  | none =>
    rw [srcNext_none h0]
    exact .inl ⟨rfl, rfl⟩
  | some b0 =>
    rw [srcNext_some h0]
    refine .inr ⟨b0, rfl, ?_⟩
    cases hs : sizeTableOf s.params (byteOpcode b0) with
    | none => exact .inl ⟨rfl, by simp only [hs]⟩
    | some sz =>
      refine .inr ?_
      by_cases h32 : sz = .size32
      · subst h32
        refine .inr ?_
        simp only [hs, if_true]
        rcases fetchRemaining_cases b0 s with ⟨b1, b2, b3, h1, h2, h3, hf⟩ | ⟨n, hn1, hn3, hb, hn, hf⟩
        · exact .inr ⟨trivial, b1, b2, b3, h1, h2, h3, hf⟩
        · refine .inl ⟨trivial, n, hn1, hn3, fun k hk => ?_, hn, hf⟩
          cases k with
          | zero => simp [h0]
          | succ k => exact hb _ (by omega) hk
      · exact .inl ⟨sz, rfl, h32, by simp only [hs, if_neg h32]⟩

/-- Every row delivers the Instruction its term stands for, and that is all it does (R192 steps 4 and 5, R197). -/
theorem exec_eq (i : Instr) (s : State) : exec i s = .next (deliver (instructionOf s.params i) s) := by
  cases i <;> rfl

/-- The term of a row that stands for an Instruction of this block yields its record (R197). -/
theorem exec_ok {i : Instr} {s : State} {x : Instruction s.params} (h : instructionOf s.params i = .ok x) :
    exec i s = .next (yieldRecord x s) := by
  rw [exec_eq, h]
  rfl

/-- The term of a row that stands for no Instruction of this block fails (R196; log 26). -/
theorem exec_error {i : Instr} {s : State} {e : DecodeError} (h : instructionOf s.params i = .error e) :
    exec i s = .next (failStream e s) := by
  rw [exec_eq, h]
  rfl

/-- What one step can do, in every case (R192): poll after the end, clean end, a failure of the fetch, a word that does
not decode, or the row the word is. -/
theorem step_cases (s : State) :
    (s.st ≠ .ready ∧ step s = .next (pollTerminal s)) ∨
    (s.st = .ready ∧ s.source.peek 0 = none ∧ step s = .next (endStream s)) ∨
    (s.st = .ready ∧ ∃ e t, fetch s = (.failed e, t) ∧ step s = .next (failStream e t)) ∨
    (s.st = .ready ∧ ∃ w t e, fetch s = (.word w, t) ∧ decodeWord s.params w = .error e ∧
      step s = .next (failStream e t)) ∨
    (s.st = .ready ∧ ∃ w t i, fetch s = (.word w, t) ∧ decodeWord s.params w = .ok i ∧ step s = exec i t) := by
  cases hst : s.st with
  | ended => exact .inl ⟨by simp, by unfold step; rw [hst]⟩
  | failed => exact .inl ⟨by simp, by unfold step; rw [hst]⟩
  | ready =>
    refine .inr ?_
    have hstep : step s = stepReady s := by unfold step; rw [hst]
    rw [hstep]
    unfold stepReady
    rcases fetch_cases s with ⟨hr, hf⟩ | ⟨b0, -, ⟨-, hf⟩ | ⟨sz, -, -, hf⟩ | ⟨-, n, -, -, -, -, hf⟩ |
      ⟨-, b1, b2, b3, -, -, -, hf⟩⟩
    · exact .inl ⟨rfl, hr, by rw [hf]⟩
    · exact .inr (.inl ⟨rfl, _, _, hf, by rw [hf]⟩)
    · exact .inr (.inl ⟨rfl, _, _, hf, by rw [hf]⟩)
    · exact .inr (.inl ⟨rfl, _, _, hf, by rw [hf]⟩)
    · refine .inr (.inr ?_)
      rw [hf]
      cases hd : decodeWord s.params (assembleWord b0 b1 b2 b3) with
      | error e => exact .inl ⟨rfl, _, _, e, rfl, hd, by simp only [consumed_params, hd]⟩
      | ok i => exact .inr ⟨rfl, _, _, i, rfl, hd, by simp only [consumed_params, hd]⟩

end Sys2Proof.Laws
end

