-- ==== Sys2Proof/Laws/Rows.lean ====
section
/-! SUPPORT. The opcodes of the rows and their format (spec/30_encoding.md R58; 41_opcode_classifier.md R124 to R134). -/

namespace Sys2Proof.Laws

open Machine

/-- A row's opcode has the row's low bits. -/
theorem low_bits_append (key : Key) (lo : BitVec 2) : (key ++ lo : BitVec 7).extractLsb' 0 2 = lo := by
  revert key lo
  decide

/-- An opcode is its key followed by its low two bits. -/
theorem opcode_eq_append (o : OpcodeBits) : (keyOf o ++ o.extractLsb' 0 2 : BitVec 7) = o := by
  revert o
  decide

/-- The key of a word, as a slice of the word (R57). -/
theorem keyOf_wordOpcode (w : Word) : keyOf (wordOpcode w) = w.extractLsb' 2 5 := by
  apply BitVec.eq_of_getLsbD_eq
  intro k hk
  unfold keyOf wordOpcode
  interval_cases k <;> simp

/-- The low two bits of a word's opcode, as a slice of the word. -/
theorem low_bits_wordOpcode (w : Word) : (wordOpcode w).extractLsb' 0 2 = w.extractLsb' 0 2 := by
  apply BitVec.eq_of_getLsbD_eq
  intro k hk
  unfold wordOpcode
  interval_cases k <;> simp

/-- The row chosen for a word is one of the six system rows only where the whole word is its pattern (R213). -/
theorem systemRow_eq_some (w : Word) (i : Instr) (h : systemRow w = some i) :
    (w = 0x00000073#32 ∧ i = .ecall) ∨ (w = 0x00100073#32 ∧ i = .ebreak) ∨ (w = 0x10500073#32 ∧ i = .wfi) ∨
      (w = 0x30200073#32 ∧ i = .mret) ∨ (w = 0x10200073#32 ∧ i = .sret) ∨ (w = 0x7B200073#32 ∧ i = .dret) := by
  unfold systemRow at h
  split_ifs at h with h1 h2 h3 h4 h5 h6 <;> cases h
  · exact .inl ⟨h1, rfl⟩
  · exact .inr (.inl ⟨h2, rfl⟩)
  · exact .inr (.inr (.inl ⟨h3, rfl⟩))
  · exact .inr (.inr (.inr (.inl ⟨h4, rfl⟩)))
  · exact .inr (.inr (.inr (.inr (.inl ⟨h5, rfl⟩))))
  · exact .inr (.inr (.inr (.inr (.inr ⟨h6, rfl⟩))))

/-- The opcode a row's term is cut from is that row's (R57). -/
theorem opcode_of_key {key : Key} {o : OpcodeBits} (h : keyOf o = key) : (key ++ o.extractLsb' 0 2 : BitVec 7) = o := by
  rw [← h, opcode_eq_append]

/-- The opcode made of a key and two low bits has that key (R57). -/
theorem keyOf_append (key : Key) (lo : BitVec 2) : keyOf (key ++ lo : BitVec 7) = key := by
  revert key lo
  decide

/-- The format of a row's opcode is that of its key (R57, R58). -/
theorem mapped_append {key : Key} {t : Format} (lo : BitVec 2) (h : formatOfKey key = .ok t) :
    formatOfKey (keyOf (key ++ lo : BitVec 7)) = .ok t := (congrArg formatOfKey (keyOf_append key lo)).trans h

/-- A row's term stands for an Instruction of the block, with the row's opcode and word, exactly where `SIZE_OF` gives
the opcode `Size32`; else it has the size error of that word (R62; log 26). -/
def RowAnswer (p : Params) (o : OpcodeBits) (w : Word) (r : Except DecodeError (Instruction p)) : Prop :=
  (∃ x, r = .ok x ∧ sizeTableOf p o = some .size32 ∧ (opcodeOf x).bits = o ∧ encodeInstruction x = w) ∨
  (r = .error .unrecognizedInstructionSize ∧ sizeTableOf p o = none) ∨
  (∃ sz, sz ≠ .size32 ∧ r = .error (.unsupportedInstructionSize sz) ∧ sizeTableOf p o = some sz)

/-- A variant made on the front of a mapped opcode. -/
theorem rowAnswer_map {p : Params} {o : OpcodeBits} {t : Format} {w : Word} (mk : VariantOpcode p t → Instruction p)
    (hm : formatOfKey (keyOf o) = .ok t) (hb : ∀ v, (opcodeOf (mk v)).bits = v.bits)
    (hw : ∀ v, v.bits = o → encodeInstruction (mk v) = w) : RowAnswer p o w ((opcodeFront p o t).map mk) := by
  rcases opcodeFront_of_mapped p hm with ⟨v, hv, hs⟩ | ⟨hf, hs⟩ | ⟨sz, h32, hf, hs⟩
  · have ho := (opcodeFront_ok_iff p o t v).mp hv
    exact .inl ⟨mk v, by rw [hv]; rfl, hs, (hb v).trans ho, hw v ho⟩
  · exact .inr (.inl ⟨by rw [hf]; rfl, hs⟩)
  · exact .inr (.inr ⟨sz, h32, by rw [hf]; rfl, hs⟩)

/-- What every row's term stands for. -/
theorem instructionOf_cases (p : Params) (i : Instr) : RowAnswer p (rowBits i) (rowWord i) (instructionOf p i) := by
  cases i with
  | b63 lo f3 rs1 rs2 imm =>
    exact rowAnswer_map (fun op => .b op f3 rs1 rs2 imm)
      (mapped_append lo (show formatOfKey 0b11000#5 = .ok .B by decide))
      (fun _ => rfl) (fun _ h => congrArg (encodeB · f3 rs1 rs2 imm) h)
  | i13 lo rd f3 rs1 imm =>
    exact rowAnswer_map (fun op => .i op rd f3 rs1 imm)
      (mapped_append lo (show formatOfKey 0b00100#5 = .ok .I by decide))
      (fun _ => rfl) (fun _ h => congrArg (encodeI · rd f3 rs1 imm) h)
  | i03 lo rd f3 rs1 imm =>
    exact rowAnswer_map (fun op => .i op rd f3 rs1 imm)
      (mapped_append lo (show formatOfKey 0b00000#5 = .ok .I by decide))
      (fun _ => rfl) (fun _ h => congrArg (encodeI · rd f3 rs1 imm) h)
  | i67 lo rd f3 rs1 imm =>
    exact rowAnswer_map (fun op => .i op rd f3 rs1 imm)
      (mapped_append lo (show formatOfKey 0b11001#5 = .ok .I by decide))
      (fun _ => rfl) (fun _ h => congrArg (encodeI · rd f3 rs1 imm) h)
  | i73 lo rd f3 rs1 imm =>
    exact rowAnswer_map (fun op => .i op rd f3 rs1 imm)
      (mapped_append lo (show formatOfKey 0b11100#5 = .ok .I by decide))
      (fun _ => rfl) (fun _ h => congrArg (encodeI · rd f3 rs1 imm) h)
  | j6F lo rd imm =>
    exact rowAnswer_map (fun op => .j op rd imm)
      (mapped_append lo (show formatOfKey 0b11011#5 = .ok .J by decide))
      (fun _ => rfl) (fun _ h => congrArg (encodeJ · rd imm) h)
  | r33 lo rd f3 rs1 rs2 f7 =>
    exact rowAnswer_map (fun op => .r op rd f3 rs1 rs2 f7)
      (mapped_append lo (show formatOfKey 0b01100#5 = .ok .R by decide))
      (fun _ => rfl) (fun _ h => congrArg (encodeR · rd f3 rs1 rs2 f7) h)
  | r2F lo rd f3 rs1 rs2 f7 =>
    exact rowAnswer_map (fun op => .r op rd f3 rs1 rs2 f7)
      (mapped_append lo (show formatOfKey 0b01011#5 = .ok .R by decide))
      (fun _ => rfl) (fun _ h => congrArg (encodeR · rd f3 rs1 rs2 f7) h)
  | r3B lo rd f3 rs1 rs2 f7 =>
    exact rowAnswer_map (fun op => .r op rd f3 rs1 rs2 f7)
      (mapped_append lo (show formatOfKey 0b01110#5 = .ok .R by decide))
      (fun _ => rfl) (fun _ h => congrArg (encodeR · rd f3 rs1 rs2 f7) h)
  | s23 lo f3 rs1 rs2 imm =>
    exact rowAnswer_map (fun op => .s op f3 rs1 rs2 imm)
      (mapped_append lo (show formatOfKey 0b01000#5 = .ok .S by decide))
      (fun _ => rfl) (fun _ h => congrArg (encodeS · f3 rs1 rs2 imm) h)
  | u37 lo rd imm =>
    exact rowAnswer_map (fun op => .u op rd imm)
      (mapped_append lo (show formatOfKey 0b01101#5 = .ok .U by decide))
      (fun _ => rfl) (fun _ h => congrArg (encodeU · rd imm) h)
  | ecall => exact rowAnswer_map _ (by decide) (fun _ => rfl) (fun _ h => congrArg (encodeI · _ _ _ _) h)
  | ebreak => exact rowAnswer_map _ (by decide) (fun _ => rfl) (fun _ h => congrArg (encodeI · _ _ _ _) h)
  | wfi => exact rowAnswer_map _ (by decide) (fun _ => rfl) (fun _ h => congrArg (encodeI · _ _ _ _) h)
  | mret => exact rowAnswer_map _ (by decide) (fun _ => rfl) (fun _ h => congrArg (encodeI · _ _ _ _) h)
  | sret => exact rowAnswer_map _ (by decide) (fun _ => rfl) (fun _ h => congrArg (encodeI · _ _ _ _) h)
  | dret => exact rowAnswer_map _ (by decide) (fun _ => rfl) (fun _ h => congrArg (encodeI · _ _ _ _) h)

/-- The keys of a format (R58), for the opcode of a variant. -/
theorem variant_keys {p : Params} {t : Format} (op : VariantOpcode p t) : (keyOf op.bits, t) ∈ keyFormats :=
  (formatOfKey_ok_iff _ _).mp op.mapped

/-- Every Instruction has a row, so the row decoder loses none (R57, R58; log 14). -/
theorem rowOf_isSome {p : Params} (x : Instruction p) : (rowOf x).isSome = true := by
  cases x with
  | r op rd f3 rs1 rs2 f7 =>
    have h := variant_keys op
    simp only [keyFormats, List.cons_append, List.nil_append, List.mem_cons, Prod.mk.injEq, reduceCtorEq, and_false,
      and_true, List.not_mem_nil, or_false, false_or] at h
    rcases h with h | h | h <;> simp [rowOf, opcodeOf, h]
  | i op rd f3 rs1 imm =>
    have h := variant_keys op
    simp only [keyFormats, List.cons_append, List.nil_append, List.mem_cons, Prod.mk.injEq, reduceCtorEq, and_false,
      and_true, List.not_mem_nil, or_false, false_or] at h
    rcases h with h | h | h | h <;> simp [rowOf, opcodeOf, h]
    cases systemRow (encodeInstruction (.i op rd f3 rs1 imm)) <;> rfl
  | s op f3 rs1 rs2 imm =>
    have h := variant_keys op
    simp [keyFormats] at h
    simp [rowOf, opcodeOf, h]
  | b op f3 rs1 rs2 imm =>
    have h := variant_keys op
    simp [keyFormats] at h
    simp [rowOf, opcodeOf, h]
  | u op rd imm =>
    have h := variant_keys op
    simp [keyFormats] at h
    simp [rowOf, opcodeOf, h]
  | j op rd imm =>
    have h := variant_keys op
    simp [keyFormats] at h
    simp [rowOf, opcodeOf, h]

end Sys2Proof.Laws
end

