-- ==== Sys2Proof/Laws/PerInstr.lean ====
section
/-! SUPPORT. Statements made per instruction, one lemma per constructor of `Instr`: the word's opcode
(spec/30_encoding.md R46, R138) and the row's format (R57, R58). -/

namespace Sys2Proof.Laws

open Machine

/-- The opcode bits of an instruction's word are its row's key and low bits (R46, R138). -/
def EncodedOpcode.Statement (i : Instr) : Prop := wordOpcode (encode i) = rowBits i

/-- The format table gives a row's key the tag of the Instruction the row stands for, in every block (R57, R58). -/
def RowFormat.Statement (i : Instr) : Prop :=
  ∀ (p : Params) (x : Instruction p), instructionOf p i = .ok x → formatOfKey (keyOf (rowBits i)) = .ok (tagOf x)

/-- An Instruction a row stands for has the row's opcode, and by its type that opcode's format. -/
theorem rowFormat (i : Instr) : RowFormat.Statement i := by
  intro p x hx
  rcases instructionOf_cases p i with ⟨y, hy, -, hb, -⟩ | ⟨he, -⟩ | ⟨sz, -, he, -⟩
  · rw [hy] at hx
    cases hx
    rw [← hb]
    exact opcodeOf_mapped _
  · rw [he] at hx
    cases hx
  · rw [he] at hx
    cases hx

theorem EncodedOpcode.b63 (lo : BitVec 2) (f3 : Funct3) (rs1 rs2 : Register) (imm : Imm1to12) :
    EncodedOpcode.Statement (.b63 lo f3 rs1 rs2 imm) := (encodeB_fields _ f3 rs1 rs2 imm).1

theorem EncodedOpcode.i13 (lo : BitVec 2) (rd : Register) (f3 : Funct3) (rs1 : Register) (imm : Imm0to11) :
    EncodedOpcode.Statement (.i13 lo rd f3 rs1 imm) := (encodeI_fields _ rd f3 rs1 imm).1

theorem EncodedOpcode.i03 (lo : BitVec 2) (rd : Register) (f3 : Funct3) (rs1 : Register) (imm : Imm0to11) :
    EncodedOpcode.Statement (.i03 lo rd f3 rs1 imm) := (encodeI_fields _ rd f3 rs1 imm).1

theorem EncodedOpcode.i67 (lo : BitVec 2) (rd : Register) (f3 : Funct3) (rs1 : Register) (imm : Imm0to11) :
    EncodedOpcode.Statement (.i67 lo rd f3 rs1 imm) := (encodeI_fields _ rd f3 rs1 imm).1

theorem EncodedOpcode.i73 (lo : BitVec 2) (rd : Register) (f3 : Funct3) (rs1 : Register) (imm : Imm0to11) :
    EncodedOpcode.Statement (.i73 lo rd f3 rs1 imm) := (encodeI_fields _ rd f3 rs1 imm).1

theorem EncodedOpcode.j6F (lo : BitVec 2) (rd : Register) (imm : Imm1to20) :
    EncodedOpcode.Statement (.j6F lo rd imm) := (encodeJ_fields _ rd imm).1

theorem EncodedOpcode.r33 (lo : BitVec 2) (rd : Register) (f3 : Funct3) (rs1 rs2 : Register) (f7 : Funct7) :
    EncodedOpcode.Statement (.r33 lo rd f3 rs1 rs2 f7) := (encodeR_fields _ rd f3 rs1 rs2 f7).1

theorem EncodedOpcode.r2F (lo : BitVec 2) (rd : Register) (f3 : Funct3) (rs1 rs2 : Register) (f7 : Funct7) :
    EncodedOpcode.Statement (.r2F lo rd f3 rs1 rs2 f7) := (encodeR_fields _ rd f3 rs1 rs2 f7).1

theorem EncodedOpcode.r3B (lo : BitVec 2) (rd : Register) (f3 : Funct3) (rs1 rs2 : Register) (f7 : Funct7) :
    EncodedOpcode.Statement (.r3B lo rd f3 rs1 rs2 f7) := (encodeR_fields _ rd f3 rs1 rs2 f7).1

theorem EncodedOpcode.s23 (lo : BitVec 2) (f3 : Funct3) (rs1 rs2 : Register) (imm : Imm0to11) :
    EncodedOpcode.Statement (.s23 lo f3 rs1 rs2 imm) := (encodeS_fields _ f3 rs1 rs2 imm).1

theorem EncodedOpcode.u37 (lo : BitVec 2) (rd : Register) (imm : Imm12to31) :
    EncodedOpcode.Statement (.u37 lo rd imm) := (encodeU_fields _ rd imm).1

theorem EncodedOpcode.ecall : EncodedOpcode.Statement .ecall := by
  unfold EncodedOpcode.Statement
  decide

theorem EncodedOpcode.ebreak : EncodedOpcode.Statement .ebreak := by
  unfold EncodedOpcode.Statement
  decide

theorem EncodedOpcode.wfi : EncodedOpcode.Statement .wfi := by
  unfold EncodedOpcode.Statement
  decide

theorem EncodedOpcode.mret : EncodedOpcode.Statement .mret := by
  unfold EncodedOpcode.Statement
  decide

theorem EncodedOpcode.sret : EncodedOpcode.Statement .sret := by
  unfold EncodedOpcode.Statement
  decide

theorem EncodedOpcode.dret : EncodedOpcode.Statement .dret := by
  unfold EncodedOpcode.Statement
  decide

theorem RowFormat.b63 (lo : BitVec 2) (f3 : Funct3) (rs1 rs2 : Register) (imm : Imm1to12) :
    RowFormat.Statement (.b63 lo f3 rs1 rs2 imm) := rowFormat _

theorem RowFormat.i13 (lo : BitVec 2) (rd : Register) (f3 : Funct3) (rs1 : Register) (imm : Imm0to11) :
    RowFormat.Statement (.i13 lo rd f3 rs1 imm) := rowFormat _

theorem RowFormat.i03 (lo : BitVec 2) (rd : Register) (f3 : Funct3) (rs1 : Register) (imm : Imm0to11) :
    RowFormat.Statement (.i03 lo rd f3 rs1 imm) := rowFormat _

theorem RowFormat.i67 (lo : BitVec 2) (rd : Register) (f3 : Funct3) (rs1 : Register) (imm : Imm0to11) :
    RowFormat.Statement (.i67 lo rd f3 rs1 imm) := rowFormat _

theorem RowFormat.i73 (lo : BitVec 2) (rd : Register) (f3 : Funct3) (rs1 : Register) (imm : Imm0to11) :
    RowFormat.Statement (.i73 lo rd f3 rs1 imm) := rowFormat _

theorem RowFormat.j6F (lo : BitVec 2) (rd : Register) (imm : Imm1to20) :
    RowFormat.Statement (.j6F lo rd imm) := rowFormat _

theorem RowFormat.r33 (lo : BitVec 2) (rd : Register) (f3 : Funct3) (rs1 rs2 : Register) (f7 : Funct7) :
    RowFormat.Statement (.r33 lo rd f3 rs1 rs2 f7) := rowFormat _

theorem RowFormat.r2F (lo : BitVec 2) (rd : Register) (f3 : Funct3) (rs1 rs2 : Register) (f7 : Funct7) :
    RowFormat.Statement (.r2F lo rd f3 rs1 rs2 f7) := rowFormat _

theorem RowFormat.r3B (lo : BitVec 2) (rd : Register) (f3 : Funct3) (rs1 rs2 : Register) (f7 : Funct7) :
    RowFormat.Statement (.r3B lo rd f3 rs1 rs2 f7) := rowFormat _

theorem RowFormat.s23 (lo : BitVec 2) (f3 : Funct3) (rs1 rs2 : Register) (imm : Imm0to11) :
    RowFormat.Statement (.s23 lo f3 rs1 rs2 imm) := rowFormat _

theorem RowFormat.u37 (lo : BitVec 2) (rd : Register) (imm : Imm12to31) :
    RowFormat.Statement (.u37 lo rd imm) := rowFormat _

theorem RowFormat.ecall : RowFormat.Statement .ecall := rowFormat _

theorem RowFormat.ebreak : RowFormat.Statement .ebreak := rowFormat _

theorem RowFormat.wfi : RowFormat.Statement .wfi := rowFormat _

theorem RowFormat.mret : RowFormat.Statement .mret := rowFormat _

theorem RowFormat.sret : RowFormat.Statement .sret := rowFormat _

theorem RowFormat.dret : RowFormat.Statement .dret := rowFormat _

end Sys2Proof.Laws
end

