-- ==== Sys2Proof/Tests/Slice0.lean ====
section
/-! SUPPORT. Tests of the model against the vectors of spec/95_test_vectors.md, and one witness per statement that has
hypotheses. Expected values come from the spec, never from the model. -/

namespace Sys2Proof.Tests

open Machine

/-- An instance over the given bytes, at address 0, with the default parameters. -/
def source (bytes : List Byte) : State := State.construct defaultParams 0 ⟨bytes, .ends⟩

/-- An instance over a source that repeats a block of bytes for ever. -/
def endlessSource (first : Byte) (others : List Byte) : State :=
  State.construct defaultParams 0 ⟨[], .repeats first others⟩

/-- A block whose size table recognises nothing. -/
def noSizes : Params := ⟨[], 64⟩

/-- The opcode of a variant of format `f`, in a block with the default parameters. -/
def opc (bits : OpcodeBits) (f : Format) (hf : formatOfKey (keyOf bits) = .ok f := by decide)
    (hs : Machine.sizeOf defaultParams bits = .ok .size32 := by decide) : VariantOpcode defaultParams f :=
  ⟨bits, hf, hs⟩

/-- An `Opcode` as `OpcodeFromRaw` gives it for a row's own opcode. -/
def rawOpc (bits : OpcodeBits) (f : Format) (hf : formatOfKey (keyOf bits) = .ok f := by decide)
    (hs : Machine.sizeOf defaultParams bits = .ok .size32 := by decide) : Opcode defaultParams :=
  ⟨bits, f, .size32, hf, hs⟩

/-- The I variant of the system opcode with every field 0 but the immediate (R213 to R219). -/
def systemVariant (raw : BitVec 12) : Instruction defaultParams := .i (opc 0x73 .I) 0 0 0 ⟨raw⟩

/-- A builder with nothing set. -/
def emptyBuilder : BuildInput defaultParams := ⟨none, none, none, none, none, none, none⟩

/-- The next state of a step, as data that `decide` compares. -/
def after (s : State) : Option State :=
  match step s with
  | .next t => some t
  | .fault _ => none
  | .refused _ => none

/-! ## WellFormed: one ill-formed term per check -/

/-- Low opcode bits 01 are of size class Size16 (R60, R61). -/
theorem test_illFormed_size : wellFormed defaultParams (.r33 1 10 0 5 6 0) = false := by decide

/-- The word of `ebreak` is not a term of row I.0x73 (R213). -/
theorem test_illFormed_systemWord : wellFormed defaultParams (.i73 3 0 0 0 ⟨0x001⟩) = false := by decide

/-- One bit away from `ecall` is a term of row I.0x73 (95 section 7, word 0x000000F3). -/
theorem test_wellFormed_nearSystemWord : wellFormed defaultParams (.i73 3 1 0 0 ⟨0x000⟩) = true := by decide

/-! ## Decoding: words written out from R48 to R53, bits as funct7 rs2 rs1 funct3 rd opcode -/

theorem test_decode_r33 :
    decodeWord defaultParams 0b0100000_01011_01010_000_01010_0110011#32 = .ok (.r33 3 10 0 10 11 0x20) := by decide

theorem test_decode_r2F :
    decodeWord defaultParams 0b0000100_00000_01010_010_01010_0101111#32 = .ok (.r2F 3 10 2 10 0 4) := by decide

theorem test_decode_r3B :
    decodeWord defaultParams 0b0000000_01011_01010_000_01010_0111011#32 = .ok (.r3B 3 10 0 10 11 0) := by decide

theorem test_decode_i13 :
    decodeWord defaultParams 0b010000000101_01010_101_01010_0010011#32 = .ok (.i13 3 10 5 10 ⟨0x405⟩) := by decide

theorem test_decode_i03 :
    decodeWord defaultParams 0b000000000000_01100_010_01010_0000011#32 = .ok (.i03 3 10 2 12 ⟨0⟩) := by decide

theorem test_decode_i67 :
    decodeWord defaultParams 0b000000000000_00001_000_00001_1100111#32 = .ok (.i67 3 1 0 1 ⟨0⟩) := by decide

theorem test_decode_i73 :
    decodeWord defaultParams 0b001100000101_00101_001_00000_1110011#32 = .ok (.i73 3 0 1 5 ⟨0x305⟩) := by decide

theorem test_decode_s23 :
    decodeWord defaultParams 0b0000000_01010_00010_010_01100_0100011#32 = .ok (.s23 3 2 2 10 ⟨0x00C⟩) := by decide

theorem test_decode_b63 :
    decodeWord defaultParams 0b0000000_01011_01100_100_01000_1100011#32 = .ok (.b63 3 4 12 11 ⟨0x004⟩) := by decide

/-- Word bit 7 alone is immediate bit 11 of format B (95 section 5, walking one). -/
theorem test_decode_b63_bit7 : decodeWord defaultParams 0x000000E3#32 = .ok (.b63 3 0 0 0 ⟨0x400⟩) := by decide

theorem test_decode_u37 :
    decodeWord defaultParams 0b00010010001101000101_01010_0110111#32 = .ok (.u37 3 10 ⟨0x12345⟩) := by decide

theorem test_decode_j6F :
    decodeWord defaultParams 0b0_0000000100_0_00000000_00001_1101111#32 = .ok (.j6F 3 1 ⟨0x00004⟩) := by decide

/-- Word bits 20 and 12 are immediate bits 11 and 12 of format J (95 section 5, walking one). -/
theorem test_decode_j6F_bits :
    decodeWord defaultParams 0x0010006F#32 = .ok (.j6F 3 0 ⟨0x00400⟩) ∧
      decodeWord defaultParams 0x0000106F#32 = .ok (.j6F 3 0 ⟨0x00800⟩) := by decide

theorem test_decode_systemWords :
    decodeWord defaultParams 0x00000073#32 = .ok .ecall ∧ decodeWord defaultParams 0x00100073#32 = .ok .ebreak ∧
      decodeWord defaultParams 0x10500073#32 = .ok .wfi ∧ decodeWord defaultParams 0x30200073#32 = .ok .mret ∧
      decodeWord defaultParams 0x10200073#32 = .ok .sret ∧ decodeWord defaultParams 0x7B200073#32 = .ok .dret := by
  decide

/-- Words that do not decode (95 section 5). -/
theorem test_decode_refused :
    decodeWord defaultParams 0x00000017#32 = .error .unrecognizedInstructionFormat ∧
      decodeWord defaultParams 0xFFFFFFFF#32 = .error .unrecognizedInstructionFormat ∧
      decodeWord defaultParams 0x0000007F#32 = .error .unrecognizedInstructionFormat ∧
      decodeWord defaultParams 0x00000000#32 = .error (.unsupportedInstructionSize .size16) ∧
      decodeWord defaultParams 0x00628532#32 = .error (.unsupportedInstructionSize .size16) := by decide

/-- Per-format decoders on words of another format (95 section 5). -/
theorem test_decodeAs_refused :
    decodeR defaultParams 0x00B64463#32 = .error (.unexpectedFormat .B) ∧
      decodeI defaultParams 0x00628533#32 = .error (.unexpectedFormat .R) ∧
      decodeJ defaultParams 0x12345537#32 = .error (.unexpectedFormat .U) ∧
      decodeB defaultParams 0x00000017#32 = .error .unrecognizedInstructionFormat ∧
      decodeR defaultParams 0x00B64461#32 = .error (.unsupportedInstructionSize .size16) := by decide

/-- Encode vectors, one per format (95 section 5, right to left). -/
theorem test_encode :
    encode (.r33 3 31 7 31 31 0x7F) = 0xFFFFFFB3#32 ∧ encode (.i13 3 10 0 0 ⟨0x800⟩) = 0x80000513#32 ∧
      encode (.s23 3 2 2 1 ⟨0xFFC⟩) = 0xFE112E23#32 ∧ encode (.b63 3 0 0 0 ⟨0x7FF⟩) = 0x7E000FE3#32 ∧
      encode (.u37 3 1 ⟨0x80000⟩) = 0x800000B7#32 ∧ encode (.j6F 3 0 ⟨0x7FFFF⟩) = 0x7FFFF06F#32 := by decide

/-! ## Primitives, immediates and classifier (95 sections 2 to 4) -/

theorem test_registers :
    regFromRaw 31#8 = .ok 31 ∧ regFromRaw 32#8 = .error .invalidRegister ∧ regFromWord 0x000F8000#32 15 = 31 ∧
      regFromWord 0xFE0FFFFF#32 20 = 0 ∧ regToWord 31 15 = 0x000F8000#32 ∧ regNameText (regName 27) = "s11" ∧
      regOfName .t1 = 6 := by decide

theorem test_functs :
    funct3FromRaw 7#8 = .ok 7 ∧ funct3FromRaw 8#8 = .error (.invalidFunctValue 3) ∧ funct7FromRaw 127#8 = .ok 127 ∧
      funct7FromRaw 128#8 = .error (.invalidFunctValue 7) ∧ funct3FromWord 0xFFFF8FFF#32 = 0 ∧
      funct7FromWord 0xFE000000#32 = 127 ∧ funct3ToWord 7 = 0x00007000#32 ∧ funct7ToWord 127 = 0xFE000000#32 := by
  decide

theorem test_immFromSigned :
    immFromSigned 0 12 (-2048) = .ok ⟨0x800⟩ ∧ immFromSigned 0 12 2048 = .error (.immediateOutOfRange (-2048) 2047) ∧
      immFromSigned 1 12 (-4) = .ok ⟨0xFFE⟩ ∧ immFromSigned 1 12 (-1) = .error (.immediateBitsBeforeStart 1) ∧
      immFromSigned 1 12 4095 = .error (.immediateOutOfRange (-4096) 4094) ∧
      immFromSigned 12 20 2147479552 = .ok ⟨0x7FFFF⟩ ∧
      immFromSigned 12 20 74565 = .error (.immediateBitsBeforeStart 12) ∧
      immFromSigned 1 20 (-1048576) = .ok ⟨0x80000⟩ := by decide

theorem test_immToSigned :
    immToSigned (⟨0xFFF⟩ : Imm0to11) = -1 ∧ immToSigned (⟨0x004⟩ : Imm1to12) = 8 ∧
      immToSigned (⟨0x80000⟩ : Imm12to31) = -2147483648 ∧ immToSigned (⟨0x12345⟩ : Imm12to31) = 305418240 ∧
      immToSigned (⟨0xFFFFE⟩ : Imm1to20) = -4 := by decide

theorem test_immRawBits :
    immFromRawBits 1 12 0x800#32 = .ok ⟨0x800⟩ ∧
      immFromRawBits 0 12 0x1000#32 = .error (.immediateOutOfRange (-2048) 2047) ∧
      immToRawBits (⟨0xFFF⟩ : Imm0to11) = 0xFFF#32 := by decide

theorem test_classifier :
    opcodeFromRaw defaultParams 0x33#8 = .ok (rawOpc 0x33 .R) ∧ opcodeFromRaw defaultParams 0xB3#8 = .error .invalidOpcode ∧
      opcodeFromRaw defaultParams 0x4A#8 = .error .unrecognizedInstructionFormat ∧
      opcodeFromRaw defaultParams 0x00#8 = .ok ⟨0x00, .I, .size16, by decide, by decide⟩ := by decide

theorem test_sizes :
    sizeTableOf defaultParams 0x02#7 = some .size16 ∧ sizeTableOf defaultParams 0x5F#7 = some .size48 ∧
      sizeTableOf defaultParams 0x3F#7 = some .size64 ∧ sizeTableOf defaultParams 0x7F#7 = none := by decide

/-! ## Accessors, builder and lookup interface (95 sections 6 and 7) -/

/-- The accessors of the S variant of `0x00A12623`. -/
theorem test_accessors (x : Instruction defaultParams) (h : x = .s (opc 0x23 .S) 2 2 10 ⟨0x00C⟩) :
    decode defaultParams 0x00A12623#32 = .ok x ∧ rdOf x = none ∧ funct3Of x = some 2 ∧ rs1Of x = some 2 ∧
      rs2Of x = some 10 ∧ funct7Of x = none ∧ immediateSigned x = some 12 := by
  subst h
  decide

theorem test_build :
    build ⟨some (rawOpc 0x63 .B), some 4, none, some 12, some 11, none, some 8⟩ =
        .ok (.b (opc 0x63 .B) 4 12 11 ⟨0x004⟩) ∧
      build ⟨some (rawOpc 0x33 .R), some 0, some 0, some 5, some 6, some 10, some 123456789⟩ =
        .ok (.r (opc 0x33 .R) 10 0 5 6 0) := by decide

theorem test_build_refused :
    build ⟨some (rawOpc 0x33 .R), none, none, some 5, some 6, some 10, none⟩ = .error (.builderMissingField .funct3) ∧
      build ⟨some (rawOpc 0x13 .I), some 0, none, some 0, none, none, some 2048⟩ = .error (.builderMissingField .rd) ∧
      build ⟨some (rawOpc 0x63 .B), some 4, none, some 12, some 11, none, some 7⟩ =
        .error (.immediateBitsBeforeStart 1) ∧
      build (p := defaultParams)
          ⟨some ⟨0x31, .R, .size16, by decide, by decide⟩, some 0, some 0, some 5, some 6, some 10, none⟩ =
        .error (.unsupportedInstructionSize .size16) := by decide

theorem test_make_refused :
    makeR (rawOpc 0x63 .B) 10 0 5 6 0 = .error (.unexpectedFormat .B) ∧
      makeI (rawOpc 0x33 .R) 10 0 0 5000 = .error (.unexpectedFormat .R) := by decide

theorem test_operands :
    operands sysLookup (.s (opc 0x23 .S) 2 2 10 ⟨0x00C⟩) = [.reg 10, .imm 12, .reg 2] ∧
      operands sysLookup (.i (opc 0x73 .I) 1 0 0 ⟨0x000⟩) = [.reg 1, .reg 0, .imm 0] ∧
      operands sysLookup (systemVariant 0x000) = [] := by decide

theorem test_lookupKey :
    lookupKey (.r (opc 0x33 .R) 10 0 5 6 0) = ⟨0x33, some 0, some 0⟩ ∧
      lookupKey (.b (opc 0x63 .B) 4 12 11 ⟨0x004⟩) = ⟨0x63, some 4, none⟩ ∧
      lookupKey (.u (opc 0x37 .U) 10 ⟨0x12345⟩) = ⟨0x37, none, none⟩ := by decide

theorem test_mnemonic :
    mnemonic (fun _ => none) sysLookup (systemVariant 0x001) = some "ebreak" ∧
      mnemonic (fun _ => none) sysLookup (.r (opc 0x33 .R) 10 0 5 6 0) = none := by decide

/-! ## Steps (95 section 8) -/

/-- P1 step 1. -/
theorem test_step_record :
    after (source [0x33, 0x85, 0x62, 0x00, 0x13]) =
      some ⟨defaultParams, 0, .ready, 32, ⟨[0x13], .ends⟩, 4, some (.item ⟨.r (opc 0x33 .R) 10 0 5 6 0, 0⟩)⟩ := by decide

/-- P2 step 5: `ebreak` stops nothing. -/
theorem test_step_ebreak :
    after { source [0x73, 0x00, 0x10, 0x00] with addr := 4224, pos := 16 } =
      some ⟨defaultParams, 0, .ready, 4256, ⟨[], .ends⟩, 20, some (.item ⟨.i (opc 0x73 .I) 0 0 0 ⟨1⟩, 4224⟩)⟩ := by decide

/-- P3 step 2: an unmapped key, after four bytes. -/
theorem test_step_undecodable :
    after { source [0x17, 0x00, 0x00, 0x00, 0x23] with addr := 32, pos := 4 } =
      some ⟨defaultParams, 0, .failed, 32, ⟨[0x23], .ends⟩, 8, some (.error .unrecognizedInstructionFormat)⟩ := by decide

/-- P4 step 2: a truncated word. -/
theorem test_step_truncated :
    after { source [0x13, 0x05] with addr := 32, pos := 4 } =
      some ⟨defaultParams, 0, .failed, 32, ⟨[], .ends⟩, 6, some (.error .unexpectedEof)⟩ := by decide

/-- P5: a first byte of another size, of no size, the empty source, and a first byte with bit 7 set. -/
theorem test_step_firstByte :
    after (source [0x01, 0, 0, 0]) =
        some ⟨defaultParams, 0, .failed, 0, ⟨[0, 0, 0], .ends⟩, 1, some (.error (.unsupportedInstructionSize .size16))⟩ ∧
      after (source [0xFF, 0, 0, 0]) =
        some ⟨defaultParams, 0, .failed, 0, ⟨[0, 0, 0], .ends⟩, 1, some (.error .unrecognizedInstructionSize)⟩ ∧
      after (source []) = some ⟨defaultParams, 0, .ended, 0, ⟨[], .ends⟩, 0, some .done⟩ ∧
      after (source [0xB3, 0x85, 0x62, 0x00]) =
        some ⟨defaultParams, 0, .ready, 32, ⟨[], .ends⟩, 4, some (.item ⟨.r (opc 0x33 .R) 11 0 5 6 0, 0⟩)⟩ := by decide

/-- A poll after a failure answers End and reads nothing (P3 step 3). -/
theorem test_step_afterFailure :
    after { source [0x23, 0x26] with st := .failed, addr := 32, pos := 8 } =
      some ⟨defaultParams, 0, .failed, 32, ⟨[0x23, 0x26], .ends⟩, 8, some .done⟩ := by decide

/-- The counter wraps (R12). -/
theorem test_step_wrap :
    after { source [0x33, 0x85, 0x62, 0x00] with addr := 2 ^ 64 - 32 } =
      some ⟨defaultParams, 0, .ready, 0, ⟨[], .ends⟩, 4, some (.item ⟨.r (opc 0x33 .R) 10 0 5 6 0, 2 ^ 64 - 32⟩)⟩ := by decide

/-- An endless source never runs out: one step leaves it as it was (92 D10). -/
theorem test_step_endless :
    after (endlessSource 0x33 [0x85, 0x62, 0x00]) =
      some ⟨defaultParams, 0, .ready, 32, ⟨[], .repeats 0x33 [0x85, 0x62, 0x00]⟩, 4,
        some (.item ⟨.r (opc 0x33 .R) 10 0 5 6 0, 0⟩)⟩ := by decide

/-- A term of row R.0x33 whose opcode 0x31 is of size `Size16` stands for no Instruction of the block, as its word
0x00628531 decodes to none (95 section 5): it fails with the word's error. -/
theorem test_exec_size16 :
    exec (.r33 1 10 0 5 6 0) (source []) =
      .next { source [] with st := .failed, out := some (.error (.unsupportedInstructionSize .size16)) } := rfl

/-- No Instruction of the block holds opcode 0x31 (R23, R179: its `SIZE_OF` is `Size16`). -/
theorem test_noInstruction_size16 (x : Instruction defaultParams) : (opcodeOf x).bits ≠ 0x31#7 := fun h =>
  absurd (h ▸ Laws.opcodeOf_sized x) (by decide : sizeTableOf defaultParams 0x31#7 ≠ some .size32)

/-! ## The host's two entry points -/

theorem test_decodeTableWord :
    decodeTableWord 32 0x00B64463 = some (.b63 3 4 12 11 ⟨0x004⟩) ∧ decodeTableWord 32 0x10500073 = some .wfi ∧
      decodeTableWord 32 0x00000017 = none := by decide

theorem test_withFetchWord :
    after (State.reset.withFetchWord 32 0x00628533) =
      some ⟨defaultParams, 0, .ready, 32, ⟨[], .ends⟩, 4, some (.item ⟨.r (opc 0x33 .R) 10 0 5 6 0, 0⟩)⟩ := by decide

/-! ## Witnesses: for every statement with hypotheses, concrete values that meet them, clause by clause -/

theorem witness_DecodeOfEncodeIsTheInstruction :
    wellFormed defaultParams (.i13 3 10 0 0 ⟨0xFFF⟩) = true ∧ wellFormed defaultParams (.i73 3 0 1 5 ⟨0x305⟩) = true ∧
      wellFormed defaultParams .dret = true := by decide

theorem witness_EncodeOfDecodeIsTheWord :
    decodeWord defaultParams 0x00A12623#32 = .ok (.s23 3 2 2 10 ⟨0x00C⟩) := by decide

theorem witness_UnionDecodeAndEncodeAreInverse :
    decode defaultParams 0x12345537#32 = .ok (.u (opc 0x37 .U) 10 ⟨0x12345⟩) ∧
      decode defaultParams 0x00000017#32 = .error .unrecognizedInstructionFormat := by decide

theorem witness_EachFormatRoundTrips :
    decodeAs defaultParams .J 0x008000EF#32 = .ok (.j (opc 0x6F .J) 1 ⟨0x00004⟩) ∧
      makeR (rawOpc 0x33 .R) 10 0 5 6 0 = .ok (.r (opc 0x33 .R) 10 0 5 6 0) ∧
      makeI (rawOpc 0x13 .I) 10 0 0 (-2048) = .ok (.i (opc 0x13 .I) 10 0 0 ⟨0x800⟩) ∧
      makeS (rawOpc 0x23 .S) 2 2 1 2047 = .ok (.s (opc 0x23 .S) 2 2 1 ⟨0x7FF⟩) ∧
      makeB (rawOpc 0x63 .B) 0 0 0 4094 = .ok (.b (opc 0x63 .B) 0 0 0 ⟨0x7FF⟩) ∧
      makeU (rawOpc 0x37 .U) 1 (-2147483648) = .ok (.u (opc 0x37 .U) 1 ⟨0x80000⟩) ∧
      makeJ (rawOpc 0x6F .J) 31 (-1048576) = .ok (.j (opc 0x6F .J) 31 ⟨0x80000⟩) := by decide

theorem unmapped_key_00101 (f : Format) : ((0b00101#5 : Key), f) ∉ keyFormats := by
  cases f <;> decide

theorem witness_WordsAreIllegalExactlyByKeyAndSize :
    (∀ f, (keyOf (wordOpcode 0x00000017#32), f) ∉ keyFormats) ∧
      ((keyOf (wordOpcode 0x00628533#32), .R) ∈ keyFormats ∧ sizeTableOf noSizes (wordOpcode 0x00628533#32) = none) ∧
      ((keyOf (wordOpcode 0x00628531#32), .R) ∈ keyFormats ∧
        sizeTableOf defaultParams (wordOpcode 0x00628531#32) = some .size16) ∧
      ((keyOf (wordOpcode 0x00628533#32), .R) ∈ keyFormats ∧
        sizeTableOf defaultParams (wordOpcode 0x00628533#32) = some .size32) :=
  ⟨unmapped_key_00101, by decide, by decide, by decide⟩

theorem witness_FieldValuesNeverMakeAWordIllegal :
    (wordOpcode 0x00628533#32 = wordOpcode 0xFE007033#32 ∧
        decode defaultParams 0x00628533#32 = .ok (.r (opc 0x33 .R) 10 0 5 6 0)) ∧
      (wordOpcode 0x00000017#32 = wordOpcode 0xFFFFF017#32 ∧
        decode defaultParams 0x00000017#32 = .error .unrecognizedInstructionFormat) := by decide

theorem witness_ClassifierFollowsTheFormatAndSizeTables :
    (0x80#8 : BitVec 8).getLsbD 7 = true ∧
      ((0x17#8 : BitVec 8).getLsbD 7 = false ∧ ∀ f, ((0x17#8 : BitVec 8).extractLsb' 2 5, f) ∉ keyFormats) ∧
      ((0x33#8 : BitVec 8).getLsbD 7 = false ∧ ((0x33#8 : BitVec 8).extractLsb' 2 5, .R) ∈ keyFormats ∧
        sizeTableOf noSizes ((0x33#8 : BitVec 8).extractLsb' 0 7) = none ∧
        sizeTableOf defaultParams ((0x33#8 : BitVec 8).extractLsb' 0 7) = some .size32) :=
  ⟨by decide, ⟨by decide, unmapped_key_00101⟩, by decide⟩

theorem witness_FormatRWordsDecodeBitByBit :
    variantFront defaultParams 0xFFFFFFB3#32 .R = .ok (opc 0x33 .R) := by decide

theorem witness_FormatIWordsDecodeBitByBit :
    variantFront defaultParams 0x80000513#32 .I = .ok (opc 0x13 .I) := by decide

theorem witness_FormatSWordsDecodeBitByBit :
    variantFront defaultParams 0xFE112E23#32 .S = .ok (opc 0x23 .S) := by decide

theorem witness_FormatBWordsDecodeBitByBit :
    variantFront defaultParams 0xFE000EE3#32 .B = .ok (opc 0x63 .B) := by decide

theorem witness_FormatUWordsDecodeBitByBit :
    variantFront defaultParams 0xFFFFF0B7#32 .U = .ok (opc 0x37 .U) := by decide

theorem witness_FormatJWordsDecodeBitByBit :
    variantFront defaultParams 0xFFDFF06F#32 .J = .ok (opc 0x6F .J) := by decide

theorem witness_DecodersFailOnlyByClassification :
    variantFront defaultParams 0x00000017#32 .B = .error .unrecognizedInstructionFormat ∧
      (opcodeFromRaw defaultParams ((wordOpcode 0x00B64463#32).setWidth 8) = .ok (rawOpc 0x63 .B) ∧
        (rawOpc 0x63 .B).size = .size32 ∧ (rawOpc 0x63 .B).format ≠ .R) := by decide

theorem witness_RawRegisterIndicesAreAcceptedBelow32 :
    (31#8 : BitVec 8).toNat < 32 ∧ 32 ≤ (32#8 : BitVec 8).toNat := by decide

theorem witness_RawFunctValuesAreAcceptedExactlyWhenTheyFit :
    (7#8 : BitVec 8).toNat < 8 ∧ 8 ≤ (8#8 : BitVec 8).toNat ∧ (127#8 : BitVec 8).toNat < 128 ∧
      128 ≤ (128#8 : BitVec 8).toNat := by decide

/-- Bits at the two edges of each field. -/
theorem witness_FieldInsertionStaysInItsField :
    ((7 = rdOffset ∨ 7 = rs1Offset ∨ 7 = rs2Offset) ∧ (6 < 7 ∨ 7 + 5 ≤ 6) ∧ (12 < 7 ∨ 7 + 5 ≤ 12)) ∧
      ((15 = rdOffset ∨ 15 = rs1Offset ∨ 15 = rs2Offset) ∧ (14 < 15 ∨ 15 + 5 ≤ 14)) ∧
      ((20 = rdOffset ∨ 20 = rs1Offset ∨ 20 = rs2Offset) ∧ (25 < 20 ∨ 20 + 5 ≤ 25)) ∧
      (11 < 12 ∨ 15 ≤ 11) ∧ (15 < 12 ∨ 15 ≤ 15) ∧ 24 < 25 := by decide

/-- `Immediate[1,12]` at its minimum and maximum, one value per other clause, and the widest `Immediate[31,31]`. -/
theorem witness_ImmediateLaws :
    (1 ≤ 12 ∧ 12 < 32) ∧
      ((4094 : Int) % 2 ^ 1 = 0 ∧ -(2 ^ 12) ≤ (4094 : Int) ∧ (4094 : Int) ≤ 2 ^ 12 - 2 ^ 1) ∧
      ((-4096 : Int) % 2 ^ 1 = 0 ∧ -(2 ^ 12) ≤ (-4096 : Int) ∧ (-4096 : Int) ≤ 2 ^ 12 - 2 ^ 1) ∧
      ((4093 : Int) % 2 ^ 1 ≠ 0 ∧ -(2 ^ 12) ≤ (4093 : Int) ∧ (4093 : Int) ≤ 2 ^ 12 - 2 ^ 1) ∧
      ((4096 : Int) % 2 ^ 1 = 0 ∧ ((4096 : Int) < -(2 ^ 12) ∨ 2 ^ 12 - 2 ^ 1 < (4096 : Int))) ∧
      ((4095 : Int) % 2 ^ 1 ≠ 0 ∧ ((4095 : Int) < -(2 ^ 12) ∨ 2 ^ 12 - 2 ^ 1 < (4095 : Int))) ∧
      immFromSigned 1 (12 - 1 + 1) (-4) = .ok ⟨0xFFE⟩ ∧ (31 ≤ 31 ∧ 31 < 32) := by decide

theorem witness_SignedValueOfAnImmediate : 12 ≤ 31 ∧ 31 < 32 := by decide

theorem witness_RawBitsAreAcceptedExactlyWhenTheyFit :
    (0 ≤ 11 ∧ 11 < 32) ∧ (0xFFF#32 : BitVec 32).toNat < 2 ^ (11 - 0 + 1) ∧
      2 ^ (11 - 0 + 1) ≤ (0x1000#32 : BitVec 32).toNat := by decide

/-- An opcode of another size, one of another format, and immediates beside each range or with a low bit set, with the
errors that the examples of R137, R153, R155, R156 and R157 give. -/
theorem witness_ConstructorsAcceptExactlyTheLegalOperands :
    makeU (rawOpc 0x37 .U) 10 (-2147483648) = .ok (.u (opc 0x37 .U) 10 ⟨0x80000⟩) ∧
      (⟨0x31, .R, .size16, by decide, by decide⟩ : Opcode defaultParams).size ≠ .size32 ∧
      ((rawOpc 0x63 .B).size = .size32 ∧ (rawOpc 0x63 .B).format ≠ .R ∧
        makeR (rawOpc 0x63 .B) 10 0 5 6 0 = .error (.unexpectedFormat .B)) ∧
      ((rawOpc 0x13 .I).size = .size32 ∧ (rawOpc 0x13 .I).format = .I ∧ (2047 : Int) < 2048 ∧
        makeI (rawOpc 0x13 .I) 10 0 0 2048 = .error (.immediateOutOfRange (-2048) 2047)) ∧
      ((rawOpc 0x23 .S).size = .size32 ∧ (rawOpc 0x23 .S).format = .S ∧ (-2049 : Int) < -2048) ∧
      ((rawOpc 0x63 .B).format = .B ∧ ((-4096 : Int) ≤ 7 ∧ (7 : Int) ≤ 4094 ∧ (7 : Int) % 2 ^ 1 ≠ 0) ∧
        makeB (rawOpc 0x63 .B) 4 12 11 7 = .error (.immediateBitsBeforeStart 1) ∧
        makeB (rawOpc 0x63 .B) 4 12 11 4096 = .error (.immediateOutOfRange (-4096) 4094)) ∧
      ((rawOpc 0x37 .U).size = .size32 ∧ (rawOpc 0x37 .U).format = .U ∧
        makeU (rawOpc 0x37 .U) 10 0x12345 = .error (.immediateBitsBeforeStart 12)) ∧
      ((rawOpc 0x6F .J).size = .size32 ∧ (rawOpc 0x6F .J).format = .J ∧
        makeJ (rawOpc 0x6F .J) 1 1048576 = .error (.immediateOutOfRange (-1048576) 1048574)) := by decide

theorem witness_BuilderNamesAMissingRequiredField :
    emptyBuilder.opcode = none ∧
      (requiredFields (rawOpc 0x6F .J).format).find?
          (fun f => !fieldPresent { emptyBuilder with opcode := some (rawOpc 0x6F .J), imm := some 8 } f) = some .rd ∧
      ((∀ f ∈ requiredFields (rawOpc 0x6F .J).format,
          fieldPresent { emptyBuilder with opcode := some (rawOpc 0x6F .J), rd := some 1, imm := some 7 } f = true) ∧
        build { emptyBuilder with opcode := some (rawOpc 0x6F .J), rd := some 1, imm := some 7 } =
          .error (.immediateBitsBeforeStart 1)) ∧
      ((rawOpc 0x33 .R).format = .R ∧ (rawOpc 0x13 .I).format = .I ∧ (rawOpc 0x23 .S).format = .S ∧
        (rawOpc 0x63 .B).format = .B ∧ (rawOpc 0x37 .U).format = .U ∧ (rawOpc 0x6F .J).format = .J) := by decide

/-- The builders of the example of R178: they differ in the immediate of an R opcode, which is out of every range. -/
theorem witness_BuilderIgnoresIrrelevantFields (b c : BuildInput defaultParams)
    (hb : b = ⟨some (rawOpc 0x33 .R), some 0, some 0, some 5, some 6, some 10, none⟩)
    (hc : c = { b with imm := some 123456789123 }) :
    b.opcode = some (rawOpc 0x33 .R) ∧ c.opcode = some (rawOpc 0x33 .R) ∧
      (∀ f ∈ requiredFields (rawOpc 0x33 .R).format, fieldAgrees b c f) ∧ b ≠ c := by
  subst hc hb
  refine ⟨rfl, rfl, fun f hf => ?_, by decide⟩
  cases f <;> first | rfl | exact absurd hf (by decide)

theorem witness_EveryInstructionSatisfiesTheInvariant :
    build { emptyBuilder with opcode := some (rawOpc 0x37 .U), rd := some 10, imm := some 305418240 } =
      .ok (.u (opc 0x37 .U) 10 ⟨0x12345⟩) := by decide

theorem witness_AccessorsAnswerTheFieldsOfTheWord :
    decode defaultParams 0x0805252F#32 = .ok (.r (opc 0x2F .R) 10 2 10 0 4) ∧
      (decode defaultParams 0x00B64463#32 = .ok (.b (opc 0x63 .B) 4 12 11 ⟨0x004⟩) ∧
        immediateOf (.b (opc 0x63 .B) 4 12 11 ⟨0x004⟩) = some (.imm1to12 ⟨0x004⟩)) := by decide

theorem witness_BundleCarriesTheWholeInstruction :
    bundleOf (systemVariant 0x000) = bundleOf (systemVariant 0x000) ∧
      (bundleOf (systemVariant 0x000)).rs2Valid = false ∧ (bundleOf (systemVariant 0x000)).funct7Valid = false ∧
      (bundleOf (.s (opc 0x23 .S) 2 2 10 ⟨0x00C⟩)).rdValid = false ∧
      (bundleOf (.u (opc 0x37 .U) 10 ⟨0x12345⟩)).funct3Valid = false ∧
      (bundleOf (.u (opc 0x37 .U) 10 ⟨0x12345⟩)).rs1Valid = false ∧
      (bundleOf (.r (opc 0x33 .R) 10 0 5 6 0)).immValid = false ∧
      (immediateSigned (.b (opc 0x63 .B) 4 12 11 ⟨0x004⟩) = some 8 ∧
        (bundleOf (.b (opc 0x63 .B) 4 12 11 ⟨0x004⟩)).immSigned = 8) ∧
      (rdOf (.r (opc 0x33 .R) 10 0 5 6 0) = some 10 ∧ (bundleOf (.r (opc 0x33 .R) 10 0 5 6 0)).rdValid = true) := by
  decide

theorem witness_LookupKeyOfADecodedWord :
    decode defaultParams 0x00B64463#32 = .ok (.b (opc 0x63 .B) 4 12 11 ⟨0x004⟩) := by decide

/-- All six entries of the list: each meets the hypotheses, and the word decodes with the raw immediate of its rule. -/
theorem witness_SystemWordsDecodeAndAreNamed :
    sizeTableOf defaultParams 0x73#7 = some .size32 ∧
      ∀ e ∈ [(0x00000073#32, "ecall", 0x000#12, (0 : Int)), (0x00100073#32, "ebreak", 0x001#12, 1),
          (0x10500073#32, "wfi", 0x105#12, 261), (0x30200073#32, "mret", 0x302#12, 770),
          (0x10200073#32, "sret", 0x102#12, 258), (0x7B200073#32, "dret", 0x7B2#12, 1970)],
        decode defaultParams e.1 = .ok (.i (opc 0x73 .I) 0 0 0 ⟨e.2.2.1⟩) ∧ sysLookup e.1 = some e.2.1 := by decide

theorem witness_PresentationOfADecodedWord :
    (decode defaultParams 0x00628533#32 = .ok (.r (opc 0x33 .R) 10 0 5 6 0)) ∧
      (decode defaultParams 0x00100073#32 = .ok (systemVariant 0x001) ∧ sysLookup 0x00100073#32 = some "ebreak") ∧
      (decode defaultParams 0xFFF00513#32 = .ok (.i (opc 0x13 .I) 10 0 0 ⟨0xFFF⟩) ∧
        sysLookup 0xFFF00513#32 = none ∧ immediateSigned (.i (opc 0x13 .I) 10 0 0 ⟨0xFFF⟩) = some (-1)) ∧
      (decode defaultParams 0x00A12623#32 = .ok (.s (opc 0x23 .S) 2 2 10 ⟨0x00C⟩) ∧
        immediateSigned (.s (opc 0x23 .S) 2 2 10 ⟨0x00C⟩) = some 12) ∧
      (decode defaultParams 0x00B64463#32 = .ok (.b (opc 0x63 .B) 4 12 11 ⟨0x004⟩) ∧
        immediateSigned (.b (opc 0x63 .B) 4 12 11 ⟨0x004⟩) = some 8) ∧
      (decode defaultParams 0x12345537#32 = .ok (.u (opc 0x37 .U) 10 ⟨0x12345⟩) ∧
        immediateSigned (.u (opc 0x37 .U) 10 ⟨0x12345⟩) = some 305418240) ∧
      (decode defaultParams 0x008000EF#32 = .ok (.j (opc 0x6F .J) 1 ⟨0x00004⟩) ∧
        immediateSigned (.j (opc 0x6F .J) 1 ⟨0x00004⟩) = some 8) := by decide

theorem witness_SystemLookupMatchesWholeWords :
    decodeWord defaultParams 0x30200073#32 = .ok .mret ∧
      decodeWord defaultParams 0x000000F3#32 = .ok (.i73 3 1 0 0 ⟨0x000⟩) := by decide

theorem witness_UnrecognizedExtensionIsNeverReturned :
    after (source [0x01]) =
      some ⟨defaultParams, 0, .failed, 0, ⟨[], .ends⟩, 1, some (.error (.unsupportedInstructionSize .size16))⟩ := by decide

theorem witness_StepRunsTheDecodedInstruction :
    (source [0x63, 0x44, 0xB6, 0x00]).st = .ready ∧ NextWord (source [0x63, 0x44, 0xB6, 0x00]) 0x00B64463#32 ∧
      decodeWord (source [0x63, 0x44, 0xB6, 0x00]).params 0x00B64463#32 = .ok (.b63 3 4 12 11 ⟨0x004⟩) := by decide

/-- A term whose opcode has size `Size32`, and one with another size. -/
theorem witness_EveryRowYieldsItsRecordAndNothingElse :
    sizeTableOf defaultParams (rowBits (.r33 3 10 0 5 6 0)) = some .size32 ∧
      sizeTableOf defaultParams (rowBits (.r33 1 10 0 5 6 0)) ≠ some .size32 := by decide

/-- A word of each R key. -/
theorem witness_RFormatWordsCompleteWithTheirRecord (w : Word)
    (h : w = 0x40B50533#32 ∨ w = 0x0805252F#32 ∨ w = 0x00B5053B#32) :
    (source (wordBytes w)).st = .ready ∧ NextWord (source (wordBytes w)) w ∧
      sizeTableOf (source (wordBytes w)).params (wordOpcode w) = some .size32 ∧
      (w.extractLsb' 2 5 = 0b01100#5 ∨ w.extractLsb' 2 5 = 0b01011#5 ∨ w.extractLsb' 2 5 = 0b01110#5) := by
  rcases h with rfl | rfl | rfl <;> decide

/-- A word of each I key; the one of key 11100 is no system word. -/
theorem witness_IFormatWordsCompleteWithTheirRecord (w : Word)
    (h : w = 0xFFF00513#32 ∨ w = 0x00062503#32 ∨ w = 0x000080E7#32 ∨ w = 0x30529073#32) :
    (source (wordBytes w)).st = .ready ∧ NextWord (source (wordBytes w)) w ∧
      sizeTableOf (source (wordBytes w)).params (wordOpcode w) = some .size32 ∧
      (w.extractLsb' 2 5 = 0b00100#5 ∨ w.extractLsb' 2 5 = 0b00000#5 ∨ w.extractLsb' 2 5 = 0b11001#5 ∨
        (w.extractLsb' 2 5 = 0b11100#5 ∧ w ∉ systemWords.map Prod.fst)) := by
  rcases h with rfl | rfl | rfl | rfl <;> decide

/-- A word of each S, B, U and J key. -/
theorem witness_SBUJFormatWordsCompleteWithTheirRecord (w : Word)
    (h : w = 0xFE112E23#32 ∨ w = 0xFE000EE3#32 ∨ w = 0x12345537#32 ∨ w = 0xFFDFF06F#32) :
    (source (wordBytes w)).st = .ready ∧ NextWord (source (wordBytes w)) w ∧
      sizeTableOf (source (wordBytes w)).params (wordOpcode w) = some .size32 ∧
      (w.extractLsb' 2 5 = 0b01000#5 ∨ w.extractLsb' 2 5 = 0b11000#5 ∨ w.extractLsb' 2 5 = 0b01101#5 ∨
        w.extractLsb' 2 5 = 0b11011#5) := by
  rcases h with rfl | rfl | rfl | rfl <;> decide

theorem witness_SystemWordsCompleteWithTheirRecord :
    (source (wordBytes 0x00000073#32)).st = .ready ∧
      sizeTableOf (source (wordBytes 0x00000073#32)).params 0x73#7 = some .size32 ∧
      NextWord (source (wordBytes 0x00000073#32)) 0x00000073#32 ∧
      ((0x00000073#32 : Word), Instr.ecall, 0x000#12) ∈
        [(0x00000073#32, Instr.ecall, 0x000#12), (0x00100073#32, .ebreak, 0x001#12), (0x10500073#32, .wfi, 0x105#12),
          (0x30200073#32, .mret, 0x302#12), (0x10200073#32, .sret, 0x102#12), (0x7B200073#32, .dret, 0x7B2#12)] := by
  decide

theorem witness_CleanEndOfStream : (source []).st = .ready ∧ (source []).source.peek 0 = none := by decide

theorem witness_WrongSizeFailsAfterOneByte :
    ((source [0xFF, 0]).st = .ready ∧ (source [0xFF, 0]).source.peek 0 = some 0xFF ∧
        sizeTableOf (source [0xFF, 0]).params ((0xFF#8 : Byte).extractLsb' 0 7) = none) ∧
      ((source [0x1F]).st = .ready ∧ (source [0x1F]).source.peek 0 = some 0x1F ∧
        sizeTableOf (source [0x1F]).params ((0x1F#8 : Byte).extractLsb' 0 7) = some .size48) := by decide

/-- One byte and three bytes of a word. -/
theorem witness_TruncatedWordFails :
    ((source [0x33]).source.peek 0 = some 0x33 ∧
        sizeTableOf (source [0x33]).params ((0x33#8 : Byte).extractLsb' 0 7) = some .size32 ∧
        (∀ k, k < 1 → (source [0x33]).source.peek k ≠ none) ∧ (source [0x33]).source.peek 1 = none) ∧
      ((source [0x33, 0, 0]).st = .ready ∧ (source [0x33, 0, 0]).source.peek 0 = some 0x33 ∧
        (∀ k, k < 3 → (source [0x33, 0, 0]).source.peek k ≠ none) ∧ (source [0x33, 0, 0]).source.peek 3 = none) := by
  decide

theorem witness_UndecodableWordFails :
    (source [0x17, 0, 0, 0]).st = .ready ∧ NextWord (source [0x17, 0, 0, 0]) 0x00000017#32 ∧
      sizeTableOf defaultParams (wordOpcode 0x00000017#32) = some .size32 ∧
      decode defaultParams 0x00000017#32 = .error .unrecognizedInstructionFormat := by decide

theorem witness_TerminalStatesAnswerEndForEver :
    ({ source [1] with st := .ended } : State).st ≠ .ready ∧ ({ source [1] with st := .failed } : State).st ≠ .ready := by
  decide

/-- Steps with a record, with an error and with End. -/
theorem witness_StepsConsumeTheirBytesInOrder :
    (after (source [0x33, 0x85, 0x62, 0x00])).isSome = true ∧ (after (source [0x33])).isSome = true ∧
      (after (source [])).isSome = true := by decide

theorem witness_CounterMovesOnlyWithARecord :
    after (source [0x37, 0x55, 0x34, 0x12]) =
        some ⟨defaultParams, 0, .ready, 32, ⟨[], .ends⟩, 4, some (.item ⟨.u (opc 0x37 .U) 10 ⟨0x12345⟩, 0⟩)⟩ ∧
      after (source []) = some ⟨defaultParams, 0, .ended, 0, ⟨[], .ends⟩, 0, some .done⟩ := by decide

theorem witness_ResetLeavesAFreshInstance : 2 ^ 64 - 1 < 2 ^ defaultParams.addrWidth :=
  show 2 ^ 64 - 1 < 2 ^ 64 by norm_num

theorem witness_StreamInvariantHoldsAfterReset : paramsWf defaultParams :=
  ⟨by simp [defaultParams], by decide⟩

/-- A Ready state in mid-stream and a Failed state, neither of them a reset state. -/
theorem witness_StreamInvariantIsKeptByEveryStep :
    StreamInv ⟨defaultParams, 4096, .ready, 4128, ⟨[0x17, 0, 0, 0], .ends⟩, 4,
        some (.item ⟨.i (opc 0x03 .I) 10 2 12 ⟨0⟩, 4096⟩)⟩ ∧
      StreamInv ⟨defaultParams, 4096, .failed, 4128, ⟨[], .ends⟩, 8, some (.error .unrecognizedInstructionFormat)⟩ ∧
      (after ⟨defaultParams, 4096, .ready, 4128, ⟨[0x17, 0, 0, 0], .ends⟩, 4,
        some (.item ⟨.i (opc 0x03 .I) 10 2 12 ⟨0⟩, 4096⟩)⟩).isSome = true :=
  ⟨⟨witness_StreamInvariantHoldsAfterReset, show 4096 < 2 ^ 64 by norm_num, show 4128 = (4096 + 32 * (4 / 4)) % 2 ^ 64 by norm_num, by decide,
    by decide, by decide, by unfold OutputAgrees; decide⟩,
    ⟨witness_StreamInvariantHoldsAfterReset, show 4096 < 2 ^ 64 by norm_num, show 4128 = (4096 + 32 * ((8 - 1) / 4)) % 2 ^ 64 by norm_num, by decide,
      by decide, by decide, .inr (.inr (.inr rfl))⟩, by decide⟩

theorem witness_StreamYieldsTheEncodedInstructions :
    ([0x13, 0x05, 0x00] : List Byte).length < 4 ∧ ([] : List Byte).length < 4 := by decide

/-- Two instances that agree on one word, the second over an endless source. -/
theorem witness_BytesBehindAWordDoNotMatter :
    (source [0x17, 0, 0, 0]).st = .ready ∧
      after (source [0x17, 0, 0, 0]) =
        some ⟨defaultParams, 0, .failed, 0, ⟨[], .ends⟩, 4, some (.error .unrecognizedInstructionFormat)⟩ ∧
      4 = (source [0x17, 0, 0, 0]).pos + 4 ∧
      ∀ k, k < 4 → (endlessSource 0x17 [0, 0, 0]).source.peek k = (source [0x17, 0, 0, 0]).source.peek k := by decide

/-- Two instances that consumed different bytes. -/
theorem witness_OutputsDependOnlyOnTheUnreadBytesAndTheCounter (s t : State) (hs : s = source [0x33])
    (ht : t = { source [0x33] with pos := 40, cfgStartAddr := 8, out := some .done }) :
    s.params = t.params ∧ s.st = t.st ∧ s.addr = t.addr ∧ (∀ j, s.source.peek j = t.source.peek j) ∧ s ≠ t := by
  subst hs ht
  exact ⟨rfl, rfl, rfl, fun _ => rfl, by decide⟩

/-- An endless source of one word that decodes, and one of a word that does not. -/
theorem witness_EndlessSourcesYieldRecordsForEver :
    (Endless (endlessSource 0x33 [0x85, 0x62, 0x00]).source ∧
      ∀ k, NextWord (consumed (4 * k) (endlessSource 0x33 [0x85, 0x62, 0x00])) 0x00628533#32 ∧
        decode defaultParams 0x00628533#32 = .ok (.r (opc 0x33 .R) 10 0 5 6 0)) ∧
      (Endless (endlessSource 0x17 [0, 0, 0]).source ∧
        .done ∈ runOutputs 2 (endlessSource 0x17 [0, 0, 0])) := by
  refine ⟨⟨(Laws.endless_iff _).mpr (by decide), fun k => ?_⟩, (Laws.endless_iff _).mpr (by decide), by decide⟩
  have hdrop : (endlessSource 0x33 [0x85, 0x62, 0x00]).source.drop (4 * k) =
      (endlessSource 0x33 [0x85, 0x62, 0x00]).source := by
    induction k with
    | zero => rfl
    | succ k ih =>
      rw [Nat.mul_succ, Laws.drop_add, ih]
      rfl
  have hc : (consumed (4 * k) (endlessSource 0x33 [0x85, 0x62, 0x00])).source =
      (endlessSource 0x33 [0x85, 0x62, 0x00]).source := hdrop
  unfold NextWord
  rw [hc]
  decide

end Sys2Proof.Tests
end

section
/-! Words are little-endian in the byte source (20_memory.md R32). The value of an assembled word, a number in base 256,
is the key fact: the bytes of a word are its digits, so they are read off the value by division. -/

namespace Sys2Proof.Laws

open Machine

/-- A byte moved to its place in a word loses no bits there (R32). -/
theorem toNat_setWidth_shiftLeft_of_byte (b : Byte) {k : Nat} (hk : k ≤ 24) :
    (b.setWidth 32 <<< k).toNat = b.toNat <<< k := by
  rw [BitVec.toNat_shiftLeft, BitVec.toNat_setWidth_of_le (by norm_num), Nat.shiftLeft_eq]
  refine Nat.mod_eq_of_lt ?_
  calc b.toNat * 2 ^ k < 2 ^ 8 * 2 ^ k := by gcongr; exact b.isLt
    _ ≤ 2 ^ 8 * 2 ^ 24 := by gcongr; norm_num

/-- The bytes of a word do not overlap, so joining them by OR adds them up (R32). -/
theorem assembleWord_toNat (b0 b1 b2 b3 : Byte) :
    (assembleWord b0 b1 b2 b3).toNat =
      b0.toNat + 256 * b1.toNat + 65536 * b2.toNat + 16777216 * b3.toNat := by
  have hor : (assembleWord b0 b1 b2 b3).toNat =
      b3.toNat <<< 24 ||| (b2.toNat <<< 16 ||| (b1.toNat <<< 8 ||| b0.toNat)) := by
    simp only [assembleWord, BitVec.toNat_or, Nat.or_assoc]
    rw [toNat_setWidth_shiftLeft_of_byte b1, toNat_setWidth_shiftLeft_of_byte b2, toNat_setWidth_shiftLeft_of_byte b3,
      BitVec.toNat_setWidth_of_le] <;> norm_num
  have h01 : b1.toNat <<< 8 + b0.toNat < 2 ^ 16 := by rw [Nat.shiftLeft_eq]; omega
  have h012 : b2.toNat <<< 16 + (b1.toNat <<< 8 + b0.toNat) < 2 ^ 24 := by rw [Nat.shiftLeft_eq]; omega
  rw [hor, ← Nat.shiftLeft_add_eq_or_of_lt b0.isLt, ← Nat.shiftLeft_add_eq_or_of_lt h01,
    ← Nat.shiftLeft_add_eq_or_of_lt h012]
  simp only [Nat.shiftLeft_eq]
  omega

/-- Each byte is read back as a digit of the word's value in base 256 (R32). -/
theorem wordBytes_assembleWord (b0 b1 b2 b3 : Byte) : wordBytes (assembleWord b0 b1 b2 b3) = [b0, b1, b2, b3] := by
  have hdigit (k : Nat) (b : Byte) (h : (assembleWord b0 b1 b2 b3).toNat / 2 ^ k % 256 = b.toNat) :
      (assembleWord b0 b1 b2 b3).extractLsb' k 8 = b := by
    apply BitVec.eq_of_toNat_eq
    rw [BitVec.extractLsb'_toNat, Nat.shiftRight_eq_div_pow, h]
  unfold wordBytes
  rw [hdigit 0 b0, hdigit 8 b1, hdigit 16 b2, hdigit 24 b3]
  all_goals
    rw [assembleWord_toNat]
    omega

/-- Settles O18: the value gives the weights, its digits in base 256 give the bytes back, and a word is assembled from
its own slices. -/
theorem wordsAreLittleEndian : Obligations.WordsAreLittleEndian :=
  ⟨fun b0 b1 b2 b3 => ⟨assembleWord_toNat b0 b1 b2 b3, wordBytes_assembleWord b0 b1 b2 b3⟩,
    fun w => ⟨_, _, _, _, rfl, assembleWord_wordBytes w⟩⟩

end Sys2Proof.Laws
end

section
/-! Which words are legal (30_encoding.md R62, R63). What `Decode` can fail with is a function of the opcode bits, and
a word that fails with nothing decodes. -/

namespace Sys2Proof.Laws

open Machine

/-- The errors of `Decode` read the opcode bits only (R62, R63). -/
theorem decode_error_of_wordOpcode_eq {p : Params} {w w' : Word} (h : wordOpcode w = wordOpcode w') {e : DecodeError}
    (he : decode p w = .error e) : decode p w' = .error e := by
  rw [decode_error_iff] at he ⊢
  rwa [← h]

/-- Settles O8: if `w'` were illegal, its error would be the error of `w` too, which decodes. -/
theorem fieldValuesNeverMakeAWordIllegal : Obligations.FieldValuesNeverMakeAWordIllegal := by
  intro p w w' h
  refine ⟨fun ⟨x, hx⟩ => ?_, fun e => decode_error_of_wordOpcode_eq h⟩
  cases hw' : decode p w' with
  | ok y => exact ⟨y, rfl⟩
  | error e =>
    have he : decode p w = .error e := decode_error_of_wordOpcode_eq h.symm hw'
    rw [hx] at he
    cases he

end Sys2Proof.Laws
end

section
/-! The 32-bit conceptual immediate of 30_encoding.md R54: the raw bits moved up by START, zero below and
sign-extended above. Its value is the immediate's signed value, and its bits are those of the raw pattern. -/

namespace Sys2Proof.Laws

open Machine

/-- The conceptual immediate, "zero below START" and "sign-extended from its top bit END" (R54). -/
def conceptualImm {start width : Nat} (imm : Immediate start width) : BitVec 32 :=
  ((imm.raw.setWidth 32 <<< start).setWidth (immEnd start width + 1)).signExtend 32

variable {start width : Nat} (imm : Immediate start width)

/-- The signed value is read off the conceptual immediate (R54, R100). -/
theorem immToSigned_eq_conceptualImm (hend : immEnd start width ≤ 31) :
    immToSigned imm = (conceptualImm imm).toInt := by
  unfold immToSigned conceptualImm
  rw [BitVec.toInt_signExtend_of_le (by omega)]
  split_ifs with hlt
  · rfl
  · rw [show immEnd start width = 31 by omega, BitVec.setWidth_eq]

/-- Before the sign extension: bit `m` up to END is 0 below START and a raw bit from there on (R54). -/
theorem shiftedRaw_bit (hend : start + width ≤ 32) {m : Nat} (hm : m < start + width) :
    ((imm.raw.setWidth 32 <<< start).setWidth (start + width)).getLsbD m =
      (decide (start ≤ m) && imm.raw.getLsbD (m - start)) := by
  rw [BitVec.getLsbD_setWidth, BitVec.getLsbD_shiftLeft, BitVec.getLsbD_setWidth]
  by_cases hlow : start ≤ m
  · simp [hm, hlow, show m < 32 by omega, show m - start < 32 by omega]
  · simp [hlow]

/-- Bit `k` is 0 below START, a raw bit up to END, and the top raw bit from END on (R54). -/
theorem conceptualImm_bit (hw : 0 < width) (hend : start + width ≤ 32) {k : Nat} (hk : k < 32) :
    (conceptualImm imm).getLsbD k = (decide (start ≤ k) && imm.raw.getLsbD (min k (start + width - 1) - start)) := by
  have htop : immEnd start width + 1 = start + width := by unfold immEnd; omega
  unfold conceptualImm
  rw [htop, BitVec.getLsbD_signExtend, BitVec.msb_eq_getLsbD_last, decide_eq_true hk, Bool.true_and]
  split_ifs with hkend
  · rw [shiftedRaw_bit imm hend hkend, min_eq_left (by omega)]
  · rw [shiftedRaw_bit imm hend (by omega), min_eq_right (by omega), decide_eq_true (show start ≤ k by omega),
      decide_eq_true (by omega)]

/-- The bits from END up are copies of the top raw bit (R54). -/
theorem conceptualImm_sign (hw : 0 < width) (hend : start + width ≤ 32) {k : Nat} (hk : start + width - 1 ≤ k)
    (hk32 : k < 32) : (conceptualImm imm).getLsbD k = imm.raw.getLsbD (width - 1) := by
  rw [conceptualImm_bit imm hw hend hk32, min_eq_right hk, decide_eq_true (by omega), Bool.true_and]
  congr 1
  omega

/-- The bits below START are 0 (R54). -/
theorem conceptualImm_low (hw : 0 < width) (hend : start + width ≤ 32) {k : Nat} (hk : k < start) :
    (conceptualImm imm).getLsbD k = false := by
  rw [conceptualImm_bit imm hw hend (by omega), decide_eq_false (by omega), Bool.false_and]

/-- The bits from START to END are the raw bits in their order (R54). -/
theorem conceptualImm_slice (hend : start + width ≤ 32) {j n : Nat} (hn : j + n ≤ width) :
    (conceptualImm imm).extractLsb' (start + j) n = imm.raw.extractLsb' j n := by
  apply BitVec.eq_of_getLsbD_eq
  intro k hk
  have hmin : min (start + j + k) (start + width - 1) - start = j + k := by omega
  rw [BitVec.getLsbD_extractLsb', BitVec.getLsbD_extractLsb', conceptualImm_bit imm (by omega) hend (by omega), hmin,
    decide_eq_true (show start ≤ start + j + k by omega), Bool.true_and]

end Sys2Proof.Laws
end

section
/-! The formats, bit by bit (30_encoding.md R48 to R53): where each piece of a gathered pattern comes from, then each
decoder's fields. The witness for `v` is the conceptual immediate of the gathered pattern. -/

namespace Sys2Proof.Laws

open Machine

/-- The pieces of a format S pattern (R55). -/
theorem gatherS_slices (w : Word) :
    (gatherS w).extractLsb' 5 7 = w.extractLsb' 25 7 ∧ (gatherS w).extractLsb' 0 5 = w.extractLsb' 7 5 :=
  ⟨BitVec.extractLsb'_append_eq_left, BitVec.extractLsb'_append_eq_right⟩

/-- The pieces of a format B pattern longer than one bit (R55). -/
theorem gatherB_slices (w : Word) :
    (gatherB w).extractLsb' 4 6 = w.extractLsb' 25 6 ∧ (gatherB w).extractLsb' 0 4 = w.extractLsb' 8 4 := by
  refine ⟨?_, BitVec.extractLsb'_append_eq_right⟩
  unfold gatherB
  rw [BitVec.extractLsb'_append_eq_of_le (by norm_num)]
  exact BitVec.extractLsb'_append_eq_right

/-- The pieces of a format J pattern longer than one bit (R55). -/
theorem gatherJ_slices (w : Word) :
    (gatherJ w).extractLsb' 11 8 = w.extractLsb' 12 8 ∧ (gatherJ w).extractLsb' 0 10 = w.extractLsb' 21 10 := by
  refine ⟨?_, BitVec.extractLsb'_append_eq_right⟩
  unfold gatherJ
  rw [BitVec.extractLsb'_append_eq_of_le (by norm_num), BitVec.extractLsb'_append_eq_of_le (by norm_num)]
  exact BitVec.extractLsb'_append_eq_right

/-- Settles O10: a format R word has no immediate, so its fields are all there is. -/
theorem formatRWordsDecodeBitByBit : Obligations.FormatRWordsDecodeBitByBit := by
  intro p w op h
  refine ⟨(variantFront_ok_iff p w .R op).mp h, (decodeR_ok_iff p w _).mpr ⟨op, h, ?_⟩⟩
  simp only [regFromWord_eq_slice, funct3FromWord_eq_slice, funct7FromWord_eq_slice, rdOffset, rs1Offset, rs2Offset]

/-- Settles O11: the pattern is one slice of the word, and its top bit is `word[31]`. -/
theorem formatIWordsDecodeBitByBit : Obligations.FormatIWordsDecodeBitByBit := by
  intro p w op h
  refine ⟨(variantFront_ok_iff p w .I op).mp h, ⟨gatherI w⟩, conceptualImm (⟨gatherI w⟩ : Imm0to11),
    (decodeI_ok_iff p w _).mpr ⟨op, h, ?_⟩, immToSigned_eq_conceptualImm _ (by decide), ?_, fun k hk hk32 => ?_⟩
  · simp only [regFromWord_eq_slice, funct3FromWord_eq_slice, rdOffset, rs1Offset]
  · exact (conceptualImm_slice _ (by norm_num) (j := 0) (by norm_num)).trans BitVec.extractLsb'_eq_self
  · rw [conceptualImm_sign _ (by norm_num) (by norm_num) (by omega) hk32]
    simp [gatherI_getElem]

/-- Settles O12: the two pieces of the pattern lie beside each other, and its top bit is `word[31]`. -/
theorem formatSWordsDecodeBitByBit : Obligations.FormatSWordsDecodeBitByBit := by
  intro p w op h
  obtain ⟨hhigh, hlow⟩ := gatherS_slices w
  refine ⟨(variantFront_ok_iff p w .S op).mp h, ⟨gatherS w⟩, conceptualImm (⟨gatherS w⟩ : Imm0to11),
    (decodeS_ok_iff p w _).mpr ⟨op, h, ?_⟩, immToSigned_eq_conceptualImm _ (by decide), ?_, ?_, fun k hk hk32 => ?_⟩
  · simp only [regFromWord_eq_slice, funct3FromWord_eq_slice, rs1Offset, rs2Offset]
  · exact (conceptualImm_slice _ (by norm_num) (j := 5) (by norm_num)).trans hhigh
  · exact (conceptualImm_slice _ (by norm_num) (j := 0) (by norm_num)).trans hlow
  · rw [conceptualImm_sign _ (by norm_num) (by norm_num) (by omega) hk32]
    simp [gatherS_getElem]

/-- Settles O13: START is 1, so raw bit `j` is bit `j + 1` of the immediate, and bit 0 is not stored. -/
theorem formatBWordsDecodeBitByBit : Obligations.FormatBWordsDecodeBitByBit := by
  intro p w op h
  obtain ⟨hhigh, hlow⟩ := gatherB_slices w
  have hsign (k : Nat) (hk : 12 ≤ k) (hk32 : k < 32) :
      (conceptualImm (⟨gatherB w⟩ : Imm1to12)).getLsbD k = w.getLsbD 31 := by
    rw [conceptualImm_sign _ (by norm_num) (by norm_num) hk hk32]
    simp [gatherB_getElem]
  refine ⟨(variantFront_ok_iff p w .B op).mp h, ⟨gatherB w⟩, conceptualImm (⟨gatherB w⟩ : Imm1to12),
    (decodeB_ok_iff p w _).mpr ⟨op, h, ?_⟩, immToSigned_eq_conceptualImm _ (by decide), ?_, ?_, ?_, ?_,
    hsign 12 (by norm_num) (by norm_num), hsign⟩
  · simp only [regFromWord_eq_slice, funct3FromWord_eq_slice, rs1Offset, rs2Offset]
  · exact conceptualImm_low _ (by norm_num) (by norm_num) (by norm_num)
  · exact (conceptualImm_slice _ (by norm_num) (j := 0) (by norm_num)).trans hlow
  · exact (conceptualImm_slice _ (by norm_num) (j := 4) (by norm_num)).trans hhigh
  · rw [conceptualImm_bit _ (by norm_num) (by norm_num) (by norm_num)]
    simp [gatherB_getElem]

/-- Settles O14: END is 31, so no bit is left for the sign extension. -/
theorem formatUWordsDecodeBitByBit : Obligations.FormatUWordsDecodeBitByBit := by
  intro p w op h
  refine ⟨(variantFront_ok_iff p w .U op).mp h, ⟨gatherU w⟩, conceptualImm (⟨gatherU w⟩ : Imm12to31),
    (decodeU_ok_iff p w _).mpr ⟨op, h, ?_⟩, immToSigned_eq_conceptualImm _ (by decide), ?_, ?_⟩
  · simp only [regFromWord_eq_slice, rdOffset]
  · exact (conceptualImm_slice _ (by norm_num) (j := 0) (by norm_num)).trans BitVec.extractLsb'_eq_self
  · apply BitVec.eq_of_getLsbD_eq
    intro k hk
    rw [BitVec.getLsbD_extractLsb', conceptualImm_low _ (by norm_num) (by norm_num) (by omega), Bool.and_false,
      BitVec.getLsbD_zero]

/-- Settles O15: START is 1, so raw bit `j` is bit `j + 1` of the immediate, and bit 0 is not stored. -/
theorem formatJWordsDecodeBitByBit : Obligations.FormatJWordsDecodeBitByBit := by
  intro p w op h
  obtain ⟨hhigh, hlow⟩ := gatherJ_slices w
  have hsign (k : Nat) (hk : 20 ≤ k) (hk32 : k < 32) :
      (conceptualImm (⟨gatherJ w⟩ : Imm1to20)).getLsbD k = w.getLsbD 31 := by
    rw [conceptualImm_sign _ (by norm_num) (by norm_num) hk hk32]
    simp [gatherJ_getElem]
  refine ⟨(variantFront_ok_iff p w .J op).mp h, ⟨gatherJ w⟩, conceptualImm (⟨gatherJ w⟩ : Imm1to20),
    (decodeJ_ok_iff p w _).mpr ⟨op, h, ?_⟩, immToSigned_eq_conceptualImm _ (by decide), ?_, ?_, ?_, ?_,
    hsign 20 (by norm_num) (by norm_num), hsign⟩
  · simp only [regFromWord_eq_slice, rdOffset]
  · exact conceptualImm_low _ (by norm_num) (by norm_num) (by norm_num)
  · exact (conceptualImm_slice _ (by norm_num) (j := 0) (by norm_num)).trans hlow
  · rw [conceptualImm_bit _ (by norm_num) (by norm_num) (by norm_num)]
    simp [gatherJ_getElem]
  · exact (conceptualImm_slice _ (by norm_num) (j := 11) (by norm_num)).trans hhigh

end Sys2Proof.Laws
end

section
/-! Registers and functs in a word (40_primitives.md R90 to R97). An insertion is a zero-extended value moved up to its
offset; what it sets and what is read back are said once for a field of any width that fits in the word. -/

namespace Sys2Proof.Laws

open Machine

section
variable {n off : Nat} (v : BitVec n) (hfit : off + n ≤ 32)
include hfit

/-- Each bit of an inserted field: none below the offset, then the bits of the value, of which the top ones are 0. -/
theorem insertedField_bit (k : Nat) :
    (v.setWidth 32 <<< off).getLsbD k = (decide (off ≤ k) && v.getLsbD (k - off)) := by
  simp only [BitVec.getLsbD_shiftLeft, BitVec.getLsbD_setWidth, ← decide_not, Nat.not_lt]
  by_cases hk : k < 32
  · simp [hk, show k - off < 32 by omega]
  · simp [hk, BitVec.getLsbD_of_ge v (k - off) (by omega)]

/-- Extraction undoes insertion. -/
theorem extract_insertedField : (v.setWidth 32 <<< off).extractLsb' off n = v := by
  apply BitVec.eq_of_getLsbD_eq
  intro k hk
  rw [BitVec.getLsbD_extractLsb', insertedField_bit v hfit, Nat.add_sub_cancel_left]
  simp [hk]

/-- "No bit set outside" the field (R92). -/
theorem insertedField_outside {k : Nat} (hk : k < off ∨ off + n ≤ k) :
    (v.setWidth 32 <<< off).getLsbD k = false := by
  rw [insertedField_bit v hfit]
  rcases hk with hlow | hhigh
  · rw [decide_eq_false (by omega), Bool.false_and]
  · rw [BitVec.getLsbD_of_ge v (k - off) (by omega), Bool.and_false]

end

theorem regFromWord_regToWord (r : Register) {off : Nat} (hfit : off + 5 ≤ 32) :
    regFromWord (regToWord r off) off = r :=
  (regFromWord_eq_slice _ _).trans (extract_insertedField r hfit)

theorem regToWord_outside (r : Register) {off k : Nat} (hfit : off + 5 ≤ 32) (hk : k < off ∨ off + 5 ≤ k) :
    (regToWord r off).getLsbD k = false :=
  insertedField_outside r hfit hk

@[simp] theorem funct3FromWord_funct3ToWord (f : Funct3) : funct3FromWord (funct3ToWord f) = f :=
  (funct3FromWord_eq_slice _).trans (extract_insertedField f (by norm_num))

theorem funct3ToWord_outside (f : Funct3) {k : Nat} (hk : k < 12 ∨ 15 ≤ k) : (funct3ToWord f).getLsbD k = false :=
  insertedField_outside f (by norm_num) hk

@[simp] theorem funct7FromWord_funct7ToWord (f : Funct7) : funct7FromWord (funct7ToWord f) = f :=
  (funct7FromWord_eq_slice _).trans (extract_insertedField f (by norm_num))

/-- The field of funct7 ends at the top of the word, so only the bits below it are outside. -/
theorem funct7ToWord_outside (f : Funct7) {k : Nat} (hk : k < 25) : (funct7ToWord f).getLsbD k = false :=
  insertedField_outside f (by norm_num) (.inl hk)

/-- Settles O22: the three register offsets leave room for 5 bits, and funct3 and funct7 have one place each. -/
theorem fieldInsertionStaysInItsField : Obligations.FieldInsertionStaysInItsField := by
  refine ⟨fun off hoff => ?_, fun w => ⟨funct3FromWord_eq_slice w, funct7FromWord_eq_slice w⟩,
    fun f => ⟨funct3FromWord_funct3ToWord f, fun _ => funct3ToWord_outside f⟩,
    fun f => ⟨funct7FromWord_funct7ToWord f, fun _ => funct7ToWord_outside f⟩⟩
  have hfit : off + 5 ≤ 32 := by
    rcases hoff with rfl | rfl | rfl <;> decide
  exact ⟨fun w => regFromWord_eq_slice w off,
    fun r => ⟨regFromWord_regToWord r hfit, fun _ => regToWord_outside r hfit⟩⟩

theorem regFromRaw_of_lt {raw : BitVec 8} (h : raw.toNat < 32) : regFromRaw raw = .ok (raw.extractLsb' 0 5) :=
  if_neg (not_le.mpr h)

theorem regFromRaw_of_ge {raw : BitVec 8} (h : 32 ≤ raw.toNat) : regFromRaw raw = .error .invalidRegister :=
  if_pos h

/-- The low bits of a raw value are the whole value when it fits in them (R90, R94, R95). -/
theorem toNat_lowBits_of_lt (raw : BitVec 8) {n : Nat} (h : raw.toNat < 2 ^ n) :
    (raw.extractLsb' 0 n).toNat = raw.toNat := by
  rw [BitVec.extractLsb'_toNat, Nat.shiftRight_zero, Nat.mod_eq_of_lt h]

/-- Settles O19: below 32 the five bits that are kept hold the whole value. -/
theorem rawRegisterIndicesAreAcceptedBelow32 : Obligations.RawRegisterIndicesAreAcceptedBelow32 :=
  fun raw => ⟨fun h => ⟨_, regFromRaw_of_lt h, toNat_lowBits_of_lt raw h⟩, regFromRaw_of_ge⟩

end Sys2Proof.Laws
end

section
/-! The six codecs, forth and back (42_format_codecs.md R158). Both directions are said once for the six formats; what
a constructor adds is that its variant is of the constructor's own tag. -/

namespace Sys2Proof.Laws

open Machine

/-! What each constructor answers behind its front and its immediate's check (R152 to R157). -/

section
variable {p : Params} (op : Opcode p) (rd : Register) (f3 : Funct3) (rs1 rs2 : Register) (f7 : Funct7) (v : Int)
  (x : Instruction p)

theorem makeR_ok_iff :
    makeR op rd f3 rs1 rs2 f7 = .ok x ↔ ∃ vop, constructFront op .R = .ok vop ∧ x = .r vop rd f3 rs1 rs2 f7 := by
  unfold makeR
  cases constructFront op .R <;> simp [eq_comm]

theorem makeI_ok_iff :
    makeI op rd f3 rs1 v = .ok x ↔
      ∃ vop imm, constructFront op .I = .ok vop ∧ immFromSigned 0 12 v = .ok imm ∧ x = .i vop rd f3 rs1 imm := by
  unfold makeI
  cases constructFront op .I <;> cases immFromSigned 0 12 v <;> simp [eq_comm]

theorem makeS_ok_iff :
    makeS op f3 rs1 rs2 v = .ok x ↔
      ∃ vop imm, constructFront op .S = .ok vop ∧ immFromSigned 0 12 v = .ok imm ∧ x = .s vop f3 rs1 rs2 imm := by
  unfold makeS
  cases constructFront op .S <;> cases immFromSigned 0 12 v <;> simp [eq_comm]

theorem makeB_ok_iff :
    makeB op f3 rs1 rs2 v = .ok x ↔
      ∃ vop imm, constructFront op .B = .ok vop ∧ immFromSigned 1 12 v = .ok imm ∧ x = .b vop f3 rs1 rs2 imm := by
  unfold makeB
  cases constructFront op .B <;> cases immFromSigned 1 12 v <;> simp [eq_comm]

theorem makeU_ok_iff :
    makeU op rd v = .ok x ↔
      ∃ vop imm, constructFront op .U = .ok vop ∧ immFromSigned 12 20 v = .ok imm ∧ x = .u vop rd imm := by
  unfold makeU
  cases constructFront op .U <;> cases immFromSigned 12 20 v <;> simp [eq_comm]

theorem makeJ_ok_iff :
    makeJ op rd v = .ok x ↔
      ∃ vop imm, constructFront op .J = .ok vop ∧ immFromSigned 1 20 v = .ok imm ∧ x = .j vop rd imm := by
  unfold makeJ
  cases constructFront op .J <;> cases immFromSigned 1 20 v <;> simp [eq_comm]

end

/-- Scatter after gather: a word a decoder accepts is the word of the variant it answers (R158 (b)). -/
theorem encodeInstruction_of_decodeAs {p : Params} {t : Format} {w : Word} {x : Instruction p}
    (h : decodeAs p t w = .ok x) : encodeInstruction x = w := by
  cases t with
  | R =>
    obtain ⟨vop, hv, rfl⟩ := (decodeR_ok_iff p w x).mp h
    exact encodeR_of_fields _ w ((variantFront_ok_iff p w .R vop).mp hv)
  | I =>
    obtain ⟨vop, hv, rfl⟩ := (decodeI_ok_iff p w x).mp h
    exact encodeI_of_fields _ w ((variantFront_ok_iff p w .I vop).mp hv)
  | S =>
    obtain ⟨vop, hv, rfl⟩ := (decodeS_ok_iff p w x).mp h
    exact encodeS_of_fields _ w ((variantFront_ok_iff p w .S vop).mp hv)
  | B =>
    obtain ⟨vop, hv, rfl⟩ := (decodeB_ok_iff p w x).mp h
    exact encodeB_of_fields _ w ((variantFront_ok_iff p w .B vop).mp hv)
  | U =>
    obtain ⟨vop, hv, rfl⟩ := (decodeU_ok_iff p w x).mp h
    exact encodeU_of_fields _ w ((variantFront_ok_iff p w .U vop).mp hv)
  | J =>
    obtain ⟨vop, hv, rfl⟩ := (decodeJ_ok_iff p w x).mp h
    exact encodeJ_of_fields _ w ((variantFront_ok_iff p w .J vop).mp hv)

/-- Gather after scatter: the decoder of its tag reads any Instruction back from its word (R158 (a)). -/
theorem decodeAs_encodeInstruction {p : Params} (x : Instruction p) :
    decodeAs p (tagOf x) (encodeInstruction x) = .ok x := by
  cases x with
  | r op rd f3 rs1 rs2 f7 =>
    obtain ⟨hop, hrd, hf3, hrs1, hrs2, hf7⟩ := encodeR_fields op.bits rd f3 rs1 rs2 f7
    refine (decodeR_ok_iff p _ _).mpr ⟨op, (variantFront_ok_iff p _ .R op).mpr hop.symm, ?_⟩
    rw [encodeInstruction, hrd, hf3, hrs1, hrs2, hf7]
  | i op rd f3 rs1 imm =>
    obtain ⟨hop, hrd, hf3, hrs1, himm⟩ := encodeI_fields op.bits rd f3 rs1 imm
    refine (decodeI_ok_iff p _ _).mpr ⟨op, (variantFront_ok_iff p _ .I op).mpr hop.symm, ?_⟩
    rw [encodeInstruction, hrd, hf3, hrs1, himm]
  | s op f3 rs1 rs2 imm =>
    obtain ⟨hop, hf3, hrs1, hrs2, himm⟩ := encodeS_fields op.bits f3 rs1 rs2 imm
    refine (decodeS_ok_iff p _ _).mpr ⟨op, (variantFront_ok_iff p _ .S op).mpr hop.symm, ?_⟩
    rw [encodeInstruction, hf3, hrs1, hrs2, himm]
  | b op f3 rs1 rs2 imm =>
    obtain ⟨hop, hf3, hrs1, hrs2, himm⟩ := encodeB_fields op.bits f3 rs1 rs2 imm
    refine (decodeB_ok_iff p _ _).mpr ⟨op, (variantFront_ok_iff p _ .B op).mpr hop.symm, ?_⟩
    rw [encodeInstruction, hf3, hrs1, hrs2, himm]
  | u op rd imm =>
    obtain ⟨hop, hrd, himm⟩ := encodeU_fields op.bits rd imm
    refine (decodeU_ok_iff p _ _).mpr ⟨op, (variantFront_ok_iff p _ .U op).mpr hop.symm, ?_⟩
    rw [encodeInstruction, hrd, himm]
  | j op rd imm =>
    obtain ⟨hop, hrd, himm⟩ := encodeJ_fields op.bits rd imm
    refine (decodeJ_ok_iff p _ _).mpr ⟨op, (variantFront_ok_iff p _ .J op).mpr hop.symm, ?_⟩
    rw [encodeInstruction, hrd, himm]

/-- Settles O5: a decoded word is its variant's word, and what a constructor of a format answers is a variant of that
format, which the format's decoder reads back. -/
theorem eachFormatRoundTrips : Obligations.EachFormatRoundTrips := by
  refine ⟨fun p t w x h => ?_, fun p op => ⟨?_, ?_, ?_, ?_, ?_, ?_⟩⟩
  · have hw := encodeInstruction_of_decodeAs h
    exact ⟨hw, hw.symm ▸ h⟩
  · intro rd f3 rs1 rs2 f7 x h
    obtain ⟨vop, -, rfl⟩ := (makeR_ok_iff op rd f3 rs1 rs2 f7 x).mp h
    exact decodeAs_encodeInstruction (.r vop rd f3 rs1 rs2 f7)
  · intro rd f3 rs1 v x h
    obtain ⟨vop, imm, -, -, rfl⟩ := (makeI_ok_iff op rd f3 rs1 v x).mp h
    exact decodeAs_encodeInstruction (.i vop rd f3 rs1 imm)
  · intro f3 rs1 rs2 v x h
    obtain ⟨vop, imm, -, -, rfl⟩ := (makeS_ok_iff op f3 rs1 rs2 v x).mp h
    exact decodeAs_encodeInstruction (.s vop f3 rs1 rs2 imm)
  · intro f3 rs1 rs2 v x h
    obtain ⟨vop, imm, -, -, rfl⟩ := (makeB_ok_iff op f3 rs1 rs2 v x).mp h
    exact decodeAs_encodeInstruction (.b vop f3 rs1 rs2 imm)
  · intro rd v x h
    obtain ⟨vop, imm, -, -, rfl⟩ := (makeU_ok_iff op rd v x).mp h
    exact decodeAs_encodeInstruction (.u vop rd imm)
  · intro rd v x h
    obtain ⟨vop, imm, -, -, rfl⟩ := (makeJ_ok_iff op rd v x).mp h
    exact decodeAs_encodeInstruction (.j vop rd imm)

end Sys2Proof.Laws
end

section
/-! The pieces of an encoded word never overlap (30_encoding.md R47, 42_format_codecs.md R138). Taken in the order of
their places, each piece begins where the ones below it end, so joining it to them by OR adds it to them. -/

namespace Sys2Proof.Laws

open Machine

/-- The OR of some pieces is their sum, and they end below bit `k`. -/
structure PiecesBelow (k : Nat) (joined sum : Word) : Prop where
  or_eq_sum : joined = sum
  lt : joined.toNat < 2 ^ k

/-- The opcode is the lowest piece of every format (R46). -/
theorem PiecesBelow.opcode (op : OpcodeBits) : PiecesBelow 7 (opcodeToWord op) (op.setWidth 32) := by
  refine ⟨rfl, ?_⟩
  rw [opcodeToWord, BitVec.toNat_setWidth_of_le (by norm_num)]
  exact op.isLt

/-- The next piece begins where the pieces below it end, and no bit of it is lost (R47). -/
theorem PiecesBelow.next {k n : Nat} {joined sum : Word} (h : PiecesBelow k joined sum) (v : BitVec n)
    (hfit : k + n ≤ 32 := by norm_num) :
    PiecesBelow (k + n) (joined ||| v.setWidth 32 <<< k) (sum + v.setWidth 32 <<< k) := by
  obtain ⟨rfl, hlt⟩ := h
  have hempty {i : Nat} (hi : k ≤ i) : joined.getLsbD i = false :=
    Nat.testBit_lt_two_pow (hlt.trans_le (Nat.pow_le_pow_right (by norm_num) hi))
  have hdisjoint : joined &&& v.setWidth 32 <<< k = 0#32 := by
    apply BitVec.eq_of_getLsbD_eq
    intro i _
    rw [BitVec.getLsbD_and, BitVec.getLsbD_zero]
    rcases Nat.lt_or_ge i k with hi | hi
    · rw [insertedField_outside v hfit (.inl hi), Bool.and_false]
    · rw [hempty hi, Bool.false_and]
  refine ⟨(BitVec.add_eq_or_of_and_eq_zero _ _ hdisjoint).symm, Nat.lt_pow_two_of_testBit _ fun i hi => ?_⟩
  change (joined ||| v.setWidth 32 <<< k).getLsbD i = false
  rw [BitVec.getLsbD_or, hempty (by omega), insertedField_outside v hfit (.inr hi), Bool.false_or]

/-- For putting the pieces of a word in the order of their places, with `BitVec.or_assoc` and `BitVec.or_comm`. -/
theorem word_or_left_comm (a b c : Word) : a ||| (b ||| c) = b ||| (a ||| c) := by
  rw [← BitVec.or_assoc, BitVec.or_comm a, BitVec.or_assoc]

/-- Settles O17: the pieces of each format, from the opcode up. The encoders of S and B list the immediate last, so
its pieces are first put in their places between the others. -/
theorem encodersAddDisjointPieces : Obligations.EncodersAddDisjointPieces := by
  refine ⟨fun op rd f3 rs1 rs2 f7 => ?_, fun op rd f3 rs1 imm => ?_, fun op f3 rs1 rs2 imm => ?_,
    fun op f3 rs1 rs2 imm => ?_, fun op rd imm => ?_, fun op rd imm => ?_⟩
  · exact ((PiecesBelow.opcode op).next rd |>.next f3 |>.next rs1 |>.next rs2 |>.next f7).or_eq_sum
  · exact ((PiecesBelow.opcode op).next rd |>.next f3 |>.next rs1 |>.next imm.raw).or_eq_sum
  · rw [← ((PiecesBelow.opcode op).next (imm.raw.extractLsb' 0 5) |>.next f3 |>.next rs1 |>.next rs2
      |>.next (imm.raw.extractLsb' 5 7)).or_eq_sum]
    simp only [encodeS, scatterS, funct3ToWord, regToWord, rs1Offset, rs2Offset, Nat.reduceAdd]
    simp only [BitVec.or_assoc, BitVec.or_comm, word_or_left_comm]
  · rw [← ((PiecesBelow.opcode op).next (imm.raw.extractLsb' 10 1) |>.next (imm.raw.extractLsb' 0 4) |>.next f3
      |>.next rs1 |>.next rs2 |>.next (imm.raw.extractLsb' 4 6) |>.next (imm.raw.extractLsb' 11 1)).or_eq_sum]
    simp only [encodeB, scatterB, funct3ToWord, regToWord, rs1Offset, rs2Offset, Nat.reduceAdd]
    simp only [BitVec.or_assoc, BitVec.or_comm, word_or_left_comm]
  · exact ((PiecesBelow.opcode op).next rd |>.next imm.raw).or_eq_sum
  · rw [← ((PiecesBelow.opcode op).next rd |>.next (imm.raw.extractLsb' 11 8) |>.next (imm.raw.extractLsb' 10 1)
      |>.next (imm.raw.extractLsb' 0 10) |>.next (imm.raw.extractLsb' 19 1)).or_eq_sum]
    simp only [encodeJ, scatterJ, regToWord, rdOffset, Nat.reduceAdd, BitVec.or_assoc]

end Sys2Proof.Laws
end

section
/-! The instruction union on words (43_union_builder.md R170 to R172). `Decode` answers what the decoder of the word's own
format answers, so the round trips of the six codecs (42 R158) are its round trips. -/

namespace Sys2Proof.Laws

open Machine

/-- Encode, then decode (R172). -/
theorem decode_encodeInstruction {p : Params} (x : Instruction p) : decode p (encodeInstruction x) = .ok x :=
  (decode_ok_iff p _ x).mpr (decodeAs_encodeInstruction x)

/-- Decode, then encode (R172). -/
theorem encodeInstruction_of_decode {p : Params} {w : Word} {x : Instruction p} (h : decode p w = .ok x) :
    encodeInstruction x = w :=
  encodeInstruction_of_decodeAs ((decode_ok_iff p w x).mp h)

/-- The errors of `Decode` (R62, R170): the bit-7 test and the format test of a variant never fail in it. -/
theorem decode_error_cases {p : Params} {w : Word} {e : DecodeError} (h : decode p w = .error e) :
    e = .unrecognizedInstructionFormat ∨ e = .unrecognizedInstructionSize ∨
      ∃ sz, e = .unsupportedInstructionSize sz := by
  rcases (decode_error_iff p w e).mp h with hformat | ⟨-, -, hsize⟩ | ⟨-, sz, -, -, hsize⟩
  · exact .inl ((formatOfKey_error_iff _ e).mp hformat).2
  · exact .inr (.inl hsize)
  · exact .inr (.inr ⟨sz, hsize⟩)

/-- Settles O4: `Decode` is injective where it accepts because both words are the word of the one Instruction. -/
theorem unionDecodeAndEncodeAreInverse : Obligations.UnionDecodeAndEncodeAreInverse :=
  ⟨fun _ x => decode_encodeInstruction x, fun _ _ _ h => encodeInstruction_of_decode h,
    fun _ _ _ _ h h' => (encodeInstruction_of_decode h).symm.trans (encodeInstruction_of_decode h'),
    fun _ _ _ h => decode_error_cases h⟩

end Sys2Proof.Laws
end

section
/-! What the builder reads (43_union_builder.md R176 to R178): the opcode, and the inputs its format requires. -/

namespace Sys2Proof.Laws

open Machine

/-- Settles O28, format by format: once the required inputs of the two builders are the same, `Build` is the same
expression in both, because no other input occurs in it. -/
theorem builderIgnoresIrrelevantFields : Obligations.BuilderIgnoresIrrelevantFields := by
  intro p ⟨_, f3, f7, rs1, rs2, rd, imm⟩ ⟨_, f3', f7', rs1', rs2', rd', imm'⟩ ⟨bits, t, sz, hmapped, hsized⟩ hb hc h
  obtain rfl := hb
  obtain rfl := hc
  cases t <;> simp only [requiredFields, List.forall_mem_cons, fieldAgrees] at h
  case R =>
    obtain ⟨rfl, rfl, rfl, rfl, rfl, -⟩ := h
    rfl
  case I | S | B =>
    obtain ⟨rfl, rfl, rfl, rfl, -⟩ := h
    rfl
  case U | J =>
    obtain ⟨rfl, rfl, -⟩ := h
    rfl

end Sys2Proof.Laws
end

section
/-! The end of the source (44_stream_unit.md R193, R195). A step in Ready does what its fetch finds, and the fetch is
decided by the number of bytes left, which is one number. -/

namespace Sys2Proof.Laws

open Machine

/-- EOS on the first byte of a word ends the stream (R193). -/
theorem step_of_fetch_endOfStream {s t : State} (hst : s.st = .ready) (hf : fetch s = (.endOfStream, t)) :
    step s = .next (endStream t) := by
  unfold step stepReady
  rw [hst, hf]

/-- A failure of the fetch is the failure of the step (R194, R195). -/
theorem step_of_fetch_failed {s t : State} {e : DecodeError} (hst : s.st = .ready)
    (hf : fetch s = (.failed e, t)) : step s = .next (failStream e t) := by
  unfold step stepReady
  rw [hst, hf]

/-- Where no byte is left, the fetch finds the end and takes nothing (R193). -/
theorem fetch_of_peek_none {s : State} (h : s.source.peek 0 = none) : fetch s = (.endOfStream, s) := by
  unfold fetch
  rw [srcNext_none h]

/-- A source has one number of unread bytes at most (20 R31). -/
theorem unreadBytes_unique {src : Source} {m n : Nat} (hm : ∀ k, k < m → src.peek k ≠ none)
    (hmEnd : src.peek m = none) (hn : ∀ k, k < n → src.peek k ≠ none) (hnEnd : src.peek n = none) : m = n :=
  le_antisymm (not_lt.mp fun h => hm n h hnEnd) (not_lt.mp fun h => hn m h hmEnd)

/-- A word of size `Size32` cut off after `n` bytes: the fetch takes those bytes and fails (R195, R34). -/
theorem fetch_of_truncated {s : State} {b0 : Byte} {n : Nat} (h0 : s.source.peek 0 = some b0)
    (hsize : sizeTableOf s.params (byteOpcode b0) = some .size32) (hn3 : n ≤ 3)
    (hbytes : ∀ k, k < n → s.source.peek k ≠ none) (hend : s.source.peek n = none) :
    fetch s = (.failed .unexpectedEof, consumed n s) := by
  rcases fetch_cases s with ⟨h, -⟩ | ⟨b, hb, hcases⟩
  · rw [h0] at h
    cases h
  obtain rfl : b0 = b := Option.some.inj (h0.symm.trans hb)
  rcases hcases with ⟨hs, -⟩ | ⟨sz, hs, hne, -⟩ | ⟨-, m, -, -, hm, hmEnd, hf⟩ | ⟨-, b1, b2, b3, h1, h2, h3, -⟩
  · rw [hsize] at hs
    cases hs
  · exact absurd (Option.some.inj (hs.symm.trans hsize)) hne
  · rwa [unreadBytes_unique hm hmEnd hbytes hend] at hf
  · have hread : s.source.peek n ≠ none := by
      interval_cases n <;> simp [h0, h1, h2, h3]
    exact absurd hend hread

/-- Settles O47: the fetch fails after the bytes that are left, and so does the step. -/
theorem truncatedWordFails : Obligations.TruncatedWordFails := by
  intro s b0 n hst h0 hsize _ hn3 hbytes hend
  exact step_of_fetch_failed hst (fetch_of_truncated h0 hsize hn3 hbytes hend)

/-- Settles O45: the fetch finds the end at once. -/
theorem cleanEndOfStream : Obligations.CleanEndOfStream :=
  fun _ hst h => step_of_fetch_endOfStream hst (fetch_of_peek_none h)

end Sys2Proof.Laws
end

section
/-! Reset (70_reset_and_hazards.md R260). Construction takes the start address modulo `2 ^ ADDR_W`, so an address of
`ADDR_W` bits arrives as it is; `State.reset` is one such construction, from address 0. -/

namespace Sys2Proof.Laws

open Machine

/-- The two registers that hold the start address take it unchanged where it has `ADDR_W` bits (R14, R26). -/
theorem construct_addresses_of_lt {p : Params} {start : Nat} (src : Source) (h : start < 2 ^ p.addrWidth) :
    (State.construct p start src).addr = start ∧ (State.construct p start src).cfgStartAddr = start :=
  ⟨(construct_addr p start src).trans (Nat.mod_eq_of_lt h),
    (construct_cfgStartAddr p start src).trans (Nat.mod_eq_of_lt h)⟩

/-- Settles O53: the addresses are in range, and the state register and the position do not depend on the arguments. -/
theorem resetLeavesAFreshInstance : Obligations.ResetLeavesAFreshInstance := by
  constructor
  · intro p start src h
    obtain ⟨haddr, hcfg⟩ := construct_addresses_of_lt src h
    exact ⟨construct_st .., haddr, hcfg, construct_source .., construct_pos ..⟩
  · obtain ⟨haddr, -⟩ := construct_addresses_of_lt (p := defaultParams) ⟨[], .ends⟩ (Nat.two_pow_pos _)
    exact ⟨construct_st .., haddr, construct_pos ..⟩

end Sys2Proof.Laws
end

section
/-! The rows of the opcode table and the Instructions they stand for (41_opcode_classifier.md R124 to R134;
45_lookup_interface.md R213; logs 14 and 26). One fact carries this part: a row is the row of an Instruction exactly
when its term stands for that Instruction and is no system word under row I.0x73. -/

namespace Sys2Proof.Laws

open Machine

/-- The word of a row's term carries the row's opcode (R46, R138). -/
theorem wordOpcode_encode (i : Instr) : wordOpcode (encode i) = rowBits i := by
  cases i with
  | b63 => exact EncodedOpcode.b63 ..
  | i13 => exact EncodedOpcode.i13 ..
  | i03 => exact EncodedOpcode.i03 ..
  | i67 => exact EncodedOpcode.i67 ..
  | i73 => exact EncodedOpcode.i73 ..
  | j6F => exact EncodedOpcode.j6F ..
  | r33 => exact EncodedOpcode.r33 ..
  | r2F => exact EncodedOpcode.r2F ..
  | r3B => exact EncodedOpcode.r3B ..
  | s23 => exact EncodedOpcode.s23 ..
  | u37 => exact EncodedOpcode.u37 ..
  | ecall => exact EncodedOpcode.ecall
  | ebreak => exact EncodedOpcode.ebreak
  | wfi => exact EncodedOpcode.wfi
  | mret => exact EncodedOpcode.mret
  | sret => exact EncodedOpcode.sret
  | dret => exact EncodedOpcode.dret

/-- The key of every row is mapped (R58). -/
theorem rowBits_mapped (i : Instr) : ∃ t, formatOfKey (keyOf (rowBits i)) = .ok t := by
  cases i with
  | b63 lo => exact ⟨.B, mapped_append lo (by decide)⟩
  | i13 lo => exact ⟨.I, mapped_append lo (by decide)⟩
  | i03 lo => exact ⟨.I, mapped_append lo (by decide)⟩
  | i67 lo => exact ⟨.I, mapped_append lo (by decide)⟩
  | i73 lo => exact ⟨.I, mapped_append lo (by decide)⟩
  | j6F lo => exact ⟨.J, mapped_append lo (by decide)⟩
  | r33 lo => exact ⟨.R, mapped_append lo (by decide)⟩
  | r2F lo => exact ⟨.R, mapped_append lo (by decide)⟩
  | r3B lo => exact ⟨.R, mapped_append lo (by decide)⟩
  | s23 lo => exact ⟨.S, mapped_append lo (by decide)⟩
  | u37 lo => exact ⟨.U, mapped_append lo (by decide)⟩
  | ecall | ebreak | wfi | mret | sret | dret => exact ⟨.I, by decide⟩

/-- A row's term stands for what `Decode` answers for its word, errors included (log 26). -/
theorem instructionOf_eq_decode (p : Params) (i : Instr) : instructionOf p i = decode p (encode i) := by
  rcases instructionOf_cases p i with ⟨x, hx, -, -, hword⟩ | ⟨herr, hsize⟩ | ⟨sz, hne, herr, hsize⟩
  · rw [hx, encode, ← hword, decode_encodeInstruction]
  all_goals
    rw [herr, eq_comm, decode_error_iff, wordOpcode_encode]
  · exact .inr (.inl ⟨rowBits_mapped i, hsize, rfl⟩)
  · exact .inr (.inr ⟨rowBits_mapped i, sz, hsize, hne, rfl⟩)

/-- The system row of a word is the row of that word (R213). -/
theorem encode_of_systemRow {w : Word} {i : Instr} (h : systemRow w = some i) : encode i = w := by
  rcases systemRow_eq_some w i h with ⟨rfl, rfl⟩ | ⟨rfl, rfl⟩ | ⟨rfl, rfl⟩ | ⟨rfl, rfl⟩ | ⟨rfl, rfl⟩ | ⟨rfl, rfl⟩ <;>
    decide

/-- A system row needs no overlap check (log 14). -/
theorem notSystemWord_of_systemRow {w : Word} {i : Instr} (h : systemRow w = some i) : notSystemWord i = true := by
  rcases systemRow_eq_some w i h with ⟨-, rfl⟩ | ⟨-, rfl⟩ | ⟨-, rfl⟩ | ⟨-, rfl⟩ | ⟨-, rfl⟩ | ⟨-, rfl⟩ <;> rfl

/-- The row of an Instruction has the Instruction's word, and row I.0x73 is not chosen for a system word (log 14). -/
theorem encode_of_rowOf {p : Params} {x : Instruction p} {i : Instr} (h : rowOf x = some i) :
    encode i = encodeInstruction x ∧ notSystemWord i = true := by
  cases x with
  | r op rd f3 rs1 rs2 f7 =>
    simp only [rowOf] at h
    split_ifs at h with hkey hkey hkey
    all_goals
      cases h
      exact ⟨congrArg (encodeR · rd f3 rs1 rs2 f7) (opcode_of_key hkey), rfl⟩
  | i op rd f3 rs1 imm =>
    simp only [rowOf] at h
    split_ifs at h with h13 h03 h67 h73
    · cases h
      exact ⟨congrArg (encodeI · rd f3 rs1 imm) (opcode_of_key h13), rfl⟩
    · cases h
      exact ⟨congrArg (encodeI · rd f3 rs1 imm) (opcode_of_key h03), rfl⟩
    · cases h
      exact ⟨congrArg (encodeI · rd f3 rs1 imm) (opcode_of_key h67), rfl⟩
    · have hword := congrArg (encodeI · rd f3 rs1 imm) (opcode_of_key h73)
      split at h
      next row hsys =>
        cases h
        exact ⟨encode_of_systemRow hsys, notSystemWord_of_systemRow hsys⟩
      next hsys =>
        cases h
        refine ⟨hword, ?_⟩
        rw [notSystemWord, rowWord, hword, Option.isNone_iff_eq_none]
        exact hsys
  | s op f3 rs1 rs2 imm =>
    simp only [rowOf] at h
    split_ifs at h with hkey
    cases h
    exact ⟨congrArg (encodeS · f3 rs1 rs2 imm) (opcode_of_key hkey), rfl⟩
  | b op f3 rs1 rs2 imm =>
    simp only [rowOf] at h
    split_ifs at h with hkey
    cases h
    exact ⟨congrArg (encodeB · f3 rs1 rs2 imm) (opcode_of_key hkey), rfl⟩
  | u op rd imm =>
    simp only [rowOf] at h
    split_ifs at h with hkey
    cases h
    exact ⟨congrArg (encodeU · rd imm) (opcode_of_key hkey), rfl⟩
  | j op rd imm =>
    simp only [rowOf] at h
    split_ifs at h with hkey
    cases h
    exact ⟨congrArg (encodeJ · rd imm) (opcode_of_key hkey), rfl⟩

/-- What stands on the front of 7 bits is made from a variant's opcode with those bits (R136). -/
theorem opcodeFront_map_ok {p : Params} {o : OpcodeBits} {t : Format} {mk : VariantOpcode p t → Instruction p}
    {x : Instruction p} (h : (opcodeFront p o t).map mk = .ok x) : ∃ v, v.bits = o ∧ mk v = x := by
  cases hf : opcodeFront p o t with
  | error e =>
    rw [hf] at h
    cases h
  | ok v =>
    rw [hf] at h
    exact ⟨v, (opcodeFront_ok_iff p o t v).mp hf, Except.ok.inj h⟩

/-- The row decoder reads a term that stands for an Instruction back from it, unless another row has the word (log
14). -/
theorem rowOf_of_instructionOf {p : Params} {x : Instruction p} {i : Instr} (h : instructionOf p i = .ok x)
    (hsys : notSystemWord i = true) : rowOf x = some i := by
  cases i
  case i73 lo rd f3 rs1 imm =>
    obtain ⟨v, hv, rfl⟩ := opcodeFront_map_ok h
    rw [notSystemWord, rowWord, Option.isNone_iff_eq_none] at hsys
    simp [rowOf, opcodeOf, encodeInstruction, hv, hsys, keyOf_append, low_bits_append]
  case ecall | ebreak | wfi | mret | sret | dret =>
    obtain ⟨v, hv, rfl⟩ := opcodeFront_map_ok h
    simp only [rowOf, opcodeOf, encodeInstruction, variantOpcode_bits, hv]
    decide
  all_goals
    obtain ⟨v, hv, rfl⟩ := opcodeFront_map_ok h
    simp [rowOf, opcodeOf, hv, keyOf_append, low_bits_append]

/-- Which row an Instruction is. -/
theorem rowOf_eq_some_iff {p : Params} (x : Instruction p) (i : Instr) :
    rowOf x = some i ↔ instructionOf p i = .ok x ∧ notSystemWord i = true := by
  refine ⟨fun h => ?_, fun ⟨hx, hsys⟩ => rowOf_of_instructionOf hx hsys⟩
  obtain ⟨hword, hsys⟩ := encode_of_rowOf h
  exact ⟨by rw [instructionOf_eq_decode, hword, decode_encodeInstruction], hsys⟩

/-- What the row decoder accepts, and as what. -/
theorem decodeWord_ok_iff (p : Params) (w : Word) (i : Instr) :
    decodeWord p w = .ok i ↔ ∃ x, decode p w = .ok x ∧ rowOf x = some i := by
  unfold decodeWord
  cases hd : decode p w with
  | error e => simp
  | ok x =>
    obtain ⟨row, hrow⟩ := Option.isSome_iff_exists.mp (rowOf_isSome x)
    simp [hrow]

/-- What the row decoder refuses, and with what: it loses no word that decodes. -/
theorem decodeWord_error_iff (p : Params) (w : Word) (e : DecodeError) :
    decodeWord p w = .error e ↔ decode p w = .error e := by
  unfold decodeWord
  cases hd : decode p w with
  | error e' => simp
  | ok x =>
    obtain ⟨row, hrow⟩ := Option.isSome_iff_exists.mp (rowOf_isSome x)
    simp [hrow]

/-- Settles O6: the row of a decoded Instruction stands for that Instruction, and every row for its word's answer. -/
theorem rowDecoderAgreesWithUnionDecode : Obligations.RowDecoderAgreesWithUnionDecode := by
  refine ⟨fun p w => ?_, instructionOf_eq_decode⟩
  cases hw : decodeWord p w with
  | error e => exact ((decodeWord_error_iff p w e).mp hw).symm
  | ok i =>
    obtain ⟨x, hx, hrow⟩ := (decodeWord_ok_iff p w i).mp hw
    rw [hx]
    exact ((rowOf_eq_some_iff x i).mp hrow).1

/-- Where `SIZE_OF` gives a row's opcode `Size32`, its term stands for an Instruction with the row's word. -/
theorem instructionOf_of_sized {p : Params} {i : Instr} (h : sizeTableOf p (rowBits i) = some .size32) :
    ∃ x, instructionOf p i = .ok x ∧ encodeInstruction x = encode i := by
  rcases instructionOf_cases p i with ⟨x, hx, -, -, hword⟩ | ⟨-, hsize⟩ | ⟨sz, hne, -, hsize⟩
  · exact ⟨x, hx, hword⟩
  · rw [h] at hsize
    cases hsize
  · rw [h] at hsize
    exact absurd (Option.some.inj hsize).symm hne

theorem wellFormed_iff (p : Params) (i : Instr) :
    wellFormed p i = true ↔ sizeTableOf p (rowBits i) = some .size32 ∧ notSystemWord i = true := by
  simp [wellFormed, sizeOk]

/-- Settles O2: a well-formed term stands for an Instruction, whose word is the term's and whose row is the term. -/
theorem decodeOfEncodeIsTheInstruction : Obligations.DecodeOfEncodeIsTheInstruction := by
  intro p i h
  obtain ⟨hsize, hsys⟩ := (wellFormed_iff p i).mp h
  obtain ⟨x, hx, -⟩ := instructionOf_of_sized hsize
  exact (decodeWord_ok_iff p _ i).mpr
    ⟨x, (instructionOf_eq_decode p i).symm.trans hx, rowOf_of_instructionOf hx hsys⟩

/-- A decoded Instruction carries the word's opcode (R23, R170). -/
theorem opcodeOf_bits_of_decode {p : Params} {w : Word} {x : Instruction p} (h : decode p w = .ok x) :
    (opcodeOf x).bits = wordOpcode w :=
  (decodeAs_ok p _ w x ((decode_ok_iff p w x).mp h)).2

/-- A word that decodes has an opcode of size `Size32` (R62). -/
theorem sizeTableOf_of_decode {p : Params} {w : Word} {x : Instruction p} (h : decode p w = .ok x) :
    sizeTableOf p (wordOpcode w) = some .size32 :=
  opcodeOf_bits_of_decode h ▸ opcodeOf_sized x

/-- Settles O3: the row of a decoded Instruction has the Instruction's word, hence its opcode and that opcode's size. -/
theorem encodeOfDecodeIsTheWord : Obligations.EncodeOfDecodeIsTheWord := by
  intro p w i h
  obtain ⟨x, hx, hrow⟩ := (decodeWord_ok_iff p w i).mp h
  obtain ⟨hword, hsys⟩ := encode_of_rowOf hrow
  have hw : encode i = w := hword.trans (encodeInstruction_of_decode hx)
  refine ⟨hw, (wellFormed_iff p i).mpr ⟨?_, hsys⟩⟩
  rw [← wordOpcode_encode, hw]
  exact sizeTableOf_of_decode hx

end Sys2Proof.Laws
end

section
/-! One poll of the stream unit (44_stream_unit.md R191 to R198; 20_memory.md R34). `Answer` says which output a poll
gives and how many bytes it takes, as a relation on just what it may depend on (10_state.md R10); `afterPoll` is the
state the poll leaves. Together they are `step`, and the statements about polls and runs go through them. -/

namespace Sys2Proof.Laws

open Machine

/-! What the fetch finds, by the unread bytes. -/

/-- The first byte of a word carries the word's opcode (R194). -/
theorem byteOpcode_firstByte (w : Word) : byteOpcode (w.extractLsb' 0 8) = wordOpcode w :=
  (wordOpcode_assembleWord _ _ _ _).symm.trans (congrArg wordOpcode (assembleWord_wordBytes w))

theorem fetch_of_unrecognizedSize {s : State} {b0 : Byte} (h0 : s.source.peek 0 = some b0)
    (hsize : sizeTableOf s.params (byteOpcode b0) = none) :
    fetch s = (.failed .unrecognizedInstructionSize, consumed 1 s) := by
  unfold fetch
  simp only [srcNext_some h0, hsize]

theorem fetch_of_unsupportedSize {s : State} {b0 : Byte} {sz : Size} (h0 : s.source.peek 0 = some b0)
    (hsize : sizeTableOf s.params (byteOpcode b0) = some sz) (hne : sz ≠ .size32) :
    fetch s = (.failed (.unsupportedInstructionSize sz), consumed 1 s) := by
  unfold fetch
  simp only [srcNext_some h0, hsize, if_neg hne]

theorem fetch_of_nextWord {s : State} {w : Word} (hw : NextWord s w)
    (hsize : sizeTableOf s.params (wordOpcode w) = some .size32) : fetch s = (.word w, consumed 4 s) := by
  obtain ⟨h0, h1, h2, h3⟩ := hw
  unfold fetch fetchRemaining
  simp only [srcNext_some h0, byteOpcode_firstByte, hsize, srcNext_consumed_some h1, srcNext_consumed_some h2,
    srcNext_consumed_some h3, assembleWord_wordBytes, if_true]

/-! What the step does with it. -/

theorem step_of_not_ready {s : State} (h : s.st ≠ .ready) : step s = .next (pollTerminal s) := by
  unfold step
  split
  next hst => exact absurd hst h
  · rfl
  · rfl

/-- Steps (4) and (5) of R192: a fetched word is decoded, and its record or its error is the output. -/
theorem step_of_fetch_word {s t : State} {w : Word} (hst : s.st = .ready) (hf : fetch s = (.word w, t)) :
    step s = .next (deliver (decode t.params w) t) := by
  unfold step stepReady
  simp only [hst, hf]
  cases hd : decodeWord t.params w with
  | error e => rw [(decodeWord_error_iff _ w e).mp hd]; rfl
  | ok i =>
    obtain ⟨x, hx, hrow⟩ := (decodeWord_ok_iff _ w i).mp hd
    rw [hx]
    exact exec_ok ((rowOf_eq_some_iff x i).mp hrow).1

/-- Only the format error is left for a word whose size was tested (R196). -/
theorem decode_error_of_sized {p : Params} {w : Word} {e : DecodeError}
    (hsize : sizeTableOf p (wordOpcode w) = some .size32) (hd : decode p w = .error e) :
    e = .unrecognizedInstructionFormat := by
  rcases (decode_error_iff p w e).mp hd with hformat | ⟨-, hnone, -⟩ | ⟨-, sz, hsz, hne, -⟩
  · exact ((formatOfKey_error_iff _ e).mp hformat).2
  · rw [hsize] at hnone
    cases hnone
  · rw [hsize] at hsz
    exact absurd (Option.some.inj hsz).symm hne

/-! The answer of a poll, and the state it leaves. -/

/-- The next four bytes of a source are those of the word `w` (20 R32). -/
def WordAhead (src : Source) (w : Word) : Prop :=
  src.peek 0 = some (w.extractLsb' 0 8) ∧ src.peek 1 = some (w.extractLsb' 8 8) ∧
    src.peek 2 = some (w.extractLsb' 16 8) ∧ src.peek 3 = some (w.extractLsb' 24 8)

theorem nextWord_iff (s : State) (w : Word) : NextWord s w ↔ WordAhead s.source w := Iff.rfl

/-- A poll in state `st`, with the counter at `addr` and the unread bytes `src`, consumes `n` bytes and answers `o`. -/
inductive Answer (p : Params) (st : StreamState) (addr : Nat) (src : Source) : Nat → StreamOutput → Prop
  | afterEnd (hst : st ≠ .ready) : Answer p st addr src 0 .done
  | cleanEnd (hst : st = .ready) (hend : src.peek 0 = none) : Answer p st addr src 0 .done
  | unrecognizedSize {b0 : Byte} (hst : st = .ready) (h0 : src.peek 0 = some b0)
      (hsize : sizeTableOf p (byteOpcode b0) = none) : Answer p st addr src 1 (.error .unrecognizedInstructionSize)
  | unsupportedSize {b0 : Byte} {sz : Size} (hst : st = .ready) (h0 : src.peek 0 = some b0)
      (hsize : sizeTableOf p (byteOpcode b0) = some sz) (hne : sz ≠ .size32) :
      Answer p st addr src 1 (.error (.unsupportedInstructionSize sz))
  | truncated {b0 : Byte} {n : Nat} (hst : st = .ready) (h0 : src.peek 0 = some b0)
      (hsize : sizeTableOf p (byteOpcode b0) = some .size32) (hn1 : 1 ≤ n) (hn3 : n ≤ 3)
      (hbytes : ∀ k, k < n → src.peek k ≠ none) (hend : src.peek n = none) :
      Answer p st addr src n (.error .unexpectedEof)
  | undecodable {w : Word} (hst : st = .ready) (hw : WordAhead src w)
      (hsize : sizeTableOf p (wordOpcode w) = some .size32)
      (hd : decode p w = .error .unrecognizedInstructionFormat) :
      Answer p st addr src 4 (.error .unrecognizedInstructionFormat)
  | record {w : Word} {x : Instruction p} (hst : st = .ready) (hw : WordAhead src w) (hd : decode p w = .ok x) :
      Answer p st addr src 4 (.item ⟨x, addr⟩)

/-- `st` after a poll that answered `o` (R193 to R198). -/
def stAfter (st : StreamState) : StreamOutput → StreamState
  | .item _ => st
  | .error _ => .failed
  | .done => if st = .ready then .ended else st

/-- The counter after a poll that answered `o` (R197; logs 3 to 5). -/
def addrAfter (p : Params) (addr : Nat) : StreamOutput → Nat
  | .item _ => nextAddr p addr
  | .error _ => addr
  | .done => addr

/-- The state after a poll that consumed `n` bytes and answered `o`. -/
def afterPoll (n : Nat) (o : StreamOutput) (s : State) : State :=
  { consumed n s with st := stAfter s.st o, addr := addrAfter s.params s.addr o, out := some o }

section
variable (n : Nat) (o : StreamOutput) (s : State)

@[simp] theorem afterPoll_params : (afterPoll n o s).params = s.params := rfl
@[simp] theorem afterPoll_cfgStartAddr : (afterPoll n o s).cfgStartAddr = s.cfgStartAddr := rfl
@[simp] theorem afterPoll_st : (afterPoll n o s).st = stAfter s.st o := rfl
@[simp] theorem afterPoll_addr : (afterPoll n o s).addr = addrAfter s.params s.addr o := rfl
@[simp] theorem afterPoll_source : (afterPoll n o s).source = s.source.drop n := rfl
@[simp] theorem afterPoll_pos : (afterPoll n o s).pos = s.pos + n := rfl
@[simp] theorem afterPoll_out : (afterPoll n o s).out = some o := rfl

end

/-- A poll after the end shows End and changes no more (R198). -/
theorem afterPoll_done_of_not_ready {s : State} (h : s.st ≠ .ready) : afterPoll 0 .done s = pollTerminal s := by
  simp [afterPoll, stAfter, addrAfter, h, consumed_zero, pollTerminal]

/-- The clean end (R193). -/
theorem afterPoll_done_of_ready {s : State} (h : s.st = .ready) : afterPoll 0 .done s = endStream s := by
  simp [afterPoll, stAfter, addrAfter, h, consumed_zero, endStream]

theorem afterPoll_item {p : Params} (x : Instruction p) (s : State) :
    afterPoll 4 (.item ⟨x, s.addr⟩) s = afterRecord x s := rfl

/-- A poll does what its answer says. -/
theorem step_of_answer {s : State} {n : Nat} {o : StreamOutput} (h : Answer s.params s.st s.addr s.source n o) :
    step s = .next (afterPoll n o s) := by
  cases h with
  | afterEnd hst => rw [step_of_not_ready hst, afterPoll_done_of_not_ready hst]
  | cleanEnd hst hend => rw [step_of_fetch_endOfStream hst (fetch_of_peek_none hend), afterPoll_done_of_ready hst]
  | unrecognizedSize hst h0 hsize => exact step_of_fetch_failed hst (fetch_of_unrecognizedSize h0 hsize)
  | unsupportedSize hst h0 hsize hne => exact step_of_fetch_failed hst (fetch_of_unsupportedSize h0 hsize hne)
  | truncated hst h0 hsize _ hn3 hbytes hend =>
    exact step_of_fetch_failed hst (fetch_of_truncated h0 hsize hn3 hbytes hend)
  | undecodable hst hw hsize hd =>
    rw [step_of_fetch_word hst (fetch_of_nextWord ((nextWord_iff s _).mpr hw) hsize), consumed_params, hd]
    rfl
  | record hst hw hd =>
    have hf := fetch_of_nextWord ((nextWord_iff s _).mpr hw) (sizeTableOf_of_decode hd)
    rw [step_of_fetch_word hst hf, consumed_params, hd]
    rfl

/-- Four unread bytes are those of the word they assemble to (20 R32). -/
theorem wordAhead_of_bytes {src : Source} {b0 b1 b2 b3 : Byte} (h0 : src.peek 0 = some b0) (h1 : src.peek 1 = some b1)
    (h2 : src.peek 2 = some b2) (h3 : src.peek 3 = some b3) : WordAhead src (assembleWord b0 b1 b2 b3) := by
  have hbytes := wordBytes_assembleWord b0 b1 b2 b3
  simp only [wordBytes, List.cons.injEq, and_true] at hbytes
  obtain ⟨e0, e1, e2, e3⟩ := hbytes
  exact ⟨h0.trans (congrArg some e0.symm), h1.trans (congrArg some e1.symm), h2.trans (congrArg some e2.symm),
    h3.trans (congrArg some e3.symm)⟩

/-- Every poll has an answer (R191). -/
theorem answer_exists (s : State) : ∃ n o, Answer s.params s.st s.addr s.source n o := by
  by_cases hst : s.st = .ready
  swap
  · exact ⟨_, _, .afterEnd hst⟩
  rcases fetch_cases s with ⟨hend, -⟩ | ⟨b0, h0, ⟨hsize, -⟩ | ⟨sz, hsize, hne, -⟩ |
    ⟨hsize, n, hn1, hn3, hbytes, hend, -⟩ | ⟨hsize, b1, b2, b3, h1, h2, h3, -⟩⟩
  · exact ⟨_, _, .cleanEnd hst hend⟩
  · exact ⟨_, _, .unrecognizedSize hst h0 hsize⟩
  · exact ⟨_, _, .unsupportedSize hst h0 hsize hne⟩
  · exact ⟨_, _, .truncated hst h0 hsize hn1 hn3 hbytes hend⟩
  · have hw := wordAhead_of_bytes h0 h1 h2 h3
    rw [← wordOpcode_assembleWord b0 b1 b2 b3] at hsize
    cases hd : decode s.params (assembleWord b0 b1 b2 b3) with
    | error e =>
      obtain rfl := decode_error_of_sized hsize hd
      exact ⟨_, _, .undecodable hst hw hsize hd⟩
    | ok x => exact ⟨_, _, .record hst hw hd⟩

/-- What a step can do, both ways: it leaves the state after some answer of the poll. -/
theorem step_next_iff (s t : State) :
    step s = .next t ↔ ∃ n o, Answer s.params s.st s.addr s.source n o ∧ t = afterPoll n o s := by
  constructor
  · intro h
    obtain ⟨n, o, hans⟩ := answer_exists s
    rw [step_of_answer hans] at h
    cases h
    exact ⟨n, o, hans, rfl⟩
  · rintro ⟨n, o, hans, rfl⟩
    exact step_of_answer hans

/-- The bytes of a word ahead are there. -/
theorem WordAhead.peek_ne_none {src : Source} {w : Word} (h : WordAhead src w) {k : Nat} (hk : k < 4) :
    src.peek k ≠ none := by
  obtain ⟨h0, h1, h2, h3⟩ := h
  interval_cases k <;> simp [*]

/-- A poll consumes bytes that are there (R34). -/
theorem Answer.peek_ne_none {p : Params} {st : StreamState} {addr : Nat} {src : Source} {n : Nat} {o : StreamOutput}
    (h : Answer p st addr src n o) {k : Nat} (hk : k < n) : src.peek k ≠ none := by
  cases h with
  | afterEnd | cleanEnd => omega
  | unrecognizedSize _ h0 _ | unsupportedSize _ h0 _ _ =>
    obtain rfl : k = 0 := by omega
    simp [h0]
  | truncated _ _ _ _ _ hbytes _ => exact hbytes k hk
  | undecodable _ hw _ _ | record _ hw _ => exact hw.peek_ne_none hk

/-- An answer reads the bytes it consumes, and one byte more only where it meets the end of the source (R10, R31). -/
theorem Answer.congr {p : Params} {st : StreamState} {addr : Nat} {src src' : Source} {n : Nat} {o : StreamOutput}
    (h : Answer p st addr src n o) (hbytes : ∀ k, k < n → src'.peek k = src.peek k)
    (hend : o = .done ∨ o = .error .unexpectedEof → src'.peek n = src.peek n) : Answer p st addr src' n o := by
  have hword {w : Word} (hn : n = 4) (hw : WordAhead src w) : WordAhead src' w := by
    obtain ⟨h0, h1, h2, h3⟩ := hw
    exact ⟨(hbytes 0 (by omega)).trans h0, (hbytes 1 (by omega)).trans h1, (hbytes 2 (by omega)).trans h2,
      (hbytes 3 (by omega)).trans h3⟩
  cases h with
  | afterEnd hst => exact .afterEnd hst
  | cleanEnd hst h => exact .cleanEnd hst ((hend (.inl rfl)).trans h)
  | unrecognizedSize hst h0 hsize => exact .unrecognizedSize hst ((hbytes 0 (by omega)).trans h0) hsize
  | unsupportedSize hst h0 hsize hne => exact .unsupportedSize hst ((hbytes 0 (by omega)).trans h0) hsize hne
  | truncated hst h0 hsize hn1 hn3 hall h =>
    exact .truncated hst ((hbytes 0 (by omega)).trans h0) hsize hn1 hn3
      (fun k hk => (hbytes k hk).symm ▸ hall k hk) ((hend (.inr rfl)).trans h)
  | undecodable hst hw hsize hd => exact .undecodable hst (hword rfl hw) hsize hd
  | record hst hw hd => exact .record hst (hword rfl hw) hd

end Sys2Proof.Laws
end

section
/-! What one poll of a stream unit does to its state and its output (44_stream_unit.md R191 to R198; 10_state.md R10, R12;
20_memory.md R34). Each statement is a case split over the answers of a poll. -/

namespace Sys2Proof.Laws

open Machine

/-- Settles O39: the row decoded from the word stands for the Instruction that the step delivers. -/
theorem stepRunsTheDecodedInstruction : Obligations.StepRunsTheDecodedInstruction := by
  intro s w i hst hw hi
  obtain ⟨x, hx, hrow⟩ := (decodeWord_ok_iff _ w i).mp hi
  rw [step_of_fetch_word hst (fetch_of_nextWord hw (sizeTableOf_of_decode hx)), consumed_params, hx]
  exact (exec_ok (s := consumed 4 s) ((rowOf_eq_some_iff x i).mp hrow).1).symm

/-- Settles O46: both are answers after one byte. -/
theorem wrongSizeFailsAfterOneByte : Obligations.WrongSizeFailsAfterOneByte :=
  fun _ _ hst h0 => ⟨fun hsize => step_of_answer (.unrecognizedSize hst h0 hsize),
    fun _ hsize hne => step_of_answer (.unsupportedSize hst h0 hsize hne)⟩

/-- Settles O48: the size was tested, so only the format error is left. -/
theorem undecodableWordFails : Obligations.UndecodableWordFails := by
  intro s w e hst hw hsize hd
  obtain rfl := decode_error_of_sized hsize hd
  exact ⟨rfl, step_of_answer (.undecodable hst hw hsize hd)⟩

/-- Settles O50: every poll has an answer, and the state it leaves shows it. -/
theorem everyStepAnswersOneOutput : Obligations.EveryStepAnswersOneOutput := by
  intro s
  obtain ⟨n, o, h⟩ := answer_exists s
  exact ⟨_, o, step_of_answer h, rfl⟩

/-- Only a record leaves the unit in Ready (R193 to R198). -/
theorem afterPoll_st_ne_ready (n : Nat) {o : StreamOutput} (s : State) (h : ∀ rec, o ≠ .item rec) :
    (afterPoll n o s).st ≠ .ready := by
  rw [afterPoll_st]
  cases o with
  | item rec => exact absurd rfl (h rec)
  | error e => simp [stAfter]
  | done => by_cases hst : s.st = .ready <;> simp [stAfter, hst]

/-- Settles O51: the number of bytes and the state register, answer by answer. -/
theorem stepsConsumeTheirBytesInOrder : Obligations.StepsConsumeTheirBytesInOrder := by
  intro s t h
  obtain ⟨n, o, hans, rfl⟩ := (step_next_iff s t).mp h
  refine ⟨rfl, rfl, n, fun _ => hans.peek_ne_none, fun k => peek_drop n k s.source, rfl, rfl, ?_⟩
  cases hans with
  | afterEnd | cleanEnd => exact .inl ⟨rfl, rfl, afterPoll_st_ne_ready 0 s nofun⟩
  | record hst => exact .inr (.inl ⟨⟨_, rfl⟩, rfl, hst⟩)
  | unrecognizedSize => exact .inr (.inr (.inl ⟨rfl, rfl, rfl⟩))
  | unsupportedSize _ _ _ hne => exact .inr (.inr (.inr (.inl ⟨⟨_, hne, rfl⟩, rfl, rfl⟩)))
  | truncated _ _ _ hn1 hn3 _ hend => exact .inr (.inr (.inr (.inr (.inl ⟨rfl, hn1, hn3, hend, rfl⟩))))
  | undecodable => exact .inr (.inr (.inr (.inr (.inr ⟨rfl, rfl, rfl⟩))))

/-- Settles O52: the counter after a poll is a function of the output, and a record carries the value before. -/
theorem counterMovesOnlyWithARecord : Obligations.CounterMovesOnlyWithARecord := by
  intro s t h
  obtain ⟨n, o, hans, rfl⟩ := (step_next_iff s t).mp h
  cases hans with
  | record =>
    refine ⟨fun rec hrec => ?_, fun hno => absurd rfl (hno _)⟩
    cases hrec
    exact ⟨rfl, rfl⟩
  | afterEnd | cleanEnd | unrecognizedSize | unsupportedSize | truncated | undecodable =>
    exact ⟨nofun, fun _ => rfl⟩

/-- Settles O58: the answer reads the consumed bytes only, so the other state has the same one. -/
theorem bytesBehindAWordDoNotMatter : Obligations.BytesBehindAWordDoNotMatter := by
  intro s s' t n hst h hdone heof hpos hp hst' haddr hbytes
  obtain ⟨m, o, hans, rfl⟩ := (step_next_iff s t).mp h
  obtain rfl : m = n := Nat.add_left_cancel hpos
  have hans' : Answer s'.params s'.st s'.addr s'.source m o := by
    rw [hp, hst', haddr]
    refine hans.congr hbytes fun ho => ?_
    rcases ho with rfl | rfl
    · exact absurd rfl hdone
    · exact absurd rfl heof
  rw [step_of_answer hans']
  simp only [afterPoll, consumed, hp, hst', haddr]

/-! The errors a poll can answer (R192, R196; 60_exceptions.md R235). -/

theorem Answer.streamError {p : Params} {st : StreamState} {addr : Nat} {src : Source} {n : Nat} {e : DecodeError}
    (h : Answer p st addr src n (.error e)) : StreamError e := by
  cases h with
  | unrecognizedSize => exact .inl rfl
  | unsupportedSize _ _ _ hne => exact .inr (.inl ⟨_, hne, rfl⟩)
  | truncated => exact .inr (.inr (.inl rfl))
  | undecodable => exact .inr (.inr (.inr rfl))

/-- A failing poll consumes one to four bytes (R34). -/
theorem Answer.error_consumes {p : Params} {st : StreamState} {addr : Nat} {src : Source} {n : Nat} {e : DecodeError}
    (h : Answer p st addr src n (.error e)) : st = .ready ∧ 1 ≤ n ∧ n ≤ 4 := by
  cases h with
  | unrecognizedSize hst | unsupportedSize hst | undecodable hst => exact ⟨hst, by norm_num, by norm_num⟩
  | truncated hst _ _ hn1 hn3 => exact ⟨hst, hn1, by omega⟩

end Sys2Proof.Laws
end

section
/-! The invariant of one stream unit (`StreamInv`: 10_state.md R12, R14; 20_memory.md R33). It holds after construction,
and each of the three kinds of answer keeps it: End moves nothing, an error leaves the count of records, a record adds
one to it and 32 to the counter. -/

namespace Sys2Proof.Laws

open Machine

/-- Until a failure every four bytes consumed are a record (R34). -/
theorem recordsYielded_of_not_failed {s : State} (h : s.st ≠ .failed) : recordsYielded s = s.pos / 4 := by
  unfold recordsYielded
  split
  · rfl
  · rfl
  next hst => exact absurd hst h

theorem recordsYielded_of_failed {s : State} (h : s.st = .failed) : recordsYielded s = (s.pos - 1) / 4 := by
  unfold recordsYielded
  rw [h]

/-- Settles O54: no byte is consumed and no record yielded, so the counter is the start address. -/
theorem streamInvariantHoldsAfterReset : Obligations.StreamInvariantHoldsAfterReset := by
  have hconstruct (p : Params) (start : Nat) (src : Source) (hp : paramsWf p) :
      StreamInv (State.construct p start src) :=
    { params_wf := hp
      start_lt := Nat.mod_lt _ (Nat.two_pow_pos _)
      addr_eq := by rw [recordsYielded_of_not_failed (by simp)]; simp
      word_boundary := fun _ => rfl
      failed_consumed := nofun
      ended_exhausted := nofun
      output_agrees := rfl }
  exact ⟨hconstruct, hconstruct _ _ _ ⟨by simp [defaultParams], by decide⟩⟩

/-- End moves neither the counter nor the position (R193, R198). -/
theorem streamInv_afterPoll_done {s : State} (h : StreamInv s) (hend : s.st = .ready → s.source.peek 0 = none) :
    StreamInv (afterPoll 0 .done s) := by
  by_cases hst : s.st = .ready
  · have hcount : recordsYielded s = s.pos / 4 := recordsYielded_of_not_failed (by simp [hst])
    rw [afterPoll_done_of_ready hst]
    exact
      { params_wf := h.params_wf
        start_lt := h.start_lt
        addr_eq := by rw [recordsYielded_of_not_failed (by simp)]; exact hcount ▸ h.addr_eq
        word_boundary := fun _ => h.word_boundary (by simp [hst])
        failed_consumed := nofun
        ended_exhausted := fun _ => hend hst
        output_agrees := rfl }
  · rw [afterPoll_done_of_not_ready hst]
    exact
      { params_wf := h.params_wf
        start_lt := h.start_lt
        addr_eq := h.addr_eq
        word_boundary := h.word_boundary
        failed_consumed := h.failed_consumed
        ended_exhausted := h.ended_exhausted
        output_agrees := by
          unfold OutputAgrees
          cases hs : s.st with
          | ready => exact absurd hs hst
          | ended | failed => simp [hs] }

/-- A failing poll consumes one to four bytes behind a word boundary, so no record is counted for them (R34, R195,
R196). -/
theorem streamInv_afterPoll_error {s : State} {n : Nat} {e : DecodeError} (h : StreamInv s) (hst : s.st = .ready)
    (hn1 : 1 ≤ n) (hn4 : n ≤ 4) (he : StreamError e) : StreamInv (afterPoll n (.error e) s) := by
  have hboundary : s.pos % 4 = 0 := h.word_boundary (by simp [hst])
  have hcount : recordsYielded (afterPoll n (.error e) s) = recordsYielded s := by
    rw [recordsYielded_of_failed rfl, recordsYielded_of_not_failed (s := s) (by simp [hst]), afterPoll_pos]
    omega
  exact
    { params_wf := h.params_wf
      start_lt := h.start_lt
      addr_eq := by rw [hcount]; exact h.addr_eq
      word_boundary := fun hno => absurd rfl hno
      failed_consumed := fun _ => show 0 < s.pos + n by omega
      ended_exhausted := nofun
      output_agrees := he }

/-- A record is one more, and its address is the counter's value before (R197). -/
theorem streamInv_afterRecord {s : State} (x : Instruction s.params) (h : StreamInv s) (hst : s.st = .ready) :
    StreamInv (afterRecord x s) := by
  have hcount : recordsYielded s = s.pos / 4 := recordsYielded_of_not_failed (by simp [hst])
  have haddr := h.addr_eq
  rw [hcount] at haddr
  have hpos : (s.pos + 4) / 4 = s.pos / 4 + 1 := by omega
  exact
    { params_wf := h.params_wf
      start_lt := h.start_lt
      addr_eq := by
        rw [recordsYielded_of_not_failed (by simp [hst])]
        simp only [afterRecord_addr, afterRecord_pos, afterRecord_cfgStartAddr, afterRecord_params, haddr, hpos,
          Nat.mod_add_mod, addrStep, Nat.mul_add, Nat.mul_one, Nat.add_assoc]
      word_boundary := fun _ => by
        have := h.word_boundary (by simp [hst])
        rw [afterRecord_pos]
        omega
      failed_consumed := fun hf => absurd (hst.symm.trans hf) (by simp)
      ended_exhausted := fun he => absurd (hst.symm.trans he) (by simp)
      output_agrees := by
        unfold OutputAgrees
        rw [afterRecord_st, hst, afterRecord_out]
        refine ⟨rfl, show 4 ≤ s.pos + 4 by omega, ?_⟩
        rw [afterRecord_pos, hpos, Nat.add_sub_cancel]
        exact haddr }

/-- Settles O55: each answer of a poll keeps the invariant. -/
theorem streamInvariantIsKeptByEveryStep : Obligations.StreamInvariantIsKeptByEveryStep := by
  intro s t h hstep
  obtain ⟨n, o, hans, rfl⟩ := (step_next_iff s t).mp hstep
  cases o with
  | item rec =>
    cases hans with
    | record hst => exact streamInv_afterRecord _ h hst
  | error e =>
    obtain ⟨hst, hn1, hn4⟩ := hans.error_consumes
    exact streamInv_afterPoll_error h hst hn1 hn4 hans.streamError
  | done =>
    cases hans with
    | afterEnd hst => exact streamInv_afterPoll_done h fun hready => absurd hready hst
    | cleanEnd _ hend => exact streamInv_afterPoll_done h fun _ => hend

end Sys2Proof.Laws
end

section
/-! Runs: what a consumer sees when it polls again and again (44_stream_unit.md R198, R200, R201; 10_state.md R10;
20_memory.md R37(b)). Each statement is an induction over the number of polls, one answer at a time. -/

namespace Sys2Proof.Laws

open Machine

/-! One poll more. -/

section
variable {s : State} {n : Nat} {o : StreamOutput} (h : Answer s.params s.st s.addr s.source n o) (k : Nat)
include h

theorem runOutputs_succ : runOutputs (k + 1) s = o :: runOutputs k (afterPoll n o s) := by
  rw [runOutputs, step_of_answer h]
  rfl

theorem runState_succ : runState (k + 1) s = runState k (afterPoll n o s) := by
  rw [runState, step_of_answer h]

end

/-- A run goes on from the state its first part left. -/
theorem runOutputs_add (m k : Nat) (s : State) :
    runOutputs (m + k) s = runOutputs m s ++ runOutputs k (runState m s) := by
  induction m generalizing s with
  | zero => rw [Nat.zero_add]; rfl
  | succ m ih =>
    obtain ⟨n, o, h⟩ := answer_exists s
    rw [Nat.succ_add, runOutputs_succ h, runOutputs_succ h, runState_succ h, ih, List.cons_append]

/-! A run that is over (R198, R201). -/

theorem runOutputs_of_not_ready {s : State} (hst : s.st ≠ .ready) (k : Nat) :
    runOutputs k s = List.replicate k .done := by
  induction k generalizing s with
  | zero => rfl
  | succ k ih =>
    rw [runOutputs_succ (.afterEnd hst), afterPoll_done_of_not_ready hst, ih (s := pollTerminal s) hst,
      List.replicate_succ]

theorem runState_of_not_ready {s : State} (hst : s.st ≠ .ready) (k : Nat) :
    runState (k + 1) s = pollTerminal s := by
  induction k generalizing s with
  | zero => rw [runState_succ (.afterEnd hst), afterPoll_done_of_not_ready hst]; rfl
  | succ k ih =>
    rw [runState_succ (.afterEnd hst), afterPoll_done_of_not_ready hst, ih (s := pollTerminal s) hst]
    rfl

/-- Settles O49: a poll after the end is `pollTerminal`, and a second one changes nothing more. -/
theorem terminalStatesAnswerEndForEver : Obligations.TerminalStatesAnswerEndForEver :=
  fun _ k hst => ⟨runOutputs_of_not_ready hst k, runState_of_not_ready hst k⟩

theorem runOver_of_not_ready {s : State} (hst : s.st ≠ .ready) (k : Nat) : runOver (runState k s) = true := by
  cases k with
  | zero => simpa [runState, runOver] using hst
  | succ k => simpa [runState_of_not_ready hst, runOver] using hst

/-- Settles O57: a record is put in front of the run that follows it, and behind an error or End the run is over. -/
theorem runsAreRecordsThenAtMostOneErrorThenEnd : Obligations.RunsAreRecordsThenAtMostOneErrorThenEnd := by
  intro s k
  induction k generalizing s with
  | zero => exact ⟨[], [], 0, rfl, .inl rfl, fun hne => absurd rfl hne⟩
  | succ k ih =>
    obtain ⟨n, o, h⟩ := answer_exists s
    rw [runOutputs_succ h, runState_succ h]
    cases o with
    | item rec =>
      obtain ⟨recs, tail, m, hout, htail, hover⟩ := ih (afterPoll n (.item rec) s)
      exact ⟨rec :: recs, tail, m, by rw [hout]; rfl, htail, hover⟩
    | error e =>
      have hst : (afterPoll n (.error e) s).st ≠ .ready := afterPoll_st_ne_ready n s nofun
      exact ⟨[], _, k, by rw [runOutputs_of_not_ready hst]; rfl, .inr ⟨e, h.streamError, rfl⟩,
        fun _ => runOver_of_not_ready hst k⟩
    | done =>
      have hst : (afterPoll n .done s).st ≠ .ready := afterPoll_st_ne_ready n s nofun
      exact ⟨[], _, k + 1, by rw [runOutputs_of_not_ready hst]; rfl, .inl rfl, fun _ => runOver_of_not_ready hst k⟩

/-- Settles O59: both states have the same answer, and agree again behind it. -/
theorem outputsDependOnlyOnTheUnreadBytesAndTheCounter :
    Obligations.OutputsDependOnlyOnTheUnreadBytesAndTheCounter := by
  intro s t k
  induction k generalizing s t with
  | zero => exact fun _ _ _ _ => rfl
  | succ k ih =>
    intro hp hst haddr hpeek
    obtain ⟨n, o, h⟩ := answer_exists s
    have h' : Answer t.params t.st t.addr t.source n o := by
      rw [← hp, ← hst, ← haddr]
      exact h.congr (fun j _ => (hpeek j).symm) fun _ => (hpeek n).symm
    rw [runOutputs_succ h, runOutputs_succ h']
    congr 1
    refine ih _ _ hp (congrArg (stAfter · o) hst) ?_ fun j => ?_
    · rw [afterPoll_addr, afterPoll_addr, hp, haddr]
    · rw [afterPoll_source, afterPoll_source, peek_drop, peek_drop]
      exact hpeek (n + j)

/-! A run over words that decode (R200). -/

/-- The record of word `k` of a source whose first word is tagged with `start` (R12, R37(b)). -/
def recordAt {p : Params} (start : Nat) (k : Nat) (x : Instruction p) : StreamOutput :=
  .item ⟨x, (start + 32 * k) % 2 ^ p.addrWidth⟩

theorem recordAt_succ {p : Params} (start k : Nat) (x : Instruction p) :
    recordAt (start + 32) k x = recordAt start (k + 1) x := by
  rw [recordAt, recordAt, show start + 32 + 32 * k = start + 32 * (k + 1) by omega]

/-- The first words of a source are those of the Instructions `xs`, each at its place. -/
def WordsAhead {p : Params} (src : Source) (xs : List (Instruction p)) : Prop :=
  ∀ k (hk : k < xs.length), ∃ w, WordAhead (src.drop (4 * k)) w ∧ decode p w = .ok xs[k]

theorem WordsAhead.tail {p : Params} {src : Source} {x : Instruction p} {xs : List (Instruction p)}
    (h : WordsAhead src (x :: xs)) : WordsAhead (src.drop 4) xs := by
  intro k hk
  rw [← drop_add, show 4 + 4 * k = 4 * (k + 1) by omega]
  exact h (k + 1) (Nat.succ_lt_succ hk)

/-- As long as the words decode, each poll yields the record of its word, at its address, and leaves the unit in Ready
behind the four bytes. -/
theorem run_of_wordsAhead {p : Params} (xs : List (Instruction p)) {s : State} {start : Nat} (hp : s.params = p)
    (hst : s.st = .ready) (haddr : s.addr = start % 2 ^ p.addrWidth) (hwords : WordsAhead s.source xs) :
    runOutputs xs.length s = xs.mapIdx (recordAt start) ∧ (runState xs.length s).params = p ∧
      (runState xs.length s).st = .ready ∧ (runState xs.length s).source = s.source.drop (4 * xs.length) ∧
      (runState xs.length s).pos = s.pos + 4 * xs.length := by
  induction xs generalizing s start with
  | nil => exact ⟨rfl, hp, hst, rfl, rfl⟩
  | cons x xs ih =>
    subst hp
    obtain ⟨w, hw, hd⟩ := hwords 0 (Nat.succ_pos _)
    have hans : Answer s.params s.st s.addr s.source 4 (.item ⟨x, s.addr⟩) := .record hst hw hd
    obtain ⟨hout, hparams, hst', hsource, hpos⟩ := ih (s := afterRecord x s) (start := start + 32) rfl hst
      (by rw [afterRecord_addr, haddr, Nat.mod_add_mod]) hwords.tail
    rw [List.length_cons, runOutputs_succ hans, runState_succ hans, afterPoll_item]
    refine ⟨?_, hparams, hst', ?_, ?_⟩
    · rw [hout, List.mapIdx_cons]
      congr 1
      · rw [recordAt, haddr, Nat.mul_zero, Nat.add_zero]
      · congr 1
        funext k y
        exact recordAt_succ start k y
    · rw [hsource, afterRecord_source, ← drop_add, Nat.mul_add, Nat.add_comm 4]
    · rw [hpos, afterRecord_pos]
      omega

end Sys2Proof.Laws
end

section
/-! Runs of a whole source (44_stream_unit.md R200, R201; 92_decisions.md D10): over the bytes of a list of Instructions
with fewer than four bytes behind them, and over a source that never ends. -/

namespace Sys2Proof.Laws

open Machine

/-! The bytes of a list of Instructions (20_memory.md R32, R33). -/

/-- The bytes of the words of `xs`, one after the other. -/
def programBytes {p : Params} (xs : List (Instruction p)) : List Byte :=
  xs.flatMap fun x => wordBytes (encodeInstruction x)

/-- Behind the first `k` words stand the bytes of the others. -/
theorem drop_programBytes {p : Params} (xs : List (Instruction p)) (more : List Byte) (tail : SourceTail) {k : Nat}
    (hk : k ≤ xs.length) :
    Source.drop (4 * k) ⟨programBytes xs ++ more, tail⟩ = ⟨programBytes (xs.drop k) ++ more, tail⟩ := by
  induction xs generalizing k with
  | nil =>
    obtain rfl : k = 0 := Nat.le_zero.mp hk
    rfl
  | cons x xs ih =>
    cases k with
    | zero => rfl
    | succ k =>
      rw [Nat.mul_succ, Nat.add_comm, drop_add, List.drop_succ_cons, ← ih (Nat.le_of_succ_le_succ hk)]
      rfl

theorem wordsAhead_programBytes {p : Params} (xs : List (Instruction p)) (more : List Byte) (tail : SourceTail) :
    WordsAhead ⟨programBytes xs ++ more, tail⟩ xs := by
  intro k hk
  refine ⟨encodeInstruction xs[k], ?_, decode_encodeInstruction xs[k]⟩
  rw [drop_programBytes xs more tail hk.le, List.drop_eq_getElem_cons hk]
  exact ⟨rfl, rfl, rfl, rfl⟩

/-- What the last bytes of a source, fewer than a word, make a poll answer (R193 to R195). -/
theorem answer_leftover (p : Params) (addr : Nat) {leftover : List Byte} (hlt : leftover.length < 4) :
    ∃ n, Answer p .ready addr ⟨leftover, .ends⟩ n (leftoverOutput p leftover) := by
  cases leftover with
  | nil => exact ⟨0, .cleanEnd rfl rfl⟩
  | cons b0 more =>
    rw [leftoverOutput]
    cases hsize : sizeTableOf p (byteOpcode b0) with
    | none => exact ⟨1, .unrecognizedSize rfl rfl hsize⟩
    | some sz =>
      by_cases h32 : sz = .size32
      · subst h32
        refine ⟨(b0 :: more).length, .truncated rfl rfl hsize (Nat.succ_pos _) (by omega) (fun k hk => ?_) ?_⟩
        · rw [peek_listed _ _ k hk]
          simp
        · rw [peek_ends, List.getElem?_eq_none le_rfl]
      · exact ⟨1, by simpa only [if_neg h32] using .unsupportedSize rfl rfl hsize h32⟩

/-- The leftover yields no record. -/
theorem leftoverOutput_ne_item (p : Params) (leftover : List Byte) (rec : InstructionRecord) :
    leftoverOutput p leftover ≠ .item rec := by
  cases leftover with
  | nil => exact nofun
  | cons b0 more =>
    rw [leftoverOutput]
    split
    · exact nofun
    · split_ifs <;> exact nofun

/-- Settles O56: the records of the words, then the answer to the leftover, and behind that the run is over. -/
theorem streamYieldsTheEncodedInstructions : Obligations.StreamYieldsTheEncodedInstructions := by
  intro p start prog leftover k hlt
  obtain ⟨hout, hparams, hst, hsource, -⟩ := run_of_wordsAhead prog
    (s := State.construct p start ⟨programBytes prog ++ leftover, .ends⟩) rfl rfl rfl
    (wordsAhead_programBytes prog leftover .ends)
  change runOutputs (prog.length + 1 + k) (State.construct p start ⟨programBytes prog ++ leftover, .ends⟩) = _
  rw [Nat.add_assoc, runOutputs_add, hout]
  generalize runState prog.length _ = t at hparams hst hsource ⊢
  rw [construct_source, drop_programBytes prog leftover .ends le_rfl, List.drop_length] at hsource
  obtain ⟨n, hans⟩ := answer_leftover p t.addr hlt
  have hans' : Answer t.params t.st t.addr t.source n (leftoverOutput p leftover) := by
    rw [hparams, hst, hsource]
    exact hans
  rw [Nat.add_comm 1 k, runOutputs_succ hans',
    runOutputs_of_not_ready (afterPoll_st_ne_ready n t (leftoverOutput_ne_item p leftover))]
  rfl

/-! A source that never ends. -/

/-- A poll of a source that never ends meets no end in mid-word (92 D10). -/
theorem unexpectedEof_not_mem_of_endless {s : State} (h : Endless s.source) (n : Nat) :
    .error .unexpectedEof ∉ runOutputs n s := by
  induction n generalizing s with
  | zero => exact List.not_mem_nil
  | succ n ih =>
    obtain ⟨m, o, hans⟩ := answer_exists s
    rw [runOutputs_succ hans]
    refine List.not_mem_cons_of_ne_of_not_mem ?_ (ih (s := afterPoll m o s) (endless_drop h m))
    rintro rfl
    cases hans with
    | truncated _ _ _ _ _ _ hend => exact h m hend

/-- Over a source that never ends only a failure makes a run end (R200). -/
theorem error_mem_of_done_mem {s : State} (h : Endless s.source) (hst : s.st = .ready) {n : Nat}
    (hdone : .done ∈ runOutputs n s) : ∃ e, .error e ∈ runOutputs n s := by
  induction n generalizing s with
  | zero => exact absurd hdone List.not_mem_nil
  | succ n ih =>
    obtain ⟨m, o, hans⟩ := answer_exists s
    rw [runOutputs_succ hans] at hdone ⊢
    cases o with
    | error e => exact ⟨e, List.mem_cons_self⟩
    | item rec =>
      obtain ⟨e, he⟩ := ih (s := afterPoll m (.item rec) s) (endless_drop h m) hst (by simpa using hdone)
      exact ⟨e, List.mem_cons_of_mem _ he⟩
    | done =>
      cases hans with
      | afterEnd hne => exact absurd hst hne
      | cleanEnd _ hend => exact absurd hend (h 0)

/-- Settles O60: the first `n` words are a list of Instructions for every `n`, and no answer there meets the end. -/
theorem endlessSourcesYieldRecordsForEver : Obligations.EndlessSourcesYieldRecordsForEver := by
  intro p start src hsrc
  refine ⟨fun x hx n => ?_, unexpectedEof_not_mem_of_endless hsrc, fun n => error_mem_of_done_mem hsrc rfl⟩
  have hwords : WordsAhead src ((List.range n).map x) := fun k hk => by
    rw [List.getElem_map, List.getElem_range]
    exact hx k
  obtain ⟨hout, -, hst, -, hpos⟩ := run_of_wordsAhead ((List.range n).map x)
    (s := State.construct p start src) rfl rfl rfl hwords
  rw [List.length_map, List.length_range] at hout hst hpos
  refine ⟨hout.trans ?_, hst, hpos.trans (Nat.zero_add _)⟩
  apply List.ext_getElem
  · simp
  · intro k _ _
    simp [recordAt]

end Sys2Proof.Laws
end

section
/-! Words, their opcode and their fields (30_encoding.md R46, R55, R62; 41_opcode_classifier.md R121;
42_format_codecs.md R135; 43_union_builder.md R173; 45_lookup_interface.md R211, R220). What the accessors and the
lookup answer is read off the shape of a decoded word. -/

namespace Sys2Proof.Laws

open Machine

/-! Legal and illegal words. -/

/-- Settles O7: the three errors are those of the two tables, and a word with none of them decodes. -/
theorem wordsAreIllegalExactlyByKeyAndSize : Obligations.WordsAreIllegalExactlyByKeyAndSize := by
  intro p w
  refine ⟨fun hno => ?_, fun f hf => ?_⟩
  · exact (decode_error_iff p w _).mpr (.inl ((formatOfKey_error_iff _ _).mpr ⟨hno, rfl⟩))
  have hmapped := (formatOfKey_ok_iff _ f).mpr hf
  refine ⟨fun hsize => ?_, fun sz hsize hne => ?_, fun hsize => ?_⟩
  · exact (decode_error_iff p w _).mpr (.inr (.inl ⟨⟨f, hmapped⟩, hsize, rfl⟩))
  · exact (decode_error_iff p w _).mpr (.inr (.inr ⟨⟨f, hmapped⟩, sz, hsize, hne, rfl⟩))
  · obtain ⟨x, hx⟩ := decodeAs_total p f w ⟨wordOpcode w, hmapped, (sizeOf_ok_iff _ _ _).mpr hsize⟩
      ((variantFront_ok_iff p w f _).mpr rfl)
    obtain ⟨htag, hbits⟩ := decodeAs_ok p f w x hx
    exact ⟨x, (decode_ok_iff p w x).mpr (htag.symm ▸ hx), htag, hbits⟩

/-- The key of a raw opcode (R57). -/
theorem keyOf_raw (raw : BitVec 8) : keyOf (raw.extractLsb' 0 7) = raw.extractLsb' 2 5 := by
  revert raw
  decide

/-- Settles O9: bit 7, then the format, then the size; an Opcode is made of what the two tables say. -/
theorem classifierFollowsTheFormatAndSizeTables : Obligations.ClassifierFollowsTheFormatAndSizeTables := by
  intro p raw
  refine ⟨fun h7 => ?_, fun h7 hno => ?_, fun h7 f hf => ?_⟩
  · exact (opcodeFromRaw_error_iff p raw _).mpr (.inl ⟨h7, rfl⟩)
  all_goals
    rw [← keyOf_raw] at *
  · exact (opcodeFromRaw_error_iff p raw _).mpr (.inr (.inl ⟨h7, (formatOfKey_error_iff _ _).mpr ⟨hno, rfl⟩⟩))
  have hmapped := (formatOfKey_ok_iff _ f).mpr hf
  refine ⟨fun hsize => ?_, fun sz hsize => ?_⟩
  · exact (opcodeFromRaw_error_iff p raw _).mpr (.inr (.inr ⟨h7, ⟨f, hmapped⟩, hsize, rfl⟩))
  · exact ⟨⟨raw.extractLsb' 0 7, f, sz, hmapped, (sizeOf_ok_iff _ _ _).mpr hsize⟩,
      (opcodeFromRaw_ok_iff p raw _).mpr ⟨h7, rfl⟩, rfl, rfl, rfl⟩

/-- A decoder passes the error of its front on (R135). -/
theorem decodeAs_of_front_error {p : Params} {t : Format} {w : Word} {e : DecodeError}
    (h : variantFront p w t = .error e) : decodeAs p t w = .error e := by
  cases t
  · simp only [decodeAs, decodeR, h]
  · simp only [decodeAs, decodeI, h]
  · simp only [decodeAs, decodeS, h]
  · simp only [decodeAs, decodeB, h]
  · simp only [decodeAs, decodeU, h]
  · simp only [decodeAs, decodeJ, h]

/-- Settles O16: behind a front that accepts nothing fails, and the front tests the format last. -/
theorem decodersFailOnlyByClassification : Obligations.DecodersFailOnlyByClassification := by
  refine ⟨fun p t w e => ⟨fun h => ?_, decodeAs_of_front_error⟩, fun p t w op hop hsize hformat => ?_⟩
  · cases hfront : variantFront p w t with
    | error e' =>
      rw [decodeAs_of_front_error hfront] at h
      exact congrArg Except.error (Except.error.inj h)
    | ok v =>
      obtain ⟨x, hx⟩ := decodeAs_total p t w v hfront
      rw [hx] at h
      cases h
  · refine decodeAs_of_front_error ?_
    unfold variantFront opcodeFront
    rw [hop]
    exact (constructFront_error_iff op t _).mpr (.inr ⟨hsize, hformat, rfl⟩)

/-! The fields of a decoded word. -/

/-- Which Instruction a word decodes to: a variant of the word's opcode, with the word's own slices (R46, R48 to R55).
-/
theorem decode_shape {p : Params} {w : Word} {x : Instruction p} (h : decode p w = .ok x) :
    (∃ op, op.bits = w.extractLsb' 0 7 ∧ x = .r op (w.extractLsb' 7 5) (w.extractLsb' 12 3) (w.extractLsb' 15 5)
      (w.extractLsb' 20 5) (w.extractLsb' 25 7)) ∨
    (∃ op, op.bits = w.extractLsb' 0 7 ∧
      x = .i op (w.extractLsb' 7 5) (w.extractLsb' 12 3) (w.extractLsb' 15 5) ⟨gatherI w⟩) ∨
    (∃ op, op.bits = w.extractLsb' 0 7 ∧
      x = .s op (w.extractLsb' 12 3) (w.extractLsb' 15 5) (w.extractLsb' 20 5) ⟨gatherS w⟩) ∨
    (∃ op, op.bits = w.extractLsb' 0 7 ∧
      x = .b op (w.extractLsb' 12 3) (w.extractLsb' 15 5) (w.extractLsb' 20 5) ⟨gatherB w⟩) ∨
    (∃ op, op.bits = w.extractLsb' 0 7 ∧ x = .u op (w.extractLsb' 7 5) ⟨gatherU w⟩) ∨
    (∃ op, op.bits = w.extractLsb' 0 7 ∧ x = .j op (w.extractLsb' 7 5) ⟨gatherJ w⟩) := by
  simp only [← regFromWord_eq_slice, ← funct3FromWord_eq_slice, ← funct7FromWord_eq_slice]
  rw [decode_ok_iff] at h
  cases htag : tagOf x <;> rw [htag] at h
  case R =>
    obtain ⟨op, hop, rfl⟩ := (decodeR_ok_iff p w x).mp h
    exact .inl ⟨op, (variantFront_ok_iff p w .R op).mp hop, rfl⟩
  case I =>
    obtain ⟨op, hop, rfl⟩ := (decodeI_ok_iff p w x).mp h
    exact .inr (.inl ⟨op, (variantFront_ok_iff p w .I op).mp hop, rfl⟩)
  case S =>
    obtain ⟨op, hop, rfl⟩ := (decodeS_ok_iff p w x).mp h
    exact .inr (.inr (.inl ⟨op, (variantFront_ok_iff p w .S op).mp hop, rfl⟩))
  case B =>
    obtain ⟨op, hop, rfl⟩ := (decodeB_ok_iff p w x).mp h
    exact .inr (.inr (.inr (.inl ⟨op, (variantFront_ok_iff p w .B op).mp hop, rfl⟩)))
  case U =>
    obtain ⟨op, hop, rfl⟩ := (decodeU_ok_iff p w x).mp h
    exact .inr (.inr (.inr (.inr (.inl ⟨op, (variantFront_ok_iff p w .U op).mp hop, rfl⟩))))
  case J =>
    obtain ⟨op, hop, rfl⟩ := (decodeJ_ok_iff p w x).mp h
    exact .inr (.inr (.inr (.inr (.inr ⟨op, (variantFront_ok_iff p w .J op).mp hop, rfl⟩))))

/-- Settles O31: the accessors read the fields of the variant. -/
theorem accessorsAnswerTheFieldsOfTheWord : Obligations.AccessorsAnswerTheFieldsOfTheWord := by
  intro p w x h
  rcases decode_shape h with ⟨op, hop, rfl⟩ | ⟨op, hop, rfl⟩ | ⟨op, hop, rfl⟩ | ⟨op, hop, rfl⟩ | ⟨op, hop, rfl⟩ |
    ⟨op, hop, rfl⟩ <;> exact ⟨hop, rfl, rfl, rfl, rfl, rfl, rfl⟩

/-- Settles O34: the key reads the opcode and the functs of the variant. -/
theorem lookupKeyOfADecodedWord : Obligations.LookupKeyOfADecodedWord := by
  intro p w x h
  rcases decode_shape h with ⟨op, hop, rfl⟩ | ⟨op, hop, rfl⟩ | ⟨op, hop, rfl⟩ | ⟨op, hop, rfl⟩ | ⟨op, hop, rfl⟩ |
    ⟨op, hop, rfl⟩ <;> simp [lookupKey, tagOf, hop]

/-- Settles O36: the system lookup is asked about the word itself, which is the Instruction's word. -/
theorem presentationOfADecodedWord : Obligations.PresentationOfADecodedWord := by
  intro p w x lookup sys h
  have hword := encodeInstruction_of_decode h
  rcases decode_shape h with ⟨op, -, rfl⟩ | ⟨op, -, rfl⟩ | ⟨op, -, rfl⟩ | ⟨op, -, rfl⟩ | ⟨op, -, rfl⟩ | ⟨op, -, rfl⟩
  case inr.inl =>
    refine ⟨fun hne => absurd rfl hne, fun _ => ?_, (by cases ·), fun _ ⟨name, hname⟩ => ?_,
      fun v hv => ⟨fun _ hnone => ?_, (by cases ·), (by cases ·), by simp [tagOf]⟩⟩
    · cases hname : sys w with
      | none => simp only [mnemonic, hword, hname]
      | some name => simp only [mnemonic, hword, hname]
    · rw [operands, hword, hname]
    · obtain rfl := Option.some.inj hv
      rw [operands, hword, hnone]
      rfl
  all_goals
    simp [mnemonic, operands, immediateSigned, immediateOf, variantImmSigned, tagOf]

end Sys2Proof.Laws
end

section
/-! The rows on the machine (44_stream_unit.md R192, R197; 41_opcode_classifier.md R124 to R134; 45_lookup_interface.md
R213 to R219). Each word is put together again from its own slices, once as the word of a row and once as the word of an
Instruction; the two round trips then give what `exec` and `step` deliver. -/

namespace Sys2Proof.Laws

open Machine

/-- Settles O40: a row's term stands for what its word decodes to, and `exec` delivers that. -/
theorem everyRowYieldsItsRecordAndNothingElse : Obligations.EveryRowYieldsItsRecordAndNothingElse := by
  intro i s
  refine ⟨fun hsize => ?_, fun hsize => ?_⟩
  · obtain ⟨x, hx, hword⟩ := instructionOf_of_sized hsize
    exact ⟨x, (instructionOf_eq_decode _ i).symm.trans hx, hword, exec_ok hx⟩
  · cases herr : instructionOf s.params i with
    | error e => exact ⟨e, (instructionOf_eq_decode _ i).symm.trans herr, exec_error herr⟩
    | ok x =>
      rw [instructionOf_eq_decode] at herr
      exact absurd (wordOpcode_encode i ▸ sizeTableOf_of_decode herr) hsize

/-- A row and an Instruction that have the word ahead as their word: `exec` of the row and the step both yield the
record of the Instruction (R192). -/
theorem completes_of_word {s : State} {w : Word} {i : Instr} {x : Instruction s.params} (hst : s.st = .ready)
    (hw : NextWord s w) (hi : encode i = w) (hx : encodeInstruction x = w) :
    exec i (consumed 4 s) = .next (afterRecord x s) ∧ step s = .next (afterRecord x s) := by
  have hd : decode s.params w = .ok x := hx ▸ decode_encodeInstruction x
  refine ⟨?_, step_of_answer (.record hst hw hd)⟩
  exact exec_ok (s := consumed 4 s) ((instructionOf_eq_decode s.params i).trans (hi.symm ▸ hd))

/-- The opcode of a word of a mapped key with size `Size32`, as a variant carries it. -/
theorem variantOpcode_of_key {p : Params} {w : Word} {key : Key} {t : Format}
    (hsize : sizeTableOf p (wordOpcode w) = some .size32) (hkey : w.extractLsb' 2 5 = key)
    (hformat : formatOfKey key = .ok t) : ∃ op : VariantOpcode p t, op.bits = wordOpcode w :=
  ⟨⟨wordOpcode w, ((congrArg formatOfKey ((keyOf_wordOpcode w).trans hkey)).trans hformat),
    (sizeOf_ok_iff _ _ _).mpr hsize⟩, rfl⟩

/-- A word's opcode is its key followed by its low two bits (R57). -/
theorem key_append_low {w : Word} {key : Key} (hkey : w.extractLsb' 2 5 = key) :
    (key ++ w.extractLsb' 0 2 : BitVec 7) = wordOpcode w := by
  rw [← low_bits_wordOpcode]
  exact opcode_of_key ((keyOf_wordOpcode w).trans hkey)

/-! Each format's word from its slices (R46, R48 to R53). -/

section
variable {op : OpcodeBits} {w : Word} (h : op = wordOpcode w)
include h

theorem encodeR_slices : encodeR op (w.extractLsb' 7 5) (w.extractLsb' 12 3) (w.extractLsb' 15 5) (w.extractLsb' 20 5)
    (w.extractLsb' 25 7) = w := by
  simp only [← regFromWord_eq_slice, ← funct3FromWord_eq_slice, ← funct7FromWord_eq_slice]
  exact encodeR_of_fields op w h

theorem encodeI_slices :
    encodeI op (w.extractLsb' 7 5) (w.extractLsb' 12 3) (w.extractLsb' 15 5) ⟨w.extractLsb' 20 12⟩ = w := by
  simp only [← regFromWord_eq_slice, ← funct3FromWord_eq_slice]
  exact encodeI_of_fields op w h

theorem encodeS_slices :
    encodeS op (w.extractLsb' 12 3) (w.extractLsb' 15 5) (w.extractLsb' 20 5) ⟨gatherS w⟩ = w := by
  simp only [← regFromWord_eq_slice, ← funct3FromWord_eq_slice]
  exact encodeS_of_fields op w h

theorem encodeB_slices :
    encodeB op (w.extractLsb' 12 3) (w.extractLsb' 15 5) (w.extractLsb' 20 5) ⟨gatherB w⟩ = w := by
  simp only [← regFromWord_eq_slice, ← funct3FromWord_eq_slice]
  exact encodeB_of_fields op w h

theorem encodeU_slices : encodeU op (w.extractLsb' 7 5) ⟨gatherU w⟩ = w := by
  simp only [← regFromWord_eq_slice]
  exact encodeU_of_fields op w h

theorem encodeJ_slices : encodeJ op (w.extractLsb' 7 5) ⟨gatherJ w⟩ = w := by
  simp only [← regFromWord_eq_slice]
  exact encodeJ_of_fields op w h

end

/-- Settles O41: the three keys differ in nothing but the row. -/
theorem rFormatWordsCompleteWithTheirRecord : Obligations.RFormatWordsCompleteWithTheirRecord := by
  rintro s w hst hw hsize rd rs1 rs2 f3 f7 rfl rfl rfl rfl rfl
  refine ⟨fun hkey => ?_, fun hkey => ?_, fun hkey => ?_⟩
  all_goals
    obtain ⟨op, hop⟩ := variantOpcode_of_key (t := .R) hsize hkey (by decide)
    exact ⟨op, hop, completes_of_word hst hw (encodeR_slices (key_append_low hkey)) (encodeR_slices hop)⟩

/-- Settles O42: the four keys differ in nothing but the row. -/
theorem iFormatWordsCompleteWithTheirRecord : Obligations.IFormatWordsCompleteWithTheirRecord := by
  rintro s w hst hw hsize rd rs1 f3 imm rfl rfl rfl rfl
  refine ⟨fun hkey => ?_, fun hkey => ?_, fun hkey => ?_, fun hkey _ => ?_⟩
  all_goals
    obtain ⟨op, hop⟩ := variantOpcode_of_key (t := .I) hsize hkey (by decide)
    exact ⟨op, hop, completes_of_word hst hw (encodeI_slices (key_append_low hkey)) (encodeI_slices hop)⟩

/-- Settles O43, key by key. -/
theorem sbujFormatWordsCompleteWithTheirRecord : Obligations.SBUJFormatWordsCompleteWithTheirRecord := by
  rintro s w hst hw hsize rd rs1 rs2 f3 rfl rfl rfl rfl
  refine ⟨fun hkey => ?_, fun hkey => ?_, fun hkey => ?_, fun hkey => ?_⟩
  · obtain ⟨op, hop⟩ := variantOpcode_of_key (t := .S) hsize hkey (by decide)
    exact ⟨op, _, hop, rfl, completes_of_word hst hw (encodeS_slices (key_append_low hkey)) (encodeS_slices hop)⟩
  · obtain ⟨op, hop⟩ := variantOpcode_of_key (t := .B) hsize hkey (by decide)
    exact ⟨op, _, hop, rfl, completes_of_word hst hw (encodeB_slices (key_append_low hkey)) (encodeB_slices hop)⟩
  · obtain ⟨op, hop⟩ := variantOpcode_of_key (t := .U) hsize hkey (by decide)
    exact ⟨op, _, hop, rfl, completes_of_word hst hw (encodeU_slices (key_append_low hkey)) (encodeU_slices hop)⟩
  · obtain ⟨op, hop⟩ := variantOpcode_of_key (t := .J) hsize hkey (by decide)
    exact ⟨op, _, hop, rfl, completes_of_word hst hw (encodeJ_slices (key_append_low hkey)) (encodeJ_slices hop)⟩

/-! The six system words (45 R213 to R219). -/

/-- The opcode of the system words, where `SIZE_OF` gives it `Size32`. -/
def systemOpcode {p : Params} (h : sizeTableOf p 0x73#7 = some .size32) : VariantOpcode p .I :=
  ⟨0x73#7, by decide, (sizeOf_ok_iff _ _ _).mpr h⟩

/-- The I variant of a system word: every field but the immediate is 0. -/
def systemInstr {p : Params} (h : sizeTableOf p 0x73#7 = some .size32) (raw : BitVec 12) : Instruction p :=
  .i (systemOpcode h) 0#5 0#3 0#5 ⟨raw⟩

theorem encodeInstruction_systemInstr {p : Params} (h : sizeTableOf p 0x73#7 = some .size32) (raw : BitVec 12) :
    encodeInstruction (systemInstr h raw) = encodeI 0x73#7 0#5 0#3 0#5 ⟨raw⟩ := rfl

/-- The system words with their rows and raw immediates. -/
def systemRows : List (Word × Instr × BitVec 12) :=
  [(0x00000073#32, .ecall, 0x000#12), (0x00100073#32, .ebreak, 0x001#12), (0x10500073#32, .wfi, 0x105#12),
    (0x30200073#32, .mret, 0x302#12), (0x10200073#32, .sret, 0x102#12), (0x7B200073#32, .dret, 0x7B2#12)]

theorem systemRows_words :
    ∀ e ∈ systemRows, encode e.2.1 = e.1 ∧ encodeI 0x73#7 0#5 0#3 0#5 ⟨e.2.2⟩ = e.1 := by
  decide

/-- Settles O44: a system word is the word of its row and of its I variant, like any other word. -/
theorem systemWordsCompleteWithTheirRecord : Obligations.SystemWordsCompleteWithTheirRecord := by
  intro s w i raw hst hsize hw hmem
  obtain ⟨hi, hx⟩ := systemRows_words (w, i, raw) hmem
  exact ⟨systemOpcode hsize, rfl, completes_of_word hst hw hi ((encodeInstruction_systemInstr hsize raw).trans hx)⟩

/-- The system words with their names, raw immediates and signed immediates (R214 to R219). -/
def namedSystemWords : List (Word × String × BitVec 12 × Int) :=
  [(0x00000073#32, "ecall", 0x000#12, 0), (0x00100073#32, "ebreak", 0x001#12, 1),
    (0x10500073#32, "wfi", 0x105#12, 261), (0x30200073#32, "mret", 0x302#12, 770),
    (0x10200073#32, "sret", 0x102#12, 258), (0x7B200073#32, "dret", 0x7B2#12, 1970)]

theorem namedSystemWords_words :
    ∀ e ∈ namedSystemWords, encodeI 0x73#7 0#5 0#3 0#5 ⟨e.2.2.1⟩ = e.1 ∧ sysLookup e.1 = some e.2.1 ∧
      immToSigned (⟨e.2.2.1⟩ : Imm0to11) = e.2.2.2 := by
  decide

/-- Settles O35: the word is that of the I variant, so it decodes to it, and the name is asked about the word. -/
theorem systemWordsDecodeAndAreNamed : Obligations.SystemWordsDecodeAndAreNamed := by
  intro p hsize w name raw v hmem
  obtain ⟨hx, hname, hv⟩ := namedSystemWords_words (w, name, raw, v) hmem
  have hword : encodeInstruction (systemInstr hsize raw) = w := (encodeInstruction_systemInstr hsize raw).trans hx
  refine ⟨systemOpcode hsize, systemInstr hsize raw, rfl, hword ▸ decode_encodeInstruction _, rfl, congrArg some hv,
    hname, ?_⟩
  change (match sysLookup (encodeInstruction (systemInstr hsize raw)) with | some _ => [] | none => _) = _
  rw [hword, hname]

/-- A word of a system row that decodes, decodes to that row (log 14). -/
theorem row_of_systemRow {p : Params} {w : Word} {i j : Instr} (hi : decodeWord p w = .ok i)
    (hj : systemRow w = some j) : i = j := by
  have hword := encode_of_systemRow hj
  obtain ⟨x, hx, -⟩ := (decodeWord_ok_iff p w i).mp hi
  have hsize : sizeTableOf p (rowBits j) = some .size32 := by
    rw [← wordOpcode_encode, hword]
    exact sizeTableOf_of_decode hx
  have hj' := decodeOfEncodeIsTheInstruction p j ((wellFormed_iff p j).mpr ⟨hsize, notSystemWord_of_systemRow hj⟩)
  rw [hword, hi] at hj'
  exact Except.ok.inj hj'

/-- `SYS_LOOKUP` names exactly the listed words (R213). -/
theorem sysLookup_eq_some_iff (w : Word) (name : String) : sysLookup w = some name ↔ (w, name) ∈ systemWords := by
  constructor
  · intro h
    unfold sysLookup at h
    split_ifs at h with h1 h2 h3 h4 h5 h6 <;> cases h <;> simp [systemWords, *]
  · have hlist : ∀ e ∈ systemWords, sysLookup e.1 = some e.2 := by decide
    exact hlist (w, name)

/-- The terms of the six system rows. -/
def systemTerms : List Instr := [.ecall, .ebreak, .wfi, .mret, .sret, .dret]

theorem systemRow_of_systemWords : ∀ e ∈ systemWords, ∃ j ∈ systemTerms, systemRow e.1 = some j := by
  decide

theorem sysLookup_encode_systemTerms : ∀ j ∈ systemTerms, (sysLookup (encode j)).isSome = true := by
  decide

/-- Settles O37: a named word has a system row, which is the row it decodes to; a system row's word has a name. -/
theorem systemLookupMatchesWholeWords : Obligations.SystemLookupMatchesWholeWords := by
  refine ⟨sysLookup_eq_some_iff, fun p w i hi => ⟨fun h => ?_, fun hmem => ?_⟩⟩
  · obtain ⟨name, hname⟩ := Option.isSome_iff_exists.mp h
    obtain ⟨j, hmem, hj⟩ := systemRow_of_systemWords (w, name) ((sysLookup_eq_some_iff w name).mp hname)
    exact row_of_systemRow hi hj ▸ hmem
  · rw [← (encodeOfDecodeIsTheWord p w i hi).1]
    exact sysLookup_encode_systemTerms i hmem

end Sys2Proof.Laws
end

section
/-! Immediates (40_primitives.md R98 to R104; 30_encoding.md R54). The signed value of a pattern is its `sext_W(raw)`
times `2 ^ START`; the bounds of R98 are those of `sext_W`, scaled, so `ImmFromSigned` is the way back. -/

namespace Sys2Proof.Laws

open Machine

/-! The immediate operations, case by case (R99, R102). -/

section
variable {start width : Nat} {v : Int}

theorem immFromSigned_of_range (h : v < immMin start width ∨ immMax start width < v) :
    immFromSigned start width v = .error (.immediateOutOfRange (immMin start width) (immMax start width)) :=
  if_pos h

theorem immFromSigned_of_lowBits (hlo : immMin start width ≤ v) (hhi : v ≤ immMax start width)
    (h : v % 2 ^ start ≠ 0) : immFromSigned start width v = .error (.immediateBitsBeforeStart start) := by
  have hpos : 0 < start := Nat.pos_of_ne_zero fun h0 => h (by simp [h0])
  exact (if_neg (by omega)).trans (if_pos ⟨hpos, h⟩)

/-- What `ImmFromSigned` accepts, and as what (R99). -/
theorem immFromSigned_ok_iff (imm : Immediate start width) :
    immFromSigned start width v = .ok imm ↔
      immMin start width ≤ v ∧ v ≤ immMax start width ∧ v % 2 ^ start = 0 ∧
        imm = ⟨BitVec.ofInt width (v / 2 ^ start)⟩ := by
  by_cases hrange : v < immMin start width ∨ immMax start width < v
  · rw [immFromSigned_of_range hrange]
    exact ⟨nofun, fun ⟨hlo, hhi, _⟩ => by omega⟩
  by_cases hlow : v % 2 ^ start = 0
  · have hshift : v >>> start = v / 2 ^ start := by rw [Int.shiftRight_eq_div_pow, Nat.cast_pow, Nat.cast_ofNat]
    have hok : immFromSigned start width v = .ok ⟨BitVec.ofInt width (v / 2 ^ start)⟩ := by
      rw [← hshift]
      exact (if_neg hrange).trans (if_neg fun h => h.2 hlow)
    rw [hok]
    constructor
    · intro h
      exact ⟨by omega, by omega, hlow, (Except.ok.inj h).symm⟩
    · rintro ⟨-, -, -, rfl⟩
      rfl
  · rw [immFromSigned_of_lowBits (by omega) (by omega) hlow]
    exact ⟨nofun, fun ⟨_, _, hzero, _⟩ => absurd hzero hlow⟩

/-- The two errors of `ImmFromSigned` (R99). -/
theorem immFromSigned_error_cases {e : DecodeError} (h : immFromSigned start width v = .error e) :
    (∃ lo hi, e = .immediateOutOfRange lo hi) ∨ ∃ k, e = .immediateBitsBeforeStart k := by
  unfold immFromSigned at h
  split_ifs at h <;> cases h
  · exact .inl ⟨_, _, rfl⟩
  · exact .inr ⟨_, rfl⟩

end

/-! The signed value (R54, R100). -/

section
variable {start width : Nat} (hw : 0 < width) (hend : start + width ≤ 32)
include hw

/-- The bounds are those of a `W`-bit number, scaled by `2 ^ START` (R98). -/
theorem two_pow_immEnd : (2 : Int) ^ immEnd start width = 2 ^ (width - 1) * 2 ^ start := by
  rw [← pow_add]
  congr 1
  unfold immEnd
  omega

/-- A value in range is a multiple of `2 ^ START` that fits `W` bits once the low bits are taken off (R99, R103). -/
theorem toInt_ofInt_div {v : Int} (hlo : immMin start width ≤ v) (hhi : v ≤ immMax start width)
    (hlow : v % 2 ^ start = 0) : (BitVec.ofInt width (v / 2 ^ start)).toInt * 2 ^ start = v := by
  have hpos : (0 : Int) < 2 ^ start := by positivity
  obtain ⟨q, rfl⟩ := Int.dvd_of_emod_eq_zero hlow
  rw [immMin, two_pow_immEnd hw] at hlo
  rw [immMax, two_pow_immEnd hw] at hhi
  have hq1 : -2 ^ (width - 1) ≤ q := by nlinarith
  have hq2 : q < 2 ^ (width - 1) := by nlinarith
  rw [Int.mul_ediv_cancel_left _ hpos.ne', BitVec.toInt_ofInt_eq_self hw hq1 hq2, mul_comm]

include hend

/-- The signed value is `sext_W(raw) << START` (R54). -/
theorem immToSigned_eq_mul (imm : Immediate start width) : immToSigned imm = imm.raw.toInt * 2 ^ start := by
  have htop : immEnd start width + 1 = width + start := by
    unfold immEnd
    omega
  rw [immToSigned_eq_conceptualImm imm (by omega), conceptualImm, htop, BitVec.toInt_signExtend_of_le (by omega),
    BitVec.setWidth_shiftLeft_of_le (by omega), BitVec.setWidth_setWidth_of_le _ (by omega),
    ← BitVec.shiftLeftZeroExtend_eq, BitVec.toInt_shiftLeftZeroExtend]

theorem immToSigned_bounds (imm : Immediate start width) :
    immMin start width ≤ immToSigned imm ∧ immToSigned imm ≤ immMax start width := by
  have hpos : (0 : Int) < 2 ^ start := by positivity
  have hlo := BitVec.le_toInt imm.raw
  have hhi := BitVec.toInt_lt (x := imm.raw)
  rw [immMin, immMax, two_pow_immEnd hw, immToSigned_eq_mul hw hend]
  constructor <;> nlinarith

theorem immToSigned_low (imm : Immediate start width) : immToSigned imm % 2 ^ start = 0 := by
  rw [immToSigned_eq_mul hw hend, Int.mul_emod_left]

/-- `ImmFromSigned` gives a pattern back from its signed value (R104 (d)). -/
theorem immFromSigned_immToSigned (imm : Immediate start width) :
    immFromSigned start width (immToSigned imm) = .ok imm := by
  obtain ⟨hlo, hhi⟩ := immToSigned_bounds hw hend imm
  refine (immFromSigned_ok_iff imm).mpr ⟨hlo, hhi, immToSigned_low hw hend imm, ?_⟩
  rw [immToSigned_eq_mul hw hend, Int.mul_ediv_cancel _ (by positivity), BitVec.ofInt_toInt]

end

/-! The types `Immediate[START,END]` of R22, whose width is `END - START + 1`. -/

section
variable {START END : Nat} (h : START ≤ END)
include h

theorem immMin_of_le : immMin START (END - START + 1) = -(2 ^ END) := by
  rw [immMin, immEnd, show START + (END - START + 1) - 1 = END by omega]

theorem immMax_of_le : immMax START (END - START + 1) = 2 ^ END - 2 ^ START := by
  rw [immMax, immEnd, show START + (END - START + 1) - 1 = END by omega]

end

/-- Settles O24: the scaled value, its bounds and its low bits. -/
theorem signedValueOfAnImmediate : Obligations.SignedValueOfAnImmediate := by
  intro START END hle hlt imm
  have hw : 0 < END - START + 1 := Nat.succ_pos _
  have hend : START + (END - START + 1) ≤ 32 := by omega
  rw [← immMin_of_le hle, ← immMax_of_le hle]
  obtain ⟨hlo, hhi⟩ := immToSigned_bounds hw hend imm
  exact ⟨immToSigned_eq_mul hw hend imm, hlo, hhi, immToSigned_low hw hend imm⟩

/-- Settles O23, law by law. -/
theorem immediateLaws : Obligations.ImmediateLaws := by
  intro START END hle hlt
  have hw : 0 < END - START + 1 := Nat.succ_pos _
  have hend : START + (END - START + 1) ≤ 32 := by omega
  rw [← immMin_of_le hle, ← immMax_of_le hle]
  refine ⟨fun v hlow hlo hhi => ?_, fun v hlow hlo hhi => immFromSigned_of_lowBits hlo hhi hlow,
    fun v _ hrange => immFromSigned_of_range hrange, fun v _ hrange => .inl (immFromSigned_of_range hrange),
    fun v imm hok => ?_, fun r => ?_⟩
  · exact ⟨_, (immFromSigned_ok_iff _).mpr ⟨hlo, hhi, hlow, rfl⟩,
      (immToSigned_eq_mul hw hend _).trans (toInt_ofInt_div hw hlo hhi hlow)⟩
  · obtain ⟨hlo, hhi, hlow, rfl⟩ := (immFromSigned_ok_iff imm).mp hok
    exact ⟨toInt_ofInt_div hw hlo hhi hlow, BitVec.ofInt_toInt⟩
  · exact ⟨immFromRawBits_of_field START r (by omega), rfl, immFromSigned_immToSigned hw hend ⟨r⟩⟩

/-- Settles O25: a pattern that fits is not changed by the narrowing. -/
theorem rawBitsAreAcceptedExactlyWhenTheyFit : Obligations.RawBitsAreAcceptedExactlyWhenTheyFit := by
  intro START END hle hlt bits
  refine ⟨fun hfit => ?_, fun hwide => ?_⟩
  · have hraw : (bits.setWidth (END - START + 1)).toNat = bits.toNat := by
      rw [BitVec.toNat_setWidth, Nat.mod_eq_of_lt hfit]
    refine ⟨⟨bits.setWidth _⟩, if_neg (not_le.mpr hfit), BitVec.eq_of_toNat_eq ?_, hraw⟩
    rw [immToRawBits, BitVec.toNat_setWidth_of_le (by omega), hraw]
  · rw [← immMin_of_le hle, ← immMax_of_le hle]
    exact if_pos hwide

end Sys2Proof.Laws
end

section
/-! The six constructors (42_format_codecs.md R152 to R157): what they accept, and every error they answer. -/

namespace Sys2Proof.Laws

open Machine

/-- A constructor's opcode and immediate: what `ConstructFront` and `ImmFromSigned` accept together, with the bounds
of the immediate's type written out. -/
theorem front_and_immediate_ok_iff {p : Params} (op : Opcode p) (t : Format) (start width : Nat) {lo hi : Int}
    (hlo : immMin start width = lo) (hhi : immMax start width = hi) (n : Int)
    (mk : VariantOpcode p t → Immediate start width → Instruction p) (x : Instruction p) :
    (∃ vop imm, constructFront op t = .ok vop ∧ immFromSigned start width n = .ok imm ∧ x = mk vop imm) ↔
      op.size = .size32 ∧ op.format = t ∧ lo ≤ n ∧ n ≤ hi ∧ n % 2 ^ start = 0 ∧
        ∃ v : VariantOpcode p t, v.bits = op.bits ∧ x = mk v ⟨BitVec.ofInt width (n / 2 ^ start)⟩ := by
  subst hlo hhi
  constructor
  · rintro ⟨vop, imm, hfront, himm, rfl⟩
    obtain ⟨hsize, hformat, hbits⟩ := (constructFront_ok_iff op t vop).mp hfront
    obtain ⟨hmin, hmax, hlow, rfl⟩ := (immFromSigned_ok_iff imm).mp himm
    exact ⟨hsize, hformat, hmin, hmax, hlow, vop, hbits, rfl⟩
  · rintro ⟨hsize, hformat, hmin, hmax, hlow, vop, hbits, rfl⟩
    exact ⟨vop, _, (constructFront_ok_iff op t vop).mpr ⟨hsize, hformat, hbits⟩,
      (immFromSigned_ok_iff _).mpr ⟨hmin, hmax, hlow, rfl⟩, rfl⟩

/-! Errors of a constructor are those of its front and of its immediate. -/

section
variable {p : Params} {op : Opcode p} {rd : Register} {f3 : Funct3} {rs1 rs2 : Register} {f7 : Funct7} {v : Int}
  {e : DecodeError}

theorem makeR_of_front_error (h : constructFront op .R = .error e) : makeR op rd f3 rs1 rs2 f7 = .error e := by
  simp only [makeR, h]

theorem makeI_of_front_error (h : constructFront op .I = .error e) : makeI op rd f3 rs1 v = .error e := by
  simp only [makeI, h]

theorem makeS_of_front_error (h : constructFront op .S = .error e) : makeS op f3 rs1 rs2 v = .error e := by
  simp only [makeS, h]

theorem makeB_of_front_error (h : constructFront op .B = .error e) : makeB op f3 rs1 rs2 v = .error e := by
  simp only [makeB, h]

theorem makeU_of_front_error (h : constructFront op .U = .error e) : makeU op rd v = .error e := by
  simp only [makeU, h]

theorem makeJ_of_front_error (h : constructFront op .J = .error e) : makeJ op rd v = .error e := by
  simp only [makeJ, h]

theorem makeI_of_imm_error {vop} (h : constructFront op .I = .ok vop) (hi : immFromSigned 0 12 v = .error e) :
    makeI op rd f3 rs1 v = .error e := by
  simp only [makeI, h, hi]

theorem makeS_of_imm_error {vop} (h : constructFront op .S = .ok vop) (hi : immFromSigned 0 12 v = .error e) :
    makeS op f3 rs1 rs2 v = .error e := by
  simp only [makeS, h, hi]

theorem makeB_of_imm_error {vop} (h : constructFront op .B = .ok vop) (hi : immFromSigned 1 12 v = .error e) :
    makeB op f3 rs1 rs2 v = .error e := by
  simp only [makeB, h, hi]

theorem makeU_of_imm_error {vop} (h : constructFront op .U = .ok vop) (hi : immFromSigned 12 20 v = .error e) :
    makeU op rd v = .error e := by
  simp only [makeU, h, hi]

theorem makeJ_of_imm_error {vop} (h : constructFront op .J = .ok vop) (hi : immFromSigned 1 20 v = .error e) :
    makeJ op rd v = .error e := by
  simp only [makeJ, h, hi]

end

/-- Settles O26: each constructor is its front and its immediate, whose bounds and low bits are those of its type. -/
theorem constructorsAcceptExactlyTheLegalOperands : Obligations.ConstructorsAcceptExactlyTheLegalOperands := by
  refine ⟨fun p op rd f3 rs1 rs2 f7 x => ?_, fun p op rd f3 rs1 n x => ?_, fun p op f3 rs1 rs2 n x => ?_,
    fun p op f3 rs1 rs2 n x => ?_, fun p op rd n x => ?_, fun p op rd n x => ?_,
    fun p op rd rs1 rs2 f3 f7 n => ⟨?_, ?_, ?_, ?_, ?_, ?_, ?_, ?_, ?_, ?_, ?_⟩⟩
  · simp only [makeR_ok_iff, constructFront_ok_iff]
    exact ⟨fun ⟨v, ⟨hsize, hformat, hbits⟩, hx⟩ => ⟨hsize, hformat, v, hbits, hx⟩,
      fun ⟨hsize, hformat, v, hbits, hx⟩ => ⟨v, ⟨hsize, hformat, hbits⟩, hx⟩⟩
  · rw [makeI_ok_iff]
    simpa using front_and_immediate_ok_iff op .I 0 12 (by decide) (by decide) n (.i · rd f3 rs1 ·) x
  · rw [makeS_ok_iff]
    simpa using front_and_immediate_ok_iff op .S 0 12 (by decide) (by decide) n (.s · f3 rs1 rs2 ·) x
  · rw [makeB_ok_iff]
    exact front_and_immediate_ok_iff op .B 1 12 (by decide) (by decide) n (.b · f3 rs1 rs2 ·) x
  · rw [makeU_ok_iff]
    exact front_and_immediate_ok_iff op .U 12 20 (by decide) (by decide) n (.u · rd ·) x
  · rw [makeJ_ok_iff]
    exact front_and_immediate_ok_iff op .J 1 20 (by decide) (by decide) n (.j · rd ·) x
  · exact opcodeErrors_of_front op .R _ fun _ => makeR_of_front_error
  · exact opcodeErrors_of_front op .I _ fun _ => makeI_of_front_error
  · exact opcodeErrors_of_front op .S _ fun _ => makeS_of_front_error
  · exact opcodeErrors_of_front op .B _ fun _ => makeB_of_front_error
  · exact opcodeErrors_of_front op .U _ fun _ => makeU_of_front_error
  · exact opcodeErrors_of_front op .J _ fun _ => makeJ_of_front_error
  · exact immediateErrors_of_front op .I 0 12 _ _ (by decide) (by decide) n _ fun _ _ => makeI_of_imm_error
  · exact immediateErrors_of_front op .S 0 12 _ _ (by decide) (by decide) n _ fun _ _ => makeS_of_imm_error
  · exact immediateErrors_of_front op .B 1 12 _ _ (by decide) (by decide) n _ fun _ _ => makeB_of_imm_error
  · exact immediateErrors_of_front op .U 12 20 _ _ (by decide) (by decide) n _ fun _ _ => makeU_of_imm_error
  · exact immediateErrors_of_front op .J 1 20 _ _ (by decide) (by decide) n _ fun _ _ => makeJ_of_imm_error

/-- The errors of a constructor of format `t` with the opcode `op` (R137, R152 to R157). -/
def ConstructorError {p : Params} (op : Opcode p) (t : Format) (e : DecodeError) : Prop :=
  (∃ sz, e = .unsupportedInstructionSize sz) ∨ (op.format ≠ t ∧ e = .unexpectedFormat op.format) ∨
    (∃ lo hi, e = .immediateOutOfRange lo hi) ∨ ∃ k, e = .immediateBitsBeforeStart k

theorem constructorError_of_front {p : Params} {op : Opcode p} {t : Format} {e : DecodeError}
    (h : constructFront op t = .error e) : ConstructorError op t e := by
  rcases (constructFront_error_iff op t e).mp h with ⟨-, rfl⟩ | ⟨-, hformat, rfl⟩
  · exact .inl ⟨_, rfl⟩
  · exact .inr (.inl ⟨hformat, rfl⟩)

theorem constructorError_of_imm {p : Params} (op : Opcode p) (t : Format) {start width : Nat} {v : Int}
    {e : DecodeError} (h : immFromSigned start width v = .error e) : ConstructorError op t e :=
  .inr (.inr (immFromSigned_error_cases h))

/-- A constructor that fails exactly where its front fails. -/
theorem constructorError_of_makeR {p : Params} {op : Opcode p} {rd : Register} {f3 : Funct3} {rs1 rs2 : Register}
    {f7 : Funct7} {e : DecodeError} (h : makeR op rd f3 rs1 rs2 f7 = .error e) : ConstructorError op .R e := by
  cases hfront : constructFront op .R with
  | error e' =>
    rw [makeR_of_front_error hfront] at h
    exact Except.error.inj h ▸ constructorError_of_front hfront
  | ok vop =>
    rw [(makeR_ok_iff ..).mpr ⟨vop, hfront, rfl⟩] at h
    cases h

/-- A constructor that passes on the errors of its front and of its immediate, and has no other. -/
theorem constructorError_of_imm_constructor {p : Params} {op : Opcode p} {t : Format} {start width : Nat} {v : Int}
    {r : Except DecodeError (Instruction p)} {e : DecodeError} (hr : r = .error e)
    (hfront : ∀ e, constructFront op t = .error e → r = .error e)
    (himm : ∀ vop e, constructFront op t = .ok vop → immFromSigned start width v = .error e → r = .error e)
    (hok : ∀ vop imm, constructFront op t = .ok vop → immFromSigned start width v = .ok imm → ∃ x, r = .ok x) :
    ConstructorError op t e := by
  cases hf : constructFront op t with
  | error e' =>
    rw [hfront e' hf] at hr
    exact Except.error.inj hr ▸ constructorError_of_front hf
  | ok vop =>
    cases hi : immFromSigned start width v with
    | error e' =>
      rw [himm vop e' hf hi] at hr
      exact Except.error.inj hr ▸ constructorError_of_imm op t hi
    | ok imm =>
      obtain ⟨x, hx⟩ := hok vop imm hf hi
      rw [hx] at hr
      cases hr

section
variable {p : Params} {op : Opcode p} {rd : Register} {f3 : Funct3} {rs1 rs2 : Register} {v : Int} {e : DecodeError}

theorem constructorError_of_makeI (h : makeI op rd f3 rs1 v = .error e) : ConstructorError op .I e :=
  constructorError_of_imm_constructor h (fun _ => makeI_of_front_error) (fun _ _ => makeI_of_imm_error)
    fun vop imm hf hi => ⟨_, (makeI_ok_iff ..).mpr ⟨vop, imm, hf, hi, rfl⟩⟩

theorem constructorError_of_makeS (h : makeS op f3 rs1 rs2 v = .error e) : ConstructorError op .S e :=
  constructorError_of_imm_constructor h (fun _ => makeS_of_front_error) (fun _ _ => makeS_of_imm_error)
    fun vop imm hf hi => ⟨_, (makeS_ok_iff ..).mpr ⟨vop, imm, hf, hi, rfl⟩⟩

theorem constructorError_of_makeB (h : makeB op f3 rs1 rs2 v = .error e) : ConstructorError op .B e :=
  constructorError_of_imm_constructor h (fun _ => makeB_of_front_error) (fun _ _ => makeB_of_imm_error)
    fun vop imm hf hi => ⟨_, (makeB_ok_iff ..).mpr ⟨vop, imm, hf, hi, rfl⟩⟩

theorem constructorError_of_makeU (h : makeU op rd v = .error e) : ConstructorError op .U e :=
  constructorError_of_imm_constructor h (fun _ => makeU_of_front_error) (fun _ _ => makeU_of_imm_error)
    fun vop imm hf hi => ⟨_, (makeU_ok_iff ..).mpr ⟨vop, imm, hf, hi, rfl⟩⟩

theorem constructorError_of_makeJ (h : makeJ op rd v = .error e) : ConstructorError op .J e :=
  constructorError_of_imm_constructor h (fun _ => makeJ_of_front_error) (fun _ _ => makeJ_of_imm_error)
    fun vop imm hf hi => ⟨_, (makeJ_ok_iff ..).mpr ⟨vop, imm, hf, hi, rfl⟩⟩

end

end Sys2Proof.Laws
end

section
/-! The builder (43_union_builder.md R175 to R179): the opcode, then the required fields one by one, then the
constructor of the opcode's format. `Build` undoes the accessors, so an Instruction is determined by what they answer,
and with it by its hardware bundle (10_state.md R23). -/

namespace Sys2Proof.Laws

open Machine

/-! One required field (R177). -/

/-- The first missing field is named: this one, or the first of the others. -/
theorem need_bind_missing {p : Params} {b : BuildInput p} {α β : Type} {field : BuilderField} {v : Option α}
    {k : α → Except DecodeError β} {fields : List BuilderField} {f : BuilderField}
    (hv : fieldPresent b field = v.isSome)
    (hfirst : (field :: fields).find? (fun f => !fieldPresent b f) = some f)
    (hk : ∀ a, v = some a → fields.find? (fun f => !fieldPresent b f) = some f →
      k a = .error (.builderMissingField f)) : (need field v >>= k) = .error (.builderMissingField f) := by
  rw [List.find?_cons, hv] at hfirst
  cases v with
  | none =>
    obtain rfl := Option.some.inj hfirst
    rfl
  | some a => exact hk a rfl hfirst

theorem need_some_bind {α β : Type} (field : BuilderField) (a : α) (k : α → Except DecodeError β) :
    (need field (some a) >>= k) = k a := rfl

/-- A chain of required fields that succeeds had each of them. -/
theorem need_bind_ok {α β : Type} {field : BuilderField} {v : Option α} {k : α → Except DecodeError β} {x : β}
    (h : (need field v >>= k) = .ok x) : ∃ a, v = some a ∧ k a = .ok x := by
  cases v with
  | none => cases h
  | some a => exact ⟨a, rfl, h⟩

/-! A builder with an opcode, format by format. -/

/-- The first required field that is missing is named (R177). -/
theorem build_of_missing {p : Params} {b : BuildInput p} {op : Opcode p} {f : BuilderField} (hop : b.opcode = some op)
    (hfirst : (requiredFields op.format).find? (fun f => !fieldPresent b f) = some f) :
    build b = .error (.builderMissingField f) := by
  obtain ⟨bits, t, sz, hmapped, hsized⟩ := op
  rw [build, hop, need_some_bind]
  cases t with
  | R =>
    exact need_bind_missing rfl hfirst fun _ _ h => need_bind_missing rfl h fun _ _ h => need_bind_missing rfl h
      fun _ _ h => need_bind_missing rfl h fun _ _ h => need_bind_missing rfl h fun _ _ h => nomatch h
  | I | S | B =>
    exact need_bind_missing rfl hfirst fun _ _ h => need_bind_missing rfl h fun _ _ h => need_bind_missing rfl h
      fun _ _ h => need_bind_missing rfl h fun _ _ h => nomatch h
  | U | J => exact need_bind_missing rfl hfirst fun _ _ h => need_bind_missing rfl h fun _ _ h => nomatch h

section
variable {p : Params} {b : BuildInput p} {op : Opcode p} {rd : Register} {f3 : Funct3} {rs1 rs2 : Register}
  {f7 : Funct7} {n : Int} (hop : b.opcode = some op)
include hop

theorem build_R (hf3 : b.funct3 = some f3) (hf7 : b.funct7 = some f7) (hrs1 : b.rs1 = some rs1)
    (hrs2 : b.rs2 = some rs2) (hrd : b.rd = some rd) (h : op.format = .R) :
    build b = makeR op rd f3 rs1 rs2 f7 := by
  simp only [build, hop, need_some_bind, h, hf3, hf7, hrs1, hrs2, hrd]

theorem build_I (hf3 : b.funct3 = some f3) (hrs1 : b.rs1 = some rs1) (hrd : b.rd = some rd) (hn : b.imm = some n)
    (h : op.format = .I) : build b = makeI op rd f3 rs1 n := by
  simp only [build, hop, need_some_bind, h, hf3, hrs1, hrd, hn]

theorem build_S (hf3 : b.funct3 = some f3) (hrs1 : b.rs1 = some rs1) (hrs2 : b.rs2 = some rs2) (hn : b.imm = some n)
    (h : op.format = .S) : build b = makeS op f3 rs1 rs2 n := by
  simp only [build, hop, need_some_bind, h, hf3, hrs1, hrs2, hn]

theorem build_B (hf3 : b.funct3 = some f3) (hrs1 : b.rs1 = some rs1) (hrs2 : b.rs2 = some rs2) (hn : b.imm = some n)
    (h : op.format = .B) : build b = makeB op f3 rs1 rs2 n := by
  simp only [build, hop, need_some_bind, h, hf3, hrs1, hrs2, hn]

theorem build_U (hrd : b.rd = some rd) (hn : b.imm = some n) (h : op.format = .U) : build b = makeU op rd n := by
  simp only [build, hop, need_some_bind, h, hrd, hn]

theorem build_J (hrd : b.rd = some rd) (hn : b.imm = some n) (h : op.format = .J) : build b = makeJ op rd n := by
  simp only [build, hop, need_some_bind, h, hrd, hn]

end

/-- With every required field present, the errors of `Build` are those of the opcode's own constructor. -/
theorem constructorError_of_build {p : Params} {b : BuildInput p} {op : Opcode p} {e : DecodeError}
    (hop : b.opcode = some op) (hall : ∀ f ∈ requiredFields op.format, fieldPresent b f = true)
    (h : build b = .error e) : ConstructorError op op.format e := by
  cases hf : op.format <;>
    simp only [hf, requiredFields, List.forall_mem_cons, fieldPresent, Option.isSome_iff_exists] at hall
  case R =>
    obtain ⟨⟨f3, hf3⟩, ⟨f7, hf7⟩, ⟨rs1, hrs1⟩, ⟨rs2, hrs2⟩, ⟨rd, hrd⟩, -⟩ := hall
    exact constructorError_of_makeR ((build_R hop hf3 hf7 hrs1 hrs2 hrd hf).symm.trans h)
  case I =>
    obtain ⟨⟨f3, hf3⟩, ⟨rs1, hrs1⟩, ⟨rd, hrd⟩, ⟨n, hn⟩, -⟩ := hall
    exact constructorError_of_makeI ((build_I hop hf3 hrs1 hrd hn hf).symm.trans h)
  case S =>
    obtain ⟨⟨f3, hf3⟩, ⟨rs1, hrs1⟩, ⟨rs2, hrs2⟩, ⟨n, hn⟩, -⟩ := hall
    exact constructorError_of_makeS ((build_S hop hf3 hrs1 hrs2 hn hf).symm.trans h)
  case B =>
    obtain ⟨⟨f3, hf3⟩, ⟨rs1, hrs1⟩, ⟨rs2, hrs2⟩, ⟨n, hn⟩, -⟩ := hall
    exact constructorError_of_makeB ((build_B hop hf3 hrs1 hrs2 hn hf).symm.trans h)
  case U =>
    obtain ⟨⟨rd, hrd⟩, ⟨n, hn⟩, -⟩ := hall
    exact constructorError_of_makeU ((build_U hop hrd hn hf).symm.trans h)
  case J =>
    obtain ⟨⟨rd, hrd⟩, ⟨n, hn⟩, -⟩ := hall
    exact constructorError_of_makeJ ((build_J hop hrd hn hf).symm.trans h)

theorem build_of_no_opcode {p : Params} {b : BuildInput p} (h : b.opcode = none) :
    build b = .error (.builderMissingField .opcode) := by
  unfold build
  rw [h]
  rfl

/-- Settles O27: the opcode, the first missing field, or the constructor of the opcode's format. -/
theorem builderNamesAMissingRequiredField : Obligations.BuilderNamesAMissingRequiredField := by
  refine ⟨fun _ _ => build_of_no_opcode, fun p b op hop => ⟨fun f => build_of_missing hop, fun hall e he => ?_⟩,
    fun p b op rd rs1 rs2 f3 f7 n => ⟨build_R rfl rfl rfl rfl rfl rfl, build_I rfl rfl rfl rfl rfl,
      build_S rfl rfl rfl rfl rfl, build_B rfl rfl rfl rfl rfl, build_U rfl rfl rfl, build_J rfl rfl rfl⟩⟩
  rcases constructorError_of_build hop hall he with ⟨sz, rfl⟩ | ⟨hne, -⟩ | ⟨lo, hi, rfl⟩ | ⟨k, rfl⟩
  · exact ⟨nofun, nofun⟩
  · exact absurd rfl hne
  · exact ⟨nofun, nofun⟩
  · exact ⟨nofun, nofun⟩

/-- An Instruction's own opcode passes the front of its constructor (R137). -/
theorem constructFront_variantOpcode {p : Params} {t : Format} (op : VariantOpcode p t) :
    constructFront (variantOpcode op) t = .ok op :=
  (constructFront_ok_iff _ _ _).mpr ⟨rfl, rfl, rfl⟩

/-- Settles O30: the accessors give the fields, and the signed immediate gives its pattern back. -/
theorem builderRebuildsAnInstructionFromItsFields : Obligations.BuilderRebuildsAnInstructionFromItsFields := by
  intro p x
  cases x with
  | r op rd f3 rs1 rs2 f7 =>
    rw [build_R rfl rfl rfl rfl rfl rfl rfl]
    exact (makeR_ok_iff ..).mpr ⟨op, constructFront_variantOpcode op, rfl⟩
  | i op rd f3 rs1 imm =>
    rw [build_I (n := immToSigned imm) rfl rfl rfl rfl rfl rfl]
    exact (makeI_ok_iff ..).mpr ⟨op, imm, constructFront_variantOpcode op,
      immFromSigned_immToSigned (by norm_num) (by norm_num) imm, rfl⟩
  | s op f3 rs1 rs2 imm =>
    rw [build_S (n := immToSigned imm) rfl rfl rfl rfl rfl rfl]
    exact (makeS_ok_iff ..).mpr ⟨op, imm, constructFront_variantOpcode op,
      immFromSigned_immToSigned (by norm_num) (by norm_num) imm, rfl⟩
  | b op f3 rs1 rs2 imm =>
    rw [build_B (n := immToSigned imm) rfl rfl rfl rfl rfl rfl]
    exact (makeB_ok_iff ..).mpr ⟨op, imm, constructFront_variantOpcode op,
      immFromSigned_immToSigned (by norm_num) (by norm_num) imm, rfl⟩
  | u op rd imm =>
    rw [build_U (n := immToSigned imm) rfl rfl rfl rfl]
    exact (makeU_ok_iff ..).mpr ⟨op, imm, constructFront_variantOpcode op,
      immFromSigned_immToSigned (by norm_num) (by norm_num) imm, rfl⟩
  | j op rd imm =>
    rw [build_J (n := immToSigned imm) rfl rfl rfl rfl]
    exact (makeJ_ok_iff ..).mpr ⟨op, imm, constructFront_variantOpcode op,
      immFromSigned_immToSigned (by norm_num) (by norm_num) imm, rfl⟩

/-- The front of a constructor keeps the opcode (R137). -/
theorem variantOpcode_of_front {p : Params} {op : Opcode p} {t : Format} {v : VariantOpcode p t}
    (h : constructFront op t = .ok v) : variantOpcode v = op := by
  obtain ⟨-, -, hbits⟩ := (constructFront_ok_iff op t v).mp h
  exact opcode_ext hbits

/-- `Build` keeps the opcode it was given (R179). -/
theorem opcode_of_build {p : Params} {b : BuildInput p} {x : Instruction p} (h : build b = .ok x) :
    b.opcode = some (opcodeOf x) := by
  obtain ⟨op, hop, h⟩ := need_bind_ok h
  rw [hop]
  congr 1
  obtain ⟨bits, t, sz, hmapped, hsized⟩ := op
  cases t with
  | R =>
    obtain ⟨f3, -, h⟩ := need_bind_ok h
    obtain ⟨f7, -, h⟩ := need_bind_ok h
    obtain ⟨rs1, -, h⟩ := need_bind_ok h
    obtain ⟨rs2, -, h⟩ := need_bind_ok h
    obtain ⟨rd, -, h⟩ := need_bind_ok h
    obtain ⟨v, hv, rfl⟩ := (makeR_ok_iff ..).mp h
    exact (variantOpcode_of_front hv).symm
  | I =>
    obtain ⟨f3, -, h⟩ := need_bind_ok h
    obtain ⟨rs1, -, h⟩ := need_bind_ok h
    obtain ⟨rd, -, h⟩ := need_bind_ok h
    obtain ⟨n, -, h⟩ := need_bind_ok h
    obtain ⟨v, imm, hv, -, rfl⟩ := (makeI_ok_iff ..).mp h
    exact (variantOpcode_of_front hv).symm
  | S =>
    obtain ⟨f3, -, h⟩ := need_bind_ok h
    obtain ⟨rs1, -, h⟩ := need_bind_ok h
    obtain ⟨rs2, -, h⟩ := need_bind_ok h
    obtain ⟨n, -, h⟩ := need_bind_ok h
    obtain ⟨v, imm, hv, -, rfl⟩ := (makeS_ok_iff ..).mp h
    exact (variantOpcode_of_front hv).symm
  | B =>
    obtain ⟨f3, -, h⟩ := need_bind_ok h
    obtain ⟨rs1, -, h⟩ := need_bind_ok h
    obtain ⟨rs2, -, h⟩ := need_bind_ok h
    obtain ⟨n, -, h⟩ := need_bind_ok h
    obtain ⟨v, imm, hv, -, rfl⟩ := (makeB_ok_iff ..).mp h
    exact (variantOpcode_of_front hv).symm
  | U =>
    obtain ⟨rd, -, h⟩ := need_bind_ok h
    obtain ⟨n, -, h⟩ := need_bind_ok h
    obtain ⟨v, imm, hv, -, rfl⟩ := (makeU_ok_iff ..).mp h
    exact (variantOpcode_of_front hv).symm
  | J =>
    obtain ⟨rd, -, h⟩ := need_bind_ok h
    obtain ⟨n, -, h⟩ := need_bind_ok h
    obtain ⟨v, imm, hv, -, rfl⟩ := (makeJ_ok_iff ..).mp h
    exact (variantOpcode_of_front hv).symm

/-- Settles O29: the types hold the tables' answers, `Decode` and `Build` read an Instruction back. -/
theorem everyInstructionSatisfiesTheInvariant : Obligations.EveryInstructionSatisfiesTheInvariant :=
  ⟨fun _ x => ⟨opcodeOf_format x, opcodeOf_size x, (formatOfKey_ok_iff _ _).mp (opcodeOf_mapped x), opcodeOf_sized x,
      opcodeFromRaw_bits _⟩,
    fun p x => ⟨⟨_, decode_encodeInstruction x⟩, ⟨_, builderRebuildsAnInstructionFromItsFields p x⟩⟩,
    fun _ _ _ => opcode_of_build, fun _ => opcodeFromRaw_bits⟩

end Sys2Proof.Laws
end

section
/-! The hardware bundle (10_state.md R23; 43_union_builder.md R173, R174). Its fields are what the accessors answer, and
`Build` makes the Instruction from those, so nothing is lost. -/

namespace Sys2Proof.Laws

open Machine

/-- The signed value of an immediate fits the 32-bit port (R54, R174). -/
theorem immediateSigned_fits {p : Params} {x : Instruction p} {v : Int} (h : immediateSigned x = some v) :
    (BitVec.ofInt 32 v).toInt = v := by
  have hfits {start width : Nat} (hw : 0 < width) (hend : start + width ≤ 32) (imm : Immediate start width) :
      (BitVec.ofInt 32 (immToSigned imm)).toInt = immToSigned imm := by
    rw [immToSigned_eq_conceptualImm imm (by unfold immEnd; omega), BitVec.ofInt_toInt]
  cases x with
  | r => cases h
  | i _ _ _ _ imm | s _ _ _ _ imm =>
    obtain rfl := Option.some.inj h
    exact hfits (start := 0) (by norm_num) (by norm_num) imm
  | b _ _ _ _ imm =>
    obtain rfl := Option.some.inj h
    exact hfits (by norm_num) (by norm_num) imm
  | u _ _ imm | j _ _ imm =>
    obtain rfl := Option.some.inj h
    exact hfits (by norm_num) (by norm_num) imm

/-- An optional field is its valid bit and its value. -/
theorem option_eq_of_port {α : Type} {a b : Option α} {d : α} (hvalid : a.isSome = b.isSome)
    (hvalue : a.getD d = b.getD d) : a = b := by
  cases a with
  | none => cases b with
    | none => rfl
    | some => cases hvalid
  | some => cases b with
    | none => cases hvalid
    | some => exact congrArg some hvalue

/-- The signed immediate is the one of the 32-bit port where the valid bit is set (R174). -/
theorem immediateSigned_eq_of_port {p : Params} {x y : Instruction p}
    (hvalid : (immediateOf x).isSome = (immediateOf y).isSome)
    (hvalue : (bundleOf x).immSigned = (bundleOf y).immSigned) : immediateSigned x = immediateSigned y := by
  have hsome : (immediateSigned x).isSome = (immediateSigned y).isSome := by
    simpa [immediateSigned] using hvalid
  cases hx : immediateSigned x with
  | none =>
    rw [hx] at hsome
    exact (Option.isNone_iff_eq_none.mp (by simpa using hsome.symm)).symm
  | some v =>
    rw [hx] at hsome
    obtain ⟨v', hy⟩ := Option.isSome_iff_exists.mp hsome.symm
    simp only [bundleOf, hx, hy, Option.getD_some] at hvalue
    rw [hy, ← immediateSigned_fits hx, ← immediateSigned_fits hy, hvalue]

/-- The bundle holds all that the builder reads (R23, R175). -/
theorem buildInputOf_eq_of_bundle {p : Params} {x y : Instruction p} (h : bundleOf x = bundleOf y) :
    buildInputOf x = buildInputOf y := by
  have himm := immediateSigned_eq_of_port (congrArg InstructionBundle.immValid h)
    (congrArg InstructionBundle.immSigned h)
  simp only [bundleOf, InstructionBundle.mk.injEq] at h
  obtain ⟨-, hbits, hrd, hrdV, hf3, hf3V, hrs1, hrs1V, hrs2, hrs2V, hf7, hf7V, -, -, -⟩ := h
  rw [buildInputOf, buildInputOf, opcode_ext hbits, option_eq_of_port hrdV hrd, option_eq_of_port hf3V hf3,
    option_eq_of_port hrs1V hrs1, option_eq_of_port hrs2V hrs2, option_eq_of_port hf7V hf7, himm]

/-- Zero-extending a pattern to the port keeps its low bits (R23; log 24). -/
theorem extract_setWidth_port (r : BitVec 12) : (r.setWidth 20).extractLsb' 0 12 = r := by
  apply BitVec.eq_of_getLsbD_eq
  intro k hk
  simp [hk, show k < 20 by omega]

theorem formatOfCode_formatCode (t : Format) : formatOfCode (formatCode t) = some t := by
  cases t <;> rfl

/-- Settles O32: the bundle determines the builder's input and so the Instruction; its fields are read off the
variant. -/
theorem bundleCarriesTheWholeInstruction : Obligations.BundleCarriesTheWholeInstruction := by
  refine ⟨fun p x y h => ?_, fun p x => ?_, fun p x => ?_, fun p x => ⟨?_, ?_, ?_, ?_, ?_, ?_, ?_, ?_, ?_, ?_⟩⟩
  · have hx := builderRebuildsAnInstructionFromItsFields p x
    rw [buildInputOf_eq_of_bundle h, builderRebuildsAnInstructionFromItsFields p y] at hx
    exact (Except.ok.inj hx).symm
  · cases x <;> simp [bundleOf, tagOf, rdOf, funct3Of, rs1Of, rs2Of, funct7Of, immediateOf]
  · refine ⟨?_, ?_, ?_, ?_, ?_, ?_, formatOfCode_formatCode _, rfl⟩
    all_goals
      intro h
      have hnone := Option.isNone_iff_eq_none.mp (Option.isSome_eq_false_iff.mp h)
      simp [bundleOf, immediateSigned, hnone]
  · intro r h
    simp [bundleOf, h]
  · intro f h
    simp [bundleOf, h]
  · intro r h
    simp [bundleOf, h]
  · intro r h
    simp [bundleOf, h]
  · intro f h
    simp [bundleOf, h]
  · intro v h
    simp [bundleOf, h, immediateSigned_fits h]
  · intro imm h
    simp [bundleOf, h, variantImmRaw, extract_setWidth_port]
  · intro imm h
    simp [bundleOf, h, variantImmRaw, extract_setWidth_port]
  · intro imm h
    simp [bundleOf, h, variantImmRaw]
  · intro imm h
    simp [bundleOf, h, variantImmRaw]

end Sys2Proof.Laws
end

section
/-! `UnrecognizedExtension` is in the set of errors and raised nowhere (60_exceptions.md R235; log 16): what each
operation can fail with is named by the lemma about its errors, and the name is never this one. -/

namespace Sys2Proof.Laws

open Machine

/-- The three errors of the classifier (R121). -/
theorem opcodeFromRaw_error_cases {p : Params} {raw : BitVec 8} {e : DecodeError}
    (h : opcodeFromRaw p raw = .error e) :
    e = .invalidOpcode ∨ e = .unrecognizedInstructionFormat ∨ e = .unrecognizedInstructionSize := by
  rcases (opcodeFromRaw_error_iff p raw e).mp h with ⟨-, he⟩ | ⟨-, hformat⟩ | ⟨-, -, -, he⟩
  · exact .inl he
  · exact .inr (.inl ((formatOfKey_error_iff _ e).mp hformat).2)
  · exact .inr (.inr he)

/-- A variant's front fails in the classifier or in its own two tests (R136). -/
theorem variantFront_error_cases {p : Params} {w : Word} {t : Format} {e : DecodeError}
    (h : variantFront p w t = .error e) :
    opcodeFromRaw p ((wordOpcode w).setWidth 8) = .error e ∨ ∃ op : Opcode p, constructFront op t = .error e := by
  unfold variantFront opcodeFront at h
  split at h
  next e' hraw => exact .inl (hraw.trans (congrArg Except.error (Except.error.inj h)))
  next op _ => exact .inr ⟨op, h⟩

/-- The errors of `Build`: a missing field, or those of the constructor of the opcode's format (R177). -/
theorem build_error_cases {p : Params} {b : BuildInput p} {e : DecodeError} (h : build b = .error e) :
    (∃ f, e = .builderMissingField f) ∨ ∃ op : Opcode p, ConstructorError op op.format e := by
  cases hop : b.opcode with
  | none =>
    rw [build_of_no_opcode hop] at h
    exact .inl ⟨_, (Except.error.inj h).symm⟩
  | some op =>
    cases hfirst : (requiredFields op.format).find? (fun f => !fieldPresent b f) with
    | some f =>
      rw [build_of_missing hop hfirst] at h
      exact .inl ⟨f, (Except.error.inj h).symm⟩
    | none =>
      refine .inr ⟨op, constructorError_of_build hop (fun f hf => ?_) h⟩
      simpa using List.find?_eq_none.mp hfirst f hf

/-! None of them is `UnrecognizedExtension`. -/

theorem opcodeFromRaw_ne_unrecognizedExtension (p : Params) (raw : BitVec 8) :
    opcodeFromRaw p raw ≠ .error .unrecognizedExtension := by
  intro h
  rcases opcodeFromRaw_error_cases h with he | he | he <;> cases he

theorem constructorError_ne_unrecognizedExtension {p : Params} {op : Opcode p} {t : Format} :
    ¬ ConstructorError op t .unrecognizedExtension := by
  rintro (⟨_, he⟩ | ⟨-, he⟩ | ⟨_, _, he⟩ | ⟨_, he⟩) <;> cases he

theorem variantFront_ne_unrecognizedExtension (p : Params) (w : Word) (t : Format) :
    variantFront p w t ≠ .error .unrecognizedExtension := by
  intro h
  rcases variantFront_error_cases h with hraw | ⟨op, hfront⟩
  · exact opcodeFromRaw_ne_unrecognizedExtension p _ hraw
  · exact constructorError_ne_unrecognizedExtension (constructorError_of_front hfront)

theorem decode_ne_unrecognizedExtension (p : Params) (w : Word) : decode p w ≠ .error .unrecognizedExtension := by
  intro h
  rcases decode_error_cases h with he | he | ⟨_, he⟩ <;> cases he

theorem streamError_ne_unrecognizedExtension : ¬ StreamError .unrecognizedExtension := by
  rintro (he | ⟨_, -, he⟩ | he | he) <;> cases he

/-- Settles O38, operation by operation. -/
theorem unrecognizedExtensionIsNeverReturned : Obligations.UnrecognizedExtensionIsNeverReturned := by
  refine ⟨fun p raw key o => ⟨opcodeFromRaw_ne_unrecognizedExtension p raw, fun h => ?_, fun h => ?_, fun h => ?_,
      fun h => ?_, fun h => ?_⟩,
    fun start width v bits => ⟨fun h => ?_, fun h => ?_⟩,
    fun p t w i op => ⟨variantFront_ne_unrecognizedExtension p w t,
      fun h => constructorError_ne_unrecognizedExtension (constructorError_of_front h),
      fun h => variantFront_ne_unrecognizedExtension p w t ((decodersFailOnlyByClassification.1 p t w _).mp h),
      decode_ne_unrecognizedExtension p w,
      fun h => decode_ne_unrecognizedExtension p w ((decodeWord_error_iff p w _).mp h),
      fun h => decode_ne_unrecognizedExtension p _ ((instructionOf_eq_decode p i).symm.trans h)⟩,
    fun p op rd rs1 rs2 f3 f7 v => ⟨?_, ?_, ?_, ?_, ?_, ?_⟩, fun p b h => ?_, fun s t h ht => ?_⟩
  · cases ((formatOfKey_error_iff key _).mp h).2
  · cases ((sizeOf_error_iff p o _).mp h).2
  · unfold regFromRaw at h
    split_ifs at h
    cases h
  · unfold funct3FromRaw at h
    split_ifs at h
    cases h
  · unfold funct7FromRaw at h
    split_ifs at h
    cases h
  · rcases immFromSigned_error_cases h with ⟨_, _, he⟩ | ⟨_, he⟩ <;> cases he
  · unfold immFromRawBits at h
    split_ifs at h
    cases h
  · exact fun h => constructorError_ne_unrecognizedExtension (constructorError_of_makeR h)
  · exact fun h => constructorError_ne_unrecognizedExtension (constructorError_of_makeI h)
  · exact fun h => constructorError_ne_unrecognizedExtension (constructorError_of_makeS h)
  · exact fun h => constructorError_ne_unrecognizedExtension (constructorError_of_makeB h)
  · exact fun h => constructorError_ne_unrecognizedExtension (constructorError_of_makeU h)
  · exact fun h => constructorError_ne_unrecognizedExtension (constructorError_of_makeJ h)
  · rcases build_error_cases h with ⟨_, he⟩ | ⟨op, he⟩
    · cases he
    · exact constructorError_ne_unrecognizedExtension he
  · obtain ⟨n, o, hans, rfl⟩ := (step_next_iff s t).mp h
    obtain rfl := Option.some.inj ht
    exact streamError_ne_unrecognizedExtension hans.streamError

end Sys2Proof.Laws
end

section
/-! The names and numbers of the ports (40_primitives.md R93 to R95; 10_state.md R11, R14, R18, R19; 60_exceptions.md
R231) and the written-out words of 95_test_vectors.md: finite tables. -/

namespace Sys2Proof.Laws

open Machine

theorem funct3FromRaw_of_lt {raw : BitVec 8} (h : raw.toNat < 8) : funct3FromRaw raw = .ok (raw.extractLsb' 0 3) :=
  if_neg (not_le.mpr h)

theorem funct7FromRaw_of_lt {raw : BitVec 8} (h : raw.toNat < 128) : funct7FromRaw raw = .ok (raw.extractLsb' 0 7) :=
  if_neg (not_le.mpr h)

/-- Settles O20: below the bound the bits that are kept hold the whole value. -/
theorem rawFunctValuesAreAcceptedExactlyWhenTheyFit : Obligations.RawFunctValuesAreAcceptedExactlyWhenTheyFit :=
  fun raw => ⟨fun h => ⟨_, funct3FromRaw_of_lt h, toNat_lowBits_of_lt raw h⟩, fun h => if_pos h,
    fun h => ⟨_, funct7FromRaw_of_lt h, toNat_lowBits_of_lt raw h⟩, fun h => if_pos h⟩

/-! Register names (R11, R93). -/

/-- The name with a given spelling. -/
def nameOfText (text : String) : Option RegName := regNameTable.find? fun n => regNameText n == text

/-- The spelling of a name finds the name, so no two names are spelled alike. -/
theorem nameOfText_regNameText (n : RegName) : nameOfText (regNameText n) = some n := by
  cases n <;> decide

theorem regName_regOfName (n : RegName) : regName (regOfName n) = n := by
  cases n <;> decide

/-- Settles O21: the table of names has each name once, at its index. -/
theorem registerNamesAreABijection : Obligations.RegisterNamesAreABijection := by
  refine ⟨by decide, regName_regOfName, fun m n h => ?_, by decide⟩
  have hm := nameOfText_regNameText m
  rw [h, nameOfText_regNameText n] at hm
  exact (Option.some.inj hm).symm

/-! Codes (R14, R18, R19, R231). -/

theorem formatOfCode_eq_some_iff (c : BitVec 3) (f : Format) : formatOfCode c = some f ↔ formatCode f = c := by
  revert c
  cases f <;> decide

theorem errorCode_ne_zero (e : DecodeError) : errorCode e ≠ 0 := by
  cases e <;> simp [errorCode]

theorem resultCode_eq_zero_iff {α : Type} (r : Except DecodeError α) : resultCode r = 0 ↔ ∃ x, r = .ok x := by
  cases r with
  | ok x => exact ⟨fun _ => ⟨x, rfl⟩, fun _ => rfl⟩
  | error e => exact ⟨fun h => absurd h (errorCode_ne_zero e), nofun⟩

/-- Settles O33: each code is looked up in its table. -/
theorem portCodesSeparateWhatTheyName : Obligations.PortCodesSeparateWhatTheyName := by
  refine ⟨formatOfCode_eq_some_iff, ?sizes, ?states, ?noThree, ?fields, fun _ => resultCode_eq_zero_iff,
    ?_, ?_, ?_, ?_, ?_, ?_, ?_, ?_, ?_, ?_, ?_, ?_⟩
  case sizes | states | fields =>
    intro a b
    cases a <;> cases b <;> decide
  case noThree =>
    intro a
    cases a <;> decide
  all_goals
    intro e
    cases e <;> simp [errorCode]

/-- Settles O1: seventeen words are decoded. -/
theorem opcodeTableWordsDecodeToTheirRows : Obligations.OpcodeTableWordsDecodeToTheirRows := by
  unfold Obligations.OpcodeTableWordsDecodeToTheirRows
  decide

end Sys2Proof.Laws
end
